-- ==== Sys2Proof/Word.lean ====
section
/-! DEFINITION. The word types of 00_scope.md R7: `u8`, `u32` and byte sequences. -/

namespace Sys2Proof

/-- `u8` of R7. -/
abbrev Byte := BitVec 8

/-- `u32` of R7: every header field, window size and sequence register. -/
abbrev U32 := BitVec 32

/-- `Bytes` of R7: a finite sequence of `u8`. -/
abbrev Bytes := List Byte

/-- `Map u32 V` of R7, as a list of key and value pairs. Its one canonical form is `MapWf`. -/
abbrev UMap (V : Type) := List (U32 × V)

end Sys2Proof
end

