-- ==== Sys2Proof/Config.lean ====
section
/-! DEFINITION. The implementation parameters of 00_scope.md R5, fixed for an instance, and the free values
(opaque constants, of which nothing can be proved). -/

namespace Sys2Proof

/-- `Addr` of R5: a name that the core only stores and compares (92 D2). DESIGN CHOICE, log entry 4. -/
structure Addr where
  id : Nat
  deriving DecidableEq, Repr, Inhabited

/-- `P_CRC` of R5: the default CRC-32/ISO-HDLC (40 R113), or some other function, of which nothing is known but what
`Config.Ok` asks. Log entry 5. -/
inductive Crc where
  | isoHdlc
  | replaced (k : Nat)
  deriving DecidableEq, Repr

/-- The parameters of R5 that the rules read. `outCapacity = none` is "unbounded". `sndAddr` and `rcvAddr` are the
addresses the channel attaches to what the engines send (log entry 16). `P_TICK` is left out (log entry 13). -/
structure Config where
  maxPayload    : Nat
  rxTimeout     : Nat
  closeDeadline : Nat
  addrFilter    : Bool
  outCapacity   : Option Nat
  crc           : Crc
  sndAddr       : Addr
  rcvAddr       : Addr
  deriving DecidableEq, Repr

/-- A free value: the `k`-th function that may replace the default `P_CRC` (93 I5). -/
opaque Config.replacedCrc : Nat → Bytes → U32

/-- Bit `k` of a byte sequence flipped, bit 0 being the least significant bit of byte 0. -/
def flipBit (b : Bytes) (k : Nat) : Bytes := b.modify (k / 8) (fun x => x ^^^ (1#8 <<< (k % 8)))

/-- A checksum function detects every single-bit error (40 R118, 93 I5). -/
def DetectsFlips (f : Bytes → U32) : Prop :=
  ∀ (data : Bytes) (k : Nat), k < 8 * data.length → f (flipBit data k) ≠ f data

/-- The constraints column of R5, and the one that 40 R118 puts on a replaced `P_CRC`. The default meets it by its
definition (`crc32_detectsFlips`). -/
abbrev Config.Ok (c : Config) : Prop :=
  1 ≤ c.maxPayload ∧ c.maxPayload ≤ 2 ^ 32 - 1 ∧ 1 ≤ c.rxTimeout ∧ 1 ≤ c.closeDeadline ∧
  ∀ k, c.crc = .replaced k → DetectsFlips (Config.replacedCrc k)

/-- The parameters that 95_test_vectors.md §0 uses: a value for the fields at reset, DESIGN CHOICE (log entry 3).
`addrFilter` and `crc` have the defaults of R5; the two addresses are the test vectors' A and R. -/
def Config.reference : Config where
  maxPayload    := 4
  rxTimeout     := 5
  closeDeadline := 8
  addrFilter    := false
  outCapacity   := none
  crc           := .isoHdlc
  sndAddr       := ⟨1⟩
  rcvAddr       := ⟨0⟩

end Sys2Proof
end

