-- ==== Sys2Proof/Syntax.lean ====
section
/-! DEFINITION. The instructions (one constructor for each row of spec/opcode_table.json), their operands, and the
input events of 30_encoding.md R90. -/

namespace Sys2Proof

/-- The two engines of a core (10 R21). -/
inductive Engine where
  | snd
  | rcv
  deriving DecidableEq, Repr

/-- The target of RESET (30 R90). -/
inductive Target where
  | snd
  | rcv
  | all
  deriving DecidableEq, Repr

/-- A typed command operand or result (30 R87, R88; the types of 00 R7). -/
inductive Value where
  | u8 (v : Byte)
  | u32 (v : U32)
  | bool (v : Bool)
  | addr (v : Addr)
  | bytes (v : Bytes)
  | map (v : UMap Bytes)
  deriving DecidableEq, Repr

/-- A free value: the results of the `k`-th read of a reserved status register, which "is not defined" (10 R45,
93 I13), whether none, one or any. Log entry 20. -/
opaque Config.freeResults : Nat → List Value

/-- What a datagram holds beside its `type` field: the other header fields (30 R81), the payload, and the bytes
beyond 16 + `length` that are not part of the packet (30 R85). -/
structure PacketBody where
  seq      : U32
  length   : U32
  checksum : U32
  payload  : Bytes
  trailing : Bytes
  deriving DecidableEq, Repr

/-- The instructions: the 12 host commands of 30 R88 and the 4 packet types of 30 R82, a packet being offered to
engine `e` from source address `src` (the events RX_SND and RX_RCV of R90). -/
inductive Instr where
  | codecEncode (type seq length checksum : U32) (payload : Bytes)
  | codecChecksum (type seq length checksum : U32) (payload : Bytes)
  | codecDecode (bytes : Bytes)
  | codecVerify (bytes : Bytes)
  | swInWindow (seq base size : U32)
  | swAdvance (base : U32) (buffer : UMap Bytes)
  | sndConnect (peer : Addr) (win : U32)
  | sndSend (stream : Bytes)
  | sndClose
  | rcvBind (localAddr : Addr)
  | rcvAccept (win : U32)
  | regRead (index : Byte)
  | start (e : Engine) (src : Addr) (p : PacketBody)
  | endPkt (e : Engine) (src : Addr) (p : PacketBody)
  | data (e : Engine) (src : Addr) (p : PacketBody)
  | ack (e : Engine) (src : Addr) (p : PacketBody)
  deriving DecidableEq, Repr

/-- What the channel may do to the datagrams in transit (20 R66): lose one, copy one, change one's bytes, offer any
one to an engine. -/
inductive ChannelAct where
  | drop (i : Nat)
  | duplicate (i : Nat)
  | alter (i : Nat) (bytes : Bytes)
  | deliver (i : Nat) (e : Engine)
  deriving DecidableEq, Repr

/-- The input events of 30 R90, and the channel's acts. `rx .snd` is RX_SND and `rx .rcv` is RX_RCV. -/
inductive Input where
  | cmd (word : U32) (operands : List Value)
  | rx (e : Engine) (bytes : Bytes) (src : Addr)
  | tick
  | reset (target : Target)
  | channel (act : ChannelAct)
  deriving DecidableEq, Repr

/-- An input event and the moment it arrives at. Only equality of moments matters (60 R313 item 1). -/
structure Arrival where
  moment : Nat
  ev     : Input
  deriving DecidableEq, Repr

end Sys2Proof
end

