-- ==== Sys2Proof/WellFormed.lean ====
section
/-! DEFINITION. Which terms are values of the spec's types: the canonical form of a map, and the instructions that an
encoding stands for. -/

namespace Sys2Proof

/-- The canonical form of a `Map u32 V`: its keys rise strictly, so equal maps are equal lists. -/
abbrev MapWf {V : Type} (m : UMap V) : Prop :=
  (m.map (fun e => e.1.toNat)).Pairwise (· < ·)

/-- A decoded packet's payload is `b[16 .. 16 + length)` (40 R115), so it has `length` bytes. -/
abbrev PacketBody.Wf (p : PacketBody) : Prop := p.payload.length = p.length.toNat

/-- The well-formed instructions: the buffer operand of SW_ADVANCE is a map, and a packet's payload has the stated
length. Every other operand is well formed by its type. -/
def Instr.wf : Instr → Bool
  | .codecEncode _ _ _ _ _ => true
  | .codecChecksum _ _ _ _ _ => true
  | .codecDecode _ => true
  | .codecVerify _ => true
  | .swInWindow _ _ _ => true
  | .swAdvance _ buffer => decide (MapWf buffer)
  | .sndConnect _ _ => true
  | .sndSend _ => true
  | .sndClose => true
  | .rcvBind _ => true
  | .rcvAccept _ => true
  | .regRead _ => true
  | .start _ _ p => decide p.Wf
  | .endPkt _ _ p => decide p.Wf
  | .data _ _ p => decide p.Wf
  | .ack _ _ p => decide p.Wf

end Sys2Proof
end

