-- ==== Sys2Proof/Decode.lean ====
section
/-! DEFINITION. The encodings of 30_encoding.md: command words and packets, read and written. The decoder is total and
rejects by name. -/

namespace Sys2Proof

/-! ## Fields of a byte sequence (00 R8, 20 R60) -/

/-- `be32(v)`: most significant byte first. -/
def be32 (v : U32) : Bytes :=
  [v.extractLsb' 24 8, v.extractLsb' 16 8, v.extractLsb' 8 8, v.extractLsb' 0 8]

/-- Byte `i` of `b`; the callers stay inside `b`. -/
def byteAt (b : Bytes) (i : Nat) : Byte := b.getD i 0

/-- `rd32(b, off)`. -/
def rd32 (b : Bytes) (off : Nat) : U32 :=
  (byteAt b off ++ byteAt b (off + 1)) ++ (byteAt b (off + 2) ++ byteAt b (off + 3))

/-- `b[lo .. hi)`. -/
def slice (b : Bytes) (lo hi : Nat) : Bytes := (b.drop lo).take (hi - lo)

/-! ## Packets (30 R80 to R85, 40 R110 to R115) -/

/-- The header record of 40 R110. -/
structure Header where
  type     : U32
  seq      : U32
  length   : U32
  checksum : U32
  deriving DecidableEq, Repr

/-- A decoded packet of 40 R110. -/
structure Packet where
  h       : Header
  payload : Bytes
  deriving DecidableEq, Repr

/-- The result of `decode`: a packet, or FormatError with its sub-cause (40 R115). -/
inductive Parsed where
  | packet (p : Packet)
  | shortHeader
  | shortPayload
  deriving DecidableEq, Repr

/-- The type codes of 30 R82. -/
def typeStart : U32 := 0
/-- 30 R82. -/
def typeEnd : U32 := 1
/-- 30 R82. -/
def typeData : U32 := 2
/-- 30 R82. -/
def typeAck : U32 := 3

/-- 40 R111. -/
def serializeHeader (h : Header) : Bytes := be32 h.type ++ be32 h.seq ++ be32 h.length ++ be32 h.checksum

/-- The header at the front of `b` (30 R81). -/
def readHeader (b : Bytes) : Header := ⟨rd32 b 0, rd32 b 4, rd32 b 8, rd32 b 12⟩

/-- `decode` of 40 R115; `16 + l` is a sum of Nat. -/
def decodePacket (b : Bytes) : Parsed :=
  if b.length < 16 then .shortHeader
  else if 16 + (readHeader b).length.toNat > b.length then .shortPayload
  else .packet ⟨readHeader b, slice b 16 (16 + (readHeader b).length.toNat)⟩

/-! ## Command words (30 R87 to R89) -/

/-- The opcodes of 30 R88. -/
inductive Op where
  | codecEncode | codecChecksum | codecDecode | codecVerify
  | swInWindow | swAdvance
  | sndConnect | sndSend | sndClose
  | rcvBind | rcvAccept
  | regRead
  deriving DecidableEq, Repr

/-- The `op` field of 30 R88. -/
def Op.code : Op → Byte
  | .codecEncode => 0x01
  | .codecChecksum => 0x02
  | .codecDecode => 0x03
  | .codecVerify => 0x04
  | .swInWindow => 0x10
  | .swAdvance => 0x11
  | .sndConnect => 0x20
  | .sndSend => 0x21
  | .sndClose => 0x22
  | .rcvBind => 0x30
  | .rcvAccept => 0x31
  | .regRead => 0x40

/-- The table of 30 R88 in its order. -/
def Op.table : List Op :=
  [.codecEncode, .codecChecksum, .codecDecode, .codecVerify, .swInWindow, .swAdvance,
   .sndConnect, .sndSend, .sndClose, .rcvBind, .rcvAccept, .regRead]

/-- The opcode that a byte stands for; `none` is a reserved encoding (30 R89). -/
def Op.ofCode (c : Byte) : Option Op := Op.table.find? (fun o => o.code == c)

/-- The command word of an opcode: `op` in [7:0] and `rsv` = 0 (30 R87). -/
def Op.word (o : Op) : U32 := o.code.setWidth 32

/-! ## The decoder -/

/-- Why an input event is no instruction. The first three respond `E_ILLEGAL` (30 R87, R89). -/
inductive Reject where
  | rsvNonzero
  | reservedOpcode
  | wrongOperands
  | shortHeader
  | shortPayload
  | reservedType
  | noInstruction
  deriving DecidableEq, Repr

/-- What the decoder answers. -/
inductive Decoded where
  | instr (i : Instr)
  | rejected (why : Reject)
  deriving DecidableEq, Repr

/-- SW_ADVANCE with its operands. A list of pairs that is not in the canonical form is no `Map` value (log entry 7). -/
def mapOperand (base : U32) (m : UMap Bytes) : Option Instr := if MapWf m then some (.swAdvance base m) else none

/-- The instruction of an opcode and its operands (30 R88); `none` is a wrong number or wrong types (30 R89). -/
def withOperands (o : Op) (operands : List Value) : Option Instr :=
  match o with
  | .codecEncode => match operands with
    | [.u32 t, .u32 q, .u32 l, .u32 c, .bytes p] => some (.codecEncode t q l c p)
    | _ => none
  | .codecChecksum => match operands with
    | [.u32 t, .u32 q, .u32 l, .u32 c, .bytes p] => some (.codecChecksum t q l c p)
    | _ => none
  | .codecDecode => match operands with
    | [.bytes b] => some (.codecDecode b)
    | _ => none
  | .codecVerify => match operands with
    | [.bytes b] => some (.codecVerify b)
    | _ => none
  | .swInWindow => match operands with
    | [.u32 q, .u32 b, .u32 n] => some (.swInWindow q b n)
    | _ => none
  | .swAdvance => match operands with
    | [.u32 b, .map m] => mapOperand b m
    | _ => none
  | .sndConnect => match operands with
    | [.addr a, .u32 w] => some (.sndConnect a w)
    | _ => none
  | .sndSend => match operands with
    | [.bytes b] => some (.sndSend b)
    | _ => none
  | .sndClose => match operands with
    | [] => some .sndClose
    | _ => none
  | .rcvBind => match operands with
    | [.addr a] => some (.rcvBind a)
    | _ => none
  | .rcvAccept => match operands with
    | [.u32 w] => some (.rcvAccept w)
    | _ => none
  | .regRead => match operands with
    | [.u8 i] => some (.regRead i)
    | _ => none

/-- A host command (30 R87 to R89). -/
def decodeCommand (word : U32) (operands : List Value) : Decoded :=
  if word.extractLsb' 8 24 ≠ 0 then .rejected .rsvNonzero
  else match Op.ofCode (word.extractLsb' 0 8) with
    | none => .rejected .reservedOpcode
    | some o => match withOperands o operands with
      | none => .rejected .wrongOperands
      | some i => .instr i

/-- The packet instruction of a type code (30 R82); `none` is a reserved type (30 R85). -/
def ofType (e : Engine) (src : Addr) (type : U32) (p : PacketBody) : Option Instr :=
  if type = typeStart then some (.start e src p)
  else if type = typeEnd then some (.endPkt e src p)
  else if type = typeData then some (.data e src p)
  else if type = typeAck then some (.ack e src p)
  else none

/-- A datagram offered to an engine (30 R80 to R85, 40 R115). -/
def decodeDatagram (e : Engine) (src : Addr) (b : Bytes) : Decoded :=
  match decodePacket b with
  | .shortHeader => .rejected .shortHeader
  | .shortPayload => .rejected .shortPayload
  | .packet k =>
    match ofType e src k.h.type
      ⟨k.h.seq, k.h.length, k.h.checksum, k.payload, b.drop (16 + k.h.length.toNat)⟩ with
    | none => .rejected .reservedType
    | some i => .instr i

/-- The decoder: the instruction an input event stands for. TICK, RESET and the channel's acts are events of their
own, no rows of the table. -/
def decode : Input → Decoded
  | .cmd word operands => decodeCommand word operands
  | .rx e bytes src => decodeDatagram e src bytes
  | .tick => .rejected .noInstruction
  | .reset _ => .rejected .noInstruction
  | .channel _ => .rejected .noInstruction

/-! ## The encoder -/

/-- The bytes of a packet of the given type, with what follows it in the datagram (30 R81, R85). -/
def packetBytes (type : U32) (p : PacketBody) : Bytes :=
  serializeHeader ⟨type, p.seq, p.length, p.checksum⟩ ++ p.payload ++ p.trailing

/-- The input event of an instruction: its command word and operands, or its datagram. -/
def encode : Instr → Input
  | .codecEncode t q l c p => .cmd Op.codecEncode.word [.u32 t, .u32 q, .u32 l, .u32 c, .bytes p]
  | .codecChecksum t q l c p => .cmd Op.codecChecksum.word [.u32 t, .u32 q, .u32 l, .u32 c, .bytes p]
  | .codecDecode b => .cmd Op.codecDecode.word [.bytes b]
  | .codecVerify b => .cmd Op.codecVerify.word [.bytes b]
  | .swInWindow q b n => .cmd Op.swInWindow.word [.u32 q, .u32 b, .u32 n]
  | .swAdvance b m => .cmd Op.swAdvance.word [.u32 b, .map m]
  | .sndConnect a w => .cmd Op.sndConnect.word [.addr a, .u32 w]
  | .sndSend b => .cmd Op.sndSend.word [.bytes b]
  | .sndClose => .cmd Op.sndClose.word []
  | .rcvBind a => .cmd Op.rcvBind.word [.addr a]
  | .rcvAccept w => .cmd Op.rcvAccept.word [.u32 w]
  | .regRead i => .cmd Op.regRead.word [.u8 i]
  | .start e src p => .rx e (packetBytes typeStart p) src
  | .endPkt e src p => .rx e (packetBytes typeEnd p) src
  | .data e src p => .rx e (packetBytes typeData p) src
  | .ack e src p => .rx e (packetBytes typeAck p) src

/-! ## The opcode table's words -/

/-- Operands of zeros for an opcode. -/
def zeroOperands : Op → List Value
  | .codecEncode => [.u32 0, .u32 0, .u32 0, .u32 0, .bytes []]
  | .codecChecksum => [.u32 0, .u32 0, .u32 0, .u32 0, .bytes []]
  | .codecDecode => [.bytes []]
  | .codecVerify => [.bytes []]
  | .swInWindow => [.u32 0, .u32 0, .u32 0]
  | .swAdvance => [.u32 0, .map []]
  | .sndConnect => [.addr ⟨0⟩, .u32 0]
  | .sndSend => [.bytes []]
  | .sndClose => []
  | .rcvBind => [.addr ⟨0⟩]
  | .rcvAccept => [.u32 0]
  | .regRead => [.u8 0]

/-- The input event whose first word is `word`, everything after it zero. The command words 1, 2 and 3 are also the
type words of END, DATA and ACK; a word that is a command's is read as the command. Word 0 is no command (30 R89): it
is read as the first word of a START datagram offered to the receiver. Log entry 6. -/
def tableInput (word : U32) : Input :=
  if word = 0 then .rx .rcv (be32 word ++ List.replicate 12 0) ⟨0⟩
  else match Op.ofCode (word.extractLsb' 0 8) with
    | some o => .cmd word (zeroOperands o)
    | none => .cmd word []

/-- The instruction of an opcode-table word; every row has 32 bits. -/
def decodeTableWord (_nbits w : Nat) : Option Instr :=
  if w < 2 ^ 32 then
    match decode (tableInput (BitVec.ofNat 32 w)) with
    | .instr i => some i
    | .rejected _ => none
  else none

end Sys2Proof
end

