-- ==== Sys2Proof/Machine/State.lean ====
section
/-! DEFINITION. The state of the core (10_state.md), the output events (30 R90), the reasons a step can stop, and the
state right after reset (70_reset_and_hazards.md R340 to R342). -/

namespace Sys2Proof.Machine

/-- `ConnState` of 42 R160. -/
inductive ConnState where
  | idle
  | handshaking
  | established
  | closing
  | closed
  deriving DecidableEq, Repr

/-- The causes of 60 R300. -/
inductive Cause where
  | formatError
  | checksumMismatch
  | timeout
  | handshakeFailed
  | outOverflow
  | seqOverflow
  deriving DecidableEq, Repr

/-- The status codes of 60 R305. -/
inductive Status where
  | ok
  | illegal
  | state
  | arg
  | format
  deriving DecidableEq, Repr

/-- A record of the outstanding set (10 R31). -/
structure Outstanding where
  seqNum       : U32
  encodedBytes : Bytes
  lastSentAt   : Nat
  acknowledged : Bool
  deriving DecidableEq, Repr

/-- The sender engine registers (10 R22 to R33). -/
@[ext]
structure Sender where
  state       : ConnState
  peer        : Option Addr
  win         : U32
  loaded      : Bool
  active      : Bool
  n           : U32
  pkt         : UMap Bytes
  base        : U32
  next        : U32
  outstanding : UMap Outstanding
  waitLeft    : Nat
  dlLeft      : Nat
  closeAcked  : Bool
  deriving DecidableEq, Repr

/-- The receiver engine registers (10 R34 to R42 and R49). -/
@[ext]
structure Receiver where
  state     : ConnState
  localAddr : Option Addr
  listening : Bool
  peer      : Option Addr
  win       : U32
  nes       : U32
  buf       : UMap Bytes
  out       : Bytes
  delivered : Bool
  fault     : Option Cause
  deriving DecidableEq, Repr

/-- A datagram in the channel (20 R66), with the address it goes to and the one it comes from. -/
structure Datagram where
  dst   : Addr
  src   : Addr
  bytes : Bytes
  deriving DecidableEq, Repr

/-- The output events of 30 R90. -/
inductive Output where
  | resp (status : Status) (results : List Value)
  | txSnd (bytes : Bytes) (dst : Addr)
  | txRcv (bytes : Bytes) (dst : Addr)
  | connected
  | sendDone
  | closed (acked : Bool)
  | deliver (stream : Bytes) (peer : Addr)
  | fault (cause : Cause)
  deriving DecidableEq, Repr

/-- The core, its channel, and its input and output events.
* `cfg`: the instance's parameters (00 R5), which no step writes;
* `snd`, `rcv`, `now`: the architectural state (10 R20);
* `channel`: the datagrams in transit (20 R66), oldest first;
* `inputs`: the input events still to be taken, in the order the environment chose (20 R67), next first;
* `outputs`: the output events produced so far (30 R90), oldest first;
* `freeCount`: how many free values were used (the model's own field, log entry 20). -/
@[ext]
structure State where
  cfg       : Config
  snd       : Sender
  rcv       : Receiver
  now       : Nat
  channel   : List Datagram
  inputs    : List Arrival
  outputs   : List Output
  freeCount : Nat
  deriving DecidableEq, Repr

/-- Why the model stops. No rule of the spec stops the core (60 R307): each constructor is a primitive of the
pseudocode applied where it has no value, in states the rules never reach (log entry 9). All are safe. -/
inductive Fault where
  /-- Raised by the sender's `tx(snd.peer, ..)` when `snd.peer` is none. Safe. -/
  | noPeer
  /-- Raised by FillWindow and by go-back-N when `snd.pkt` has no entry for the sequence number (00 R9). Safe. -/
  | noImage
  /-- Raised by go-back-N when `snd.outstanding` has no entry for the sequence number (00 R9). Safe. -/
  | noRecord
  /-- Raised where a value to be stored in a u32 leaves its range, which 41 R142 says never happens. Safe. -/
  | seqRange
  /-- Raised by TICK when a running timer stands below 1, which 60 R311 says never happens. Safe. -/
  | timerUnderflow
  deriving DecidableEq, Repr

/-- Why the model refuses an instruction. -/
inductive Refusal where
  /-- Raised by an arm of `exec` whose instruction has no meaning yet (at present no arm). Safe. -/
  | notModelled (mnemonic : String)
  deriving DecidableEq, Repr

/-- What a meaning answers. -/
abbrev Res := Host.Outcome State Fault Refusal

/-- What a shared operation answers: a state, or why it stops. -/
abbrev Eff := Except Fault State

/-- The sender's reset values (70 R340). -/
def Sender.reset : Sender where
  state       := .idle
  peer        := none
  win         := 0
  loaded      := false
  active      := false
  n           := 0
  pkt         := []
  base        := 0
  next        := 0
  outstanding := []
  waitLeft    := 0
  dlLeft      := 0
  closeAcked  := false

/-- The receiver's reset values (70 R341). -/
def Receiver.reset : Receiver where
  state     := .idle
  localAddr := none
  listening := false
  peer      := none
  win       := 0
  nes       := 0
  buf       := []
  out       := []
  delivered := false
  fault     := none

/-- Right after reset: the state "clean" of 70 R352, that is RESET(ALL) (R340 to R343) and an empty channel. The values
of `cfg` are log entry 3; `inputs`, `outputs` and `freeCount` are log entries 1, 10 and 20. -/
def State.reset : State where
  cfg       := Config.reference
  snd       := Sender.reset
  rcv       := Receiver.reset
  now       := 0
  channel   := []
  inputs    := []
  outputs   := []
  freeCount := 0

/-- The canonical form of the core's buffers: every map of the state is one (20 R64: the core has no other memory). -/
abbrev Memory.wf (s : State) : Prop :=
  MapWf s.snd.pkt ∧ MapWf s.snd.outstanding ∧ MapWf s.rcv.buf

end Sys2Proof.Machine
end

