-- ==== Sys2Proof/Machine/Operands.lean ====
section
/-! DEFINITION. The forms an operand takes: maps (00 R9), checked narrowing to a u32 field (41 R142), chunks of a stream
(43 R187). -/

namespace Sys2Proof.Machine

/-- `m[k]`, where `m.contains(k)`. -/
def mapGet {V : Type} : UMap V → U32 → Option V
  | [], _ => none
  | (k, v) :: rest, q => if k = q then some v else mapGet rest q

/-- `m.contains(k)`. -/
def mapHas {V : Type} (m : UMap V) (q : U32) : Bool := (mapGet m q).isSome

/-- `m.insert(k, v)`, and `m[k] <- v`: the entry of `q` becomes `v`. -/
def mapInsert {V : Type} : UMap V → U32 → V → UMap V
  | [], q, v => [(q, v)]
  | (k, w) :: rest, q, v =>
    if q.toNat < k.toNat then (q, v) :: (k, w) :: rest
    else if k = q then (q, v) :: rest
    else (k, w) :: mapInsert rest q v

/-- `m.erase(k)`. -/
def mapErase {V : Type} (m : UMap V) (q : U32) : UMap V := m.filter (fun e => decide (e.1 ≠ q))

/-- `m` without its keys below `a` (43 R189). -/
def mapEraseBelow {V : Type} (m : UMap V) (a : U32) : UMap V := m.filter (fun e => decide (a.toNat ≤ e.1.toNat))

/-- Writes a list of entries in its order. -/
def mapInsertAll {V : Type} (m : UMap V) (entries : List (U32 × V)) : UMap V :=
  entries.foldl (fun acc e => mapInsert acc e.1 e.2) m

/-- The number of keys of `m`. -/
def mapCount {V : Type} (m : UMap V) : Nat := m.length

/-- A Nat as a u32, where it is one: no value is truncated (41 R142). -/
def narrow (n : Nat) : Except Fault U32 :=
  if n < 2 ^ 32 then .ok (BitVec.ofNat 32 n) else .error .seqRange

/-- `ceil(L / M)` of 43 R186. -/
def chunkCount (len m : Nat) : Nat := (len + m - 1) / m

/-- `chunk(stream, s)` of 43 R187, with `m` = P_MAX_PAYLOAD. -/
def chunk (m : Nat) (stream : Bytes) (q : Nat) : Bytes := slice stream ((q - 1) * m) (min (q * m) stream.length)

end Sys2Proof.Machine
end

