-- ==== Sys2Proof/Machine/Flags.lean ====
section
/-! DEFINITION. The codes of states, causes and statuses, the packing of the two status words (10 R45), and the
"receptive" conditions of the engines. The core has no condition codes (10 R44). -/

namespace Sys2Proof.Machine

/-- 42 R160. -/
def connCode : ConnState → Nat
  | .idle => 0
  | .handshaking => 1
  | .established => 2
  | .closing => 3
  | .closed => 4

/-- 60 R300. -/
def causeCode : Cause → Nat
  | .formatError => 1
  | .checksumMismatch => 2
  | .timeout => 3
  | .handshakeFailed => 4
  | .outOverflow => 5
  | .seqOverflow => 6

/-- 60 R305. -/
def statusCode : Status → Nat
  | .ok => 0
  | .illegal => 1
  | .state => 2
  | .arg => 3
  | .format => 4

/-- The fault field of RCV_STATUS: 0 if there is none. -/
def faultCode : Option Cause → Nat
  | none => 0
  | some c => causeCode c

/-- A flag at bit `i`. -/
def flagAt (b : Bool) (i : Nat) : Nat := if b then 2 ^ i else 0

/-- SND_STATUS of 10 R45. -/
def sndStatus (x : Sender) : U32 :=
  BitVec.ofNat 32 (connCode x.state + flagAt x.active 3 + flagAt x.loaded 4 + flagAt x.closeAcked 5
    + flagAt x.peer.isSome 6)

/-- RCV_STATUS of 10 R45. -/
def rcvStatus (x : Receiver) : U32 :=
  BitVec.ofNat 32 (connCode x.state + flagAt x.listening 3 + flagAt x.peer.isSome 4 + flagAt x.delivered 5
    + flagAt x.localAddr.isSome 6 + flagAt x.fault.isSome 7 + faultCode x.fault * 2 ^ 8)

/-- `snd_receptive` of 43 R180. -/
def sndReceptive (x : Sender) : Bool :=
  decide (x.state = .handshaking) || (decide (x.state = .established) && x.active) || decide (x.state = .closing)

/-- `rcv_receptive` of 44 R240. -/
def rcvReceptive (x : Receiver) : Bool :=
  x.listening && decide (x.fault = none) && (decide (x.state = .idle) || decide (x.state = .established))

/-- Whether an engine takes a datagram now. -/
def receptive (e : Engine) (s : State) : Bool :=
  match e with
  | .snd => sndReceptive s.snd
  | .rcv => rcvReceptive s.rcv

end Sys2Proof.Machine
end

