-- ==== Sys2Proof/Machine/Codec.lean ====
section
/-! DEFINITION. The packet codec's functions (40_codec.md R110 to R117) and the canonical packets (30 R86). -/

namespace Sys2Proof.Machine

/-- One shift of the loop of 40 R113. -/
def crcShift (c : U32) : U32 :=
  if c.getLsbD 0 then (c >>> 1) ^^^ 0xEDB88320#32 else c >>> 1

/-- "repeat 8 times" of 40 R113. -/
def crcShift8 (c : U32) : U32 :=
  crcShift (crcShift (crcShift (crcShift (crcShift (crcShift (crcShift (crcShift c)))))))

/-- The loop over the bytes of 40 R113, from register value `c`. -/
def crcLoop (c : U32) (data : Bytes) : U32 := data.foldl (fun acc b => crcShift8 (acc ^^^ b.setWidth 32)) c

/-- `crc32` of 40 R113: CRC-32/ISO-HDLC. -/
def crc32 (data : Bytes) : U32 := crcLoop 0xFFFFFFFF#32 data ^^^ 0xFFFFFFFF#32

/-- `P_CRC` of an instance. -/
def pCrc : Crc → Bytes → U32
  | .isoHdlc, data => crc32 data
  | .replaced k, data => Config.replacedCrc k data

/-- `compute_checksum` of 40 R112: the stored checksum is replaced by 0. -/
def computeChecksum (crc : Crc) (h : Header) (payload : Bytes) : U32 :=
  pCrc crc (serializeHeader ⟨h.type, h.seq, h.length, 0⟩ ++ payload)

/-- `encode` of 40 R114. -/
def encodePacket (h : Header) (payload : Bytes) : Bytes := serializeHeader h ++ payload

/-- `verify` of 40 R116. -/
def verify (crc : Crc) (p : Packet) : Bool := decide (computeChecksum crc p.h p.payload = p.h.checksum)

/-- The header `make_packet` builds (40 R117). -/
def packetHeader (crc : Crc) (type seq : U32) (payload : Bytes) : Header :=
  ⟨type, seq, BitVec.ofNat 32 payload.length,
    computeChecksum crc ⟨type, seq, BitVec.ofNat 32 payload.length, 0⟩ payload⟩

/-- `make_packet` of 40 R117. -/
def makePacket (crc : Crc) (type seq : U32) (payload : Bytes) : Bytes :=
  encodePacket (packetHeader crc type seq payload) payload

/-- `START(s)` of 30 R86. -/
def startPacket (crc : Crc) (seq : U32) : Bytes := makePacket crc typeStart seq []

/-- `END(s)` of 30 R86. -/
def endPacket (crc : Crc) (seq : U32) : Bytes := makePacket crc typeEnd seq []

/-- `DATA(s, p)` of 30 R86. -/
def dataPacket (crc : Crc) (seq : U32) (payload : Bytes) : Bytes := makePacket crc typeData seq payload

/-- `ACK(s)` of 30 R86. -/
def ackPacket (crc : Crc) (seq : U32) : Bytes := makePacket crc typeAck seq []

end Sys2Proof.Machine
end

