-- ==== Sys2Proof/Machine/Window.lean ====
section
/-! DEFINITION. The sequence/window unit's functions (41_seqwindow.md). -/

namespace Sys2Proof.Machine

/-- `in_window` of 41 R140; the sum is one of Nat (R142). -/
def inWindow (seq base size : U32) : Bool :=
  decide (base.toNat ≤ seq.toNat) && decide (seq.toNat < base.toNat + size.toNat)

/-- The loop of `advance` (41 R141), at most `fuel` times round. `none` is SeqOverflow. -/
def advanceLoop : Nat → U32 → UMap Bytes → Bytes → Option (U32 × UMap Bytes × Bytes)
  | 0, base, buffer, out => some (base, buffer, out)
  | fuel + 1, base, buffer, out =>
    match mapGet buffer base with
    | none => some (base, buffer, out)
    | some p =>
      if base.toNat + 1 > 2 ^ 32 - 2 then none
      else advanceLoop fuel (base + 1) (mapErase buffer base) (out ++ p)

/-- `advance` of 41 R141. Each round erases an entry, so the loop goes round at most as often as there are entries. -/
def advance (base : U32) (buffer : UMap Bytes) (out : Bytes) : Option (U32 × UMap Bytes × Bytes) :=
  advanceLoop buffer.length base buffer out

end Sys2Proof.Machine
end

