-- ==== Sys2Proof/Machine/Ops.lean ====
section
/-! DEFINITION. The operations that every family shares: output events, transmission, the channel, the receiver's fault
procedure (the core's one "exception", 60 R306) and the resets that leave it (70 R343). -/

namespace Sys2Proof.Machine

/-- A shared operation's answer as a meaning's. -/
def answer : Eff → Res
  | .ok s => .next s
  | .error r => .fault r

/-- `emit`, and every other output event (00 R9, 30 R90). -/
def emit (o : Output) (s : State) : State := { s with outputs := s.outputs ++ [o] }

/-- `respond(status, results)` (00 R9, 60 R305). -/
def respond (status : Status) (results : List Value) (s : State) : State := emit (.resp status results) s

/-- The address of an engine, as its datagrams carry it (log entry 16). -/
def engineAddr (e : Engine) (s : State) : Addr :=
  match e with
  | .snd => s.cfg.sndAddr
  | .rcv => s.rcv.localAddr.getD s.cfg.rcvAddr

/-- Puts a datagram into the channel (20 R66). -/
def putDatagram (d : Datagram) (s : State) : State := { s with channel := s.channel ++ [d] }

/-- `tx(a, b)` of an engine (00 R9): TX_SND or TX_RCV, and the datagram is in the channel. -/
def transmit (e : Engine) (a : Addr) (b : Bytes) (s : State) : State :=
  putDatagram ⟨a, engineAddr e s, b⟩ (emit (match e with | .snd => .txSnd b a | .rcv => .txRcv b a) s)

/-- `tx(snd.peer, b)` (43 R182). -/
def sndTx (b : Bytes) (s : State) : Eff :=
  match s.snd.peer with
  | none => .error .noPeer
  | some a => .ok (transmit .snd a b s)

/-- An offered datagram that is not taken stays in the channel (30 R90, 43 R202, 44 R243). -/
def leaveInChannel (e : Engine) (src : Addr) (b : Bytes) (s : State) : State :=
  putDatagram ⟨engineAddr e s, src, b⟩ s

/-- `fault(c)` of 60 R306: every `rcv.*` register is as at the start of the step (`before`), but for `rcv.fault`. -/
def rcvRaise (c : Cause) (before : Receiver) (s : State) : State :=
  emit (.fault c) { s with rcv := { before with fault := some c } }

/-- RESET(target) of 70 R343. -/
def resetTarget (t : Target) (s : State) : State :=
  match t with
  | .snd => { s with snd := Sender.reset }
  | .rcv => { s with rcv := Receiver.reset }
  | .all => { s with snd := Sender.reset, rcv := Receiver.reset, now := 0 }

end Sys2Proof.Machine
end

