-- ==== Sys2Proof/Machine/Receiver.lean ====
section
/-! DEFINITION. The receiver engine (44_receiver.md): its commands and the rules for a taken datagram. -/

namespace Sys2Proof.Machine

/-! ## Commands -/

/-- RCV_BIND (44 R241). -/
def execRcvBind (localAddr : Addr) (s : State) : Res :=
  if s.rcv.state ≠ .idle ∨ s.rcv.listening = true ∨ s.rcv.fault ≠ none then .next (respond .state [] s)
  else
    let s1 := respond .ok [] s
    .next { s1 with rcv := { s1.rcv with localAddr := some localAddr } }

/-- RCV_ACCEPT (44 R242). -/
def execRcvAccept (win : U32) (s : State) : Res :=
  if s.rcv.state ≠ .idle ∨ s.rcv.listening = true ∨ s.rcv.localAddr = none ∨ s.rcv.fault ≠ none then
    .next (respond .state [] s)
  else if win = 0 then .next (respond .arg [] s)
  else
    let s1 := respond .ok [] s
    .next { s1 with rcv := { s1.rcv with win := win, listening := true } }

/-! ## Rules for a taken datagram -/

/-- `tx(src, ACK(q))`. -/
def rcvAck (src : Addr) (q : U32) (s : State) : State := transmit .rcv src (ackPacket s.cfg.crc q) s

/-- A packet that fails `verify` (44 R244). -/
def rcvMismatch (src : Addr) (s : State) : State :=
  if s.rcv.state = .established ∧ s.rcv.peer = some src then rcvAck src s.rcv.nes s else s

/-- A checksum-valid START (44 R245 to R248). -/
def rcvStart (src : Addr) (q : U32) (s : State) : State :=
  match s.rcv.state with
  | .idle =>
    if q = 0 then rcvAck src 1 { s with rcv := { s.rcv with peer := some src, nes := 1, state := .established } }
    else s
  | .established => if s.rcv.peer = some src then rcvAck src 1 s else s
  | .handshaking => s
  | .closing => s
  | .closed => s

/-- Whether an output of `n` bytes passes P_RCV_OUT_CAPACITY (20 R65). -/
def overCapacity (cfg : Config) (n : Nat) : Bool :=
  match cfg.outCapacity with
  | none => false
  | some c => decide (n > c)

/-- The reorder buffer after "first arrival only" (44 R251). -/
def buffered (m : UMap Bytes) (q : U32) (payload : Bytes) : UMap Bytes :=
  if mapHas m q then m else mapInsert m q payload

/-- DATA inside the window from the bound peer (44 R251). -/
def rcvAdmit (src : Addr) (q : U32) (payload : Bytes) (s : State) : State :=
  let s1 := { s with rcv := { s.rcv with buf := buffered s.rcv.buf q payload } }
  match advance s1.rcv.nes s1.rcv.buf s1.rcv.out with
  | none => rcvRaise .seqOverflow s.rcv s1
  | some (nes', buf', out') =>
    if overCapacity s1.cfg out'.length then rcvRaise .outOverflow s.rcv s1
    else rcvAck src nes' { s1 with rcv := { s1.rcv with nes := nes', buf := buf', out := out' } }

/-- A checksum-valid DATA packet (44 R246, R249 to R252). -/
def rcvData (src : Addr) (q : U32) (payload : Bytes) (s : State) : State :=
  if s.rcv.state = .established ∧ s.rcv.peer = some src then
    if q.toNat < s.rcv.nes.toNat then rcvAck src s.rcv.nes s
    else if inWindow q s.rcv.nes s.rcv.win then rcvAdmit src q payload s
    else s
  else s

/-- END with the expected sequence number from the bound peer (44 R253). -/
def rcvFinish (src : Addr) (s : State) : Eff :=
  match narrow (s.rcv.nes.toNat + 1) with
  | .error r => .error r
  | .ok q =>
    let s1 := emit (.deliver s.rcv.out src) (rcvAck src q s)
    .ok { s1 with rcv := { s1.rcv with delivered := true, state := .closed, listening := false, buf := [] } }

/-- A checksum-valid END (44 R246, R249, R253, R254). -/
def rcvEnd (src : Addr) (q : U32) (s : State) : Eff :=
  if s.rcv.state = .established ∧ s.rcv.peer = some src ∧ q = s.rcv.nes then rcvFinish src s else .ok s

end Sys2Proof.Machine
end

