-- ==== Sys2Proof/Machine/Sender.lean ====
section
/-! DEFINITION. The sender engine (43_sender.md): its commands, what a taken datagram does, and its timers' expiry
(60 R310 to R312). -/

namespace Sys2Proof.Machine

/-- `snd.wait_left <- P_RX_TIMEOUT`: a new receive wait begins (60 R311). -/
def beginWait (s : State) : State := { s with snd := { s.snd with waitLeft := s.cfg.rxTimeout } }

/-! ## The send loop (43 R188, R192, R193) -/

/-- One round of FillWindow's loop (43 R188). -/
def sendFresh (q : Nat) (s : State) : Eff :=
  match narrow q with
  | .error r => .error r
  | .ok k =>
    match mapGet s.snd.pkt k with
    | none => .error .noImage
    | some image =>
      match sndTx image s with
      | .error r => .error r
      | .ok s' =>
        .ok { s' with snd :=
          { s'.snd with outstanding := mapInsert s'.snd.outstanding k ⟨k, image, s'.now, false⟩ } }

/-- One round of go-back-N's loop (43 R192). -/
def resendOne (q : Nat) (s : State) : Eff :=
  match narrow q with
  | .error r => .error r
  | .ok k =>
    match mapGet s.snd.pkt k, mapGet s.snd.outstanding k with
    | none, _ => .error .noImage
    | some _, none => .error .noRecord
    | some image, some record =>
      match sndTx image s with
      | .error r => .error r
      | .ok s' =>
        .ok { s' with snd :=
          { s'.snd with outstanding := mapInsert s'.snd.outstanding k { record with lastSentAt := s'.now } } }

/-- Runs `round` for `q`, `q + 1`, ... , `count` numbers in increasing order. -/
def forRange (round : Nat → State → Eff) : Nat → Nat → State → Eff
  | 0, _, s => .ok s
  | count + 1, q, s =>
    match round q s with
    | .error r => .error r
    | .ok s' => forRange round count (q + 1) s'

/-- The upper edge of FillWindow (43 R188): `min(base + win, N + 1)` in Nat. -/
def fillEdge (x : Sender) : Nat := min (x.base.toNat + x.win.toNat) (x.n.toNat + 1)

/-- The upper edge of go-back-N (43 R192): `min(base + win, next)` in Nat. -/
def resendEdge (x : Sender) : Nat := min (x.base.toNat + x.win.toNat) x.next.toNat

/-- `FillWindow()` of 43 R188. -/
def fillWindow (s : State) : Eff :=
  match forRange sendFresh (fillEdge s.snd - s.snd.next.toNat) s.snd.next.toNat s with
  | .error r => .error r
  | .ok s' =>
    match narrow (max s.snd.next.toNat (fillEdge s.snd)) with
    | .error r => .error r
    | .ok next' => .ok { s' with snd := { s'.snd with next := next' } }

/-- `LoopHead()` of 43 R193. -/
def loopHead (s : State) : Eff :=
  if s.snd.base.toNat > s.snd.n.toNat then
    .ok (emit .sendDone { s with snd := { s.snd with active := false } })
  else
    match fillWindow s with
    | .error r => .error r
    | .ok s' => .ok (beginWait s')

/-! ## Commands -/

/-- SND_CONNECT (43 R181). -/
def execSndConnect (peer : Addr) (win : U32) (s : State) : Res :=
  if s.snd.state ≠ .idle then .next (respond .state [] s)
  else if win = 0 then .next (respond .arg [] s)
  else
    let s1 := respond .ok [] s
    let s2 := { s1 with snd := { s1.snd with peer := some peer, win := win } }
    let s3 := transmit .snd peer (startPacket s.cfg.crc 0) s2
    .next (beginWait { s3 with snd := { s3.snd with state := .handshaking } })

/-- The pre-encoded images DATA(1, chunk 1) ... DATA(N, chunk N) (43 R186, R187). -/
def dataImages (cfg : Config) (stream : Bytes) (n : Nat) : List (U32 × Bytes) :=
  (List.range n).map (fun i =>
    (BitVec.ofNat 32 (i + 1), dataPacket cfg.crc (BitVec.ofNat 32 (i + 1)) (chunk cfg.maxPayload stream (i + 1))))

/-- SND_SEND (43 R186). -/
def execSndSend (stream : Bytes) (s : State) : Res :=
  let n := chunkCount stream.length s.cfg.maxPayload
  if s.snd.state ≠ .established ∨ s.snd.loaded = true then .next (respond .state [] s)
  else if n > 2 ^ 32 - 3 then .next (respond .arg [] s)
  else
    let s1 := respond .ok [] s
    answer (loopHead { s1 with snd := { s1.snd with
      pkt := mapInsertAll s1.snd.pkt (dataImages s.cfg stream n)
      n := BitVec.ofNat 32 n
      loaded := true
      active := true } })

/-- `tx(snd.peer, END(snd.N + 1))` (43 R194, R197). -/
def sendEnd (s : State) : Eff :=
  match narrow (s.snd.n.toNat + 1) with
  | .error r => .error r
  | .ok q => sndTx (endPacket s.cfg.crc q) s

/-- SND_CLOSE (43 R194). -/
def execSndClose (s : State) : Res :=
  if s.snd.state ≠ .established ∨ s.snd.active = true then .next (respond .state [] s)
  else
    let s1 := respond .ok [] s
    let s2 := if s1.snd.loaded then s1 else { s1 with snd := { s1.snd with loaded := true, n := 0 } }
    match sendEnd s2 with
    | .error r => .fault r
    | .ok s3 =>
      .next (beginWait { s3 with snd := { s3.snd with state := .closing, dlLeft := s.cfg.closeDeadline } })

/-! ## Datagrams -/

/-- `valid_ack` of 43 R201, for a datagram that decodes. -/
def validAck (cfg : Config) (x : Sender) (src : Addr) (p : Packet) : Option U32 :=
  if verify cfg.crc p = false then none
  else if cfg.addrFilter = true ∧ some src ≠ x.peer then none
  else if p.h.type ≠ typeAck then none
  else some p.h.seq

/-- Handshake complete (43 R183). -/
def sndConnected (s : State) : State :=
  emit .connected { s with snd := { s.snd with state := .established, base := 1, next := 1 } }

/-- The larger of two u32. -/
def umax (a b : U32) : U32 := if a.toNat < b.toNat then b else a

/-- A cumulative ACK advances the window (43 R189). -/
def sndAdvance (a : U32) (s : State) : Eff :=
  loopHead { s with snd := { s.snd with
    base := a
    outstanding := mapEraseBelow s.snd.outstanding a
    next := umax s.snd.next a } }

/-- Teardown acknowledged (43 R195). -/
def sndCloseAcked (s : State) : State :=
  emit (.closed true) { s with snd := { s.snd with state := .closed, closeAcked := true } }

/-- A taken datagram whose `valid_ack` is `a` (43 R202). -/
def sndTake (a : Option U32) (s : State) : Eff :=
  match s.snd.state with
  | .handshaking => .ok (if a = some 1 then sndConnected s else beginWait s)
  | .established =>
    match a with
    | some x => if x.toNat > s.snd.base.toNat then sndAdvance x s else loopHead s
    | none => loopHead s
  | .closing => .ok (if a.map BitVec.toNat = some (s.snd.n.toNat + 2) then sndCloseAcked s else beginWait s)
  | .idle => .ok s
  | .closed => .ok s

/-! ## Timers -/

/-- WaitExpiry (60 R311): 43 R185, R192 or R197, for the state the sender is in. -/
def waitExpiry (s : State) : Eff :=
  match s.snd.state with
  | .handshaking =>
    match sndTx (startPacket s.cfg.crc 0) s with
    | .error r => .error r
    | .ok s' => .ok (beginWait s')
  | .established =>
    match forRange resendOne (resendEdge s.snd - s.snd.base.toNat) s.snd.base.toNat s with
    | .error r => .error r
    | .ok s' => loopHead s'
  | .closing =>
    match sendEnd s with
    | .error r => .error r
    | .ok s' => .ok (beginWait s')
  | .idle => .ok s
  | .closed => .ok s

/-- DeadlineExpiry (43 R198). -/
def deadlineExpiry (s : State) : State :=
  emit (.closed false) { s with snd := { s.snd with state := .closed, closeAcked := false } }

/-- The receive wait's part of a TICK (60 R310, R311). -/
def tickWait (s : State) : Eff :=
  if s.snd.waitLeft = 0 then .error .timerUnderflow
  else
    let s1 := { s with snd := { s.snd with waitLeft := s.snd.waitLeft - 1 } }
    if s1.snd.waitLeft = 0 then waitExpiry s1 else .ok s1

/-- TICK (60 R310): the close deadline before the receive wait. -/
def tick (s : State) : Eff :=
  let s1 := { s with now := s.now + 1 }
  if sndReceptive s1.snd then
    if s1.snd.state = .closing then
      if s1.snd.dlLeft = 0 then .error .timerUnderflow
      else
        let s2 := { s1 with snd := { s1.snd with dlLeft := s1.snd.dlLeft - 1 } }
        if s2.snd.dlLeft = 0 then .ok (deadlineExpiry s2) else tickWait s2
    else tickWait s1
  else .ok s1

end Sys2Proof.Machine
end

