-- ==== Sys2Proof/Machine/Packets.lean ====
section
/-! DEFINITION. The packets offered to an engine (30 R90, 43 R202, 44 R243): the four types of the table, and what is no
instruction (a malformed datagram, a reserved type). -/

namespace Sys2Proof.Machine

/-- A datagram that decodes to `p` is offered to engine `e`. Not receptive: it stays in the channel. The sender
classifies it (43 R201, R202). The receiver runs R244 where `verify` fails and the rule of the packet's type otherwise
(44 R243). -/
def offerPacket (e : Engine) (src : Addr) (bytes : Bytes) (p : Packet) (rule : State → Eff) (s : State) : Res :=
  if receptive e s then
    match e with
    | .snd => answer (sndTake (validAck s.cfg s.snd src p) s)
    | .rcv => answer (if verify s.cfg.crc p then rule s else .ok (rcvMismatch src s))
  else .next (leaveInChannel e src bytes s)

/-- The packet that a datagram of a given type holds. -/
def bodyPacket (type : U32) (p : PacketBody) : Packet := ⟨⟨type, p.seq, p.length, p.checksum⟩, p.payload⟩

/-- A START packet (receiver: 44 R245 to R248; the sender drops it: 43 R184, R190, R196). -/
def execStart (e : Engine) (src : Addr) (p : PacketBody) (s : State) : Res :=
  offerPacket e src (packetBytes typeStart p) (bodyPacket typeStart p) (fun t => .ok (rcvStart src p.seq t)) s

/-- An END packet (receiver: 44 R246, R249, R253, R254; the sender drops it). -/
def execEnd (e : Engine) (src : Addr) (p : PacketBody) (s : State) : Res :=
  offerPacket e src (packetBytes typeEnd p) (bodyPacket typeEnd p) (fun t => rcvEnd src p.seq t) s

/-- A DATA packet (receiver: 44 R246, R249 to R252; the sender drops it). -/
def execData (e : Engine) (src : Addr) (p : PacketBody) (s : State) : Res :=
  offerPacket e src (packetBytes typeData p) (bodyPacket typeData p)
    (fun t => .ok (rcvData src p.seq p.payload t)) s

/-- An ACK packet (sender: 43 R183, R189, R195; the receiver drops it: 44 R246, R249, R255). -/
def execAck (e : Engine) (src : Addr) (p : PacketBody) (s : State) : Res :=
  offerPacket e src (packetBytes typeAck p) (bodyPacket typeAck p) (fun t => .ok t) s

/-- A datagram on which `decode` raises FormatError (60 R301): the receiver does nothing, the sender's wait restarts. -/
def offerMalformed (e : Engine) (src : Addr) (bytes : Bytes) (s : State) : Res :=
  if receptive e s then
    match e with
    | .snd => answer (sndTake none s)
    | .rcv => .next s
  else .next (leaveInChannel e src bytes s)

/-- A datagram that is no instruction: malformed, or of a reserved type. The latter is handled like any packet where
`verify` fails, and is otherwise ignored (30 R85). -/
def offerOther (e : Engine) (src : Addr) (bytes : Bytes) (s : State) : Res :=
  match decodePacket bytes with
  | .packet p => offerPacket e src bytes p (fun t => .ok t) s
  | .shortHeader => offerMalformed e src bytes s
  | .shortPayload => offerMalformed e src bytes s

end Sys2Proof.Machine
end

