-- ==== Sys2Proof/Machine/Pure.lean ====
section
/-! DEFINITION. The pure commands of the codec (40 R119 to R122) and of the window unit (41 R143, R144). They touch no
engine register. -/

namespace Sys2Proof.Machine

/-- CODEC_ENCODE (40 R119). -/
def execCodecEncode (type seq length checksum : U32) (payload : Bytes) (s : State) : Res :=
  .next (respond .ok [.bytes (encodePacket ⟨type, seq, length, checksum⟩ payload)] s)

/-- CODEC_CHECKSUM (40 R120). -/
def execCodecChecksum (type seq length checksum : U32) (payload : Bytes) (s : State) : Res :=
  .next (respond .ok [.u32 (computeChecksum s.cfg.crc ⟨type, seq, length, checksum⟩ payload)] s)

/-- CODEC_DECODE (40 R121). -/
def execCodecDecode (bytes : Bytes) (s : State) : Res :=
  match decodePacket bytes with
  | .packet p =>
    .next (respond .ok
      [.u32 p.h.type, .u32 p.h.seq, .u32 p.h.length, .u32 p.h.checksum, .bytes p.payload] s)
  | .shortHeader => .next (respond .format [] s)
  | .shortPayload => .next (respond .format [] s)

/-- CODEC_VERIFY (40 R122). -/
def execCodecVerify (bytes : Bytes) (s : State) : Res :=
  match decodePacket bytes with
  | .packet p => .next (respond .ok [.bool (verify s.cfg.crc p)] s)
  | .shortHeader => .next (respond .format [] s)
  | .shortPayload => .next (respond .format [] s)

/-- SW_IN_WINDOW (41 R143). -/
def execSwInWindow (seq base size : U32) (s : State) : Res :=
  .next (respond .ok [.bool (inWindow seq base size)] s)

/-- SW_ADVANCE (41 R144). -/
def execSwAdvance (base : U32) (buffer : UMap Bytes) (s : State) : Res :=
  match advance base buffer [] with
  | some (base', buffer', drained) => .next (respond .ok [.u32 base', .bytes drained, .map buffer'] s)
  | none => .next (respond .arg [] s)

end Sys2Proof.Machine
end

