-- ==== Sys2Proof/Machine/Registers.lean ====
section
/-! DEFINITION. The host-visible status registers and REG_READ (10 R45). -/

namespace Sys2Proof.Machine

/-- The register map of 10 R45; `none` is a reserved index. -/
def regValue (s : State) (index : Byte) : Option U32 :=
  if index = 0x00 then some (sndStatus s.snd)
  else if index = 0x01 then some s.snd.base
  else if index = 0x02 then some s.snd.next
  else if index = 0x03 then some s.snd.n
  else if index = 0x04 then some s.snd.win
  else if index = 0x05 then some (BitVec.ofNat 32 (mapCount s.snd.outstanding))
  else if index = 0x08 then some (rcvStatus s.rcv)
  else if index = 0x09 then some s.rcv.nes
  else if index = 0x0A then some s.rcv.win
  else if index = 0x0B then some (BitVec.ofNat 32 (mapCount s.rcv.buf))
  else if index = 0x0C then some (BitVec.ofNat 32 s.rcv.out.length)
  else none

/-- REG_READ (10 R45). A reserved index responds `E_ARG`; its value is free (log entry 20). -/
def execRegRead (index : Byte) (s : State) : Res :=
  match regValue s index with
  | some v => .next (respond .ok [.u32 v] s)
  | none => .next (respond .arg (Config.freeResults s.freeCount) { s with freeCount := s.freeCount + 1 })

end Sys2Proof.Machine
end

