-- ==== Sys2Proof/Machine/Events.lean ====
section
/-! DEFINITION. Which input event a step takes, and the events that are no instruction. -/

namespace Sys2Proof.Machine

/-- The events that bring a datagram. -/
def isDatagram : Input → Bool
  | .rx _ _ _ => true
  | .channel (.deliver _ _) => true
  | .channel (.drop _) => false
  | .channel (.duplicate _) => false
  | .channel (.alter _ _) => false
  | .cmd _ _ => false
  | .tick => false
  | .reset _ => false

/-- The first datagram among the arrivals of moment `t` at the front of the list, and the list without it. -/
def firstDatagram (t : Nat) : List Arrival → Option (Input × List Arrival)
  | [] => none
  | a :: rest =>
    if a.moment ≠ t then none
    else if isDatagram a.ev then some (a.ev, rest)
    else match firstDatagram t rest with
      | none => none
      | some (ev, rest') => some (ev, a :: rest')

/-- The event that is taken next and the list without it: the first, but a datagram before a TICK of the same moment
(60 R313 item 1). -/
def pickInput : List Arrival → Option (Input × List Arrival)
  | [] => none
  | a :: rest =>
    if a.ev = .tick then
      match firstDatagram a.moment rest with
      | none => some (a.ev, rest)
      | some (ev, rest') => some (ev, a :: rest')
    else some (a.ev, rest)

/-- A datagram that the channel delivers becomes the event RX_SND or RX_RCV and leaves the channel (it is put back
where it is not taken). A delivery of no datagram brings nothing. -/
def resolveDelivery (ev : Input) (s : State) : Input × State :=
  match ev with
  | .channel (.deliver i e) =>
    match s.channel[i]? with
    | none => (ev, s)
    | some d => (.rx e d.bytes d.src, { s with channel := s.channel.eraseIdx i })
  | _ => (ev, s)

/-- Takes the next input event from the state. -/
def fetch (s : State) : Option (Input × State) :=
  match pickInput s.inputs with
  | none => none
  | some (ev, rest) => some (resolveDelivery ev { s with inputs := rest })

/-- What the channel does to the datagrams in transit (20 R66). -/
def channelAct (a : ChannelAct) (s : State) : State :=
  match a with
  | .drop i => { s with channel := s.channel.eraseIdx i }
  | .duplicate i =>
    match s.channel[i]? with
    | none => s
    | some d => putDatagram d s
  | .alter i bytes => { s with channel := s.channel.modify i (fun d => { d with bytes := bytes }) }
  | .deliver _ _ => s

/-- An input event that is no instruction: a command that decodes to nothing responds `E_ILLEGAL` (30 R87, R89); a
datagram; TICK; RESET; the channel. -/
def otherEvent (ev : Input) (s : State) : Res :=
  match ev with
  | .cmd _ _ => .next (respond .illegal [] s)
  | .rx e bytes src => offerOther e src bytes s
  | .tick => answer (tick s)
  | .reset t => .next (resetTarget t s)
  | .channel a => .next (channelAct a s)

end Sys2Proof.Machine
end

