-- ==== Sys2Proof/Machine/Dispatch.lean ====
section
/-! DEFINITION. One arm for each instruction. -/

namespace Sys2Proof.Machine

def exec (i : Instr) (s : State) : Host.Outcome State Fault Refusal :=
  match i with
  | .codecEncode t q l c p => Sys2Proof.Machine.execCodecEncode t q l c p s
  | .codecChecksum t q l c p => Sys2Proof.Machine.execCodecChecksum t q l c p s
  | .codecDecode b => Sys2Proof.Machine.execCodecDecode b s
  | .codecVerify b => Sys2Proof.Machine.execCodecVerify b s
  | .swInWindow q b n => Sys2Proof.Machine.execSwInWindow q b n s
  | .swAdvance b m => Sys2Proof.Machine.execSwAdvance b m s
  | .sndConnect a w => Sys2Proof.Machine.execSndConnect a w s
  | .sndSend b => Sys2Proof.Machine.execSndSend b s
  | .sndClose => Sys2Proof.Machine.execSndClose s
  | .rcvBind a => Sys2Proof.Machine.execRcvBind a s
  | .rcvAccept w => Sys2Proof.Machine.execRcvAccept w s
  | .regRead k => Sys2Proof.Machine.execRegRead k s
  | .start e a p => Sys2Proof.Machine.execStart e a p s
  | .endPkt e a p => Sys2Proof.Machine.execEnd e a p s
  | .data e a p => Sys2Proof.Machine.execData e a p s
  | .ack e a p => Sys2Proof.Machine.execAck e a p s

end Sys2Proof.Machine
end

