-- ==== Sys2Proof/Machine/Step.lean ====
section
/-! DEFINITION. One step: one input event and everything it causes (20 R63, R67). -/

namespace Sys2Proof.Machine

/-- One step. With no input event pending nothing happens (60 R317; log entry 8). -/
def step (s : State) : Host.Outcome State Fault Refusal :=
  match fetch s with
  | none => .next s
  | some (ev, s') =>
    match decode ev with
    | .instr i => exec i s'
    | .rejected _ => otherEvent ev s'

/-- `s` with an opcode-table word as its next input event, operands of zeros. Log entries 1 and 6. -/
def State.withFetchWord (s : State) (_nbits w : Nat) : State :=
  { s with inputs := ⟨0, tableInput (BitVec.ofNat 32 w)⟩ :: s.inputs }

end Sys2Proof.Machine
end

