-- ==== Sys2Proof/Safety.lean ====
section
/-! DEFINITION. The invariant of the core: what the rules keep true of every register after every step, in the terms
that the statements use. -/

namespace Sys2Proof.Machine

/-- The keys of a map, as numbers. -/
def keyNats {V : Type} (m : UMap V) : List Nat := m.map (fun e => e.1.toNat)

/-- The payloads that `m` holds for the `n` sequence numbers from `b` on, one after the other (41 R141, 10 R48). -/
def runPayload (m : UMap Bytes) (b n : Nat) : Bytes :=
  (List.range' b n).flatMap (fun k => (mapGet m (BitVec.ofNat 32 k)).getD [])

/-- The pre-encoded images of the `count` sequence numbers from `q` on (10 R28). -/
def imagesFrom (x : Sender) (q count : Nat) : List Bytes :=
  (List.range' q count).map (fun k => (mapGet x.pkt (BitVec.ofNat 32 k)).getD [])

/-- The records that FillWindow creates for the `count` sequence numbers from `q` on (43 R188, R200). -/
def freshRecords (x : Sender) (now q count : Nat) : List (U32 × Outstanding) :=
  (List.range' q count).map (fun k =>
    (BitVec.ofNat 32 k, ⟨BitVec.ofNat 32 k, (mapGet x.pkt (BitVec.ofNat 32 k)).getD [], now, false⟩))

/-- `s` after the sender came to the registers `x` and transmitted `images` to `a`, in their order. -/
def sendAll (a : Addr) (images : List Bytes) (x : Sender) (s : State) : State :=
  { s with
    snd := x
    outputs := s.outputs ++ images.map (fun b => .txSnd b a)
    channel := s.channel ++ images.map (fun b => ⟨a, s.cfg.sndAddr, b⟩) }

/-- The records with their `last_sent_at` at `now` (43 R192, R200). -/
def refreshed (m : UMap Outstanding) (now : Nat) : UMap Outstanding :=
  m.map (fun e => (e.1, { e.2 with lastSentAt := now }))

/-- Nothing of a stream is in the sender yet (10 R25 to R31). -/
abbrev NoStream (x : Sender) : Prop :=
  x.loaded = false ∧ x.active = false ∧ x.n = 0 ∧ x.pkt = [] ∧ x.outstanding = []

/-- A record of the outstanding set is what 10 R31 and 43 R200 say. -/
abbrev RecordOk (x : Sender) (now : Nat) (e : U32 × Outstanding) : Prop :=
  e.2.seqNum = e.1 ∧ mapGet x.pkt e.1 = some e.2.encodedBytes ∧ e.2.lastSentAt ≤ now ∧ e.2.acknowledged = false

/-- 10 R46: the keys of the outstanding set are the numbers from `base` to below `next`; the bounds of `next`. -/
abbrev WindowOk (x : Sender) : Prop :=
  keyNats x.outstanding = List.range' x.base.toNat (x.next.toNat - x.base.toNat) ∧
  x.base.toNat ≤ x.next.toNat ∧ x.next.toNat ≤ x.base.toNat + x.win.toNat ∧
  x.next.toNat ≤ max x.base.toNat (x.n.toNat + 1)

/-- A stream of `N` chunks is loaded: 00 R6, the keys and the DATA images of 10 R28, and the window. -/
abbrev StreamLoaded (crc : Crc) (x : Sender) (now : Nat) : Prop :=
  x.loaded = true ∧ x.n.toNat ≤ 2 ^ 32 - 3 ∧ keyNats x.pkt = List.range' 1 x.n.toNat ∧
  (∀ e ∈ x.pkt, e.2 = dataPacket crc e.1 (e.2.drop 16)) ∧
  1 ≤ x.base.toNat ∧ WindowOk x ∧ ∀ e ∈ x.outstanding, RecordOk x now e

/-- The connection is configured (10 R23, R24). -/
abbrev Connected (x : Sender) : Prop := x.peer.isSome = true ∧ 1 ≤ x.win.toNat

/-- The sender's registers in each of its states (43 R180 to R203, 60 R311, R312). While the send loop runs the window
is full: FillWindow has sent all that it may (R188, R193). -/
abbrev SenderOk (crc : Crc) (x : Sender) (now : Nat) : Prop :=
  (x.state = .idle → x = Sender.reset) ∧
  (x.state = .handshaking →
    Connected x ∧ NoStream x ∧ x.base = 0 ∧ x.next = 0 ∧ 1 ≤ x.waitLeft ∧ x.closeAcked = false) ∧
  (x.state = .established →
    Connected x ∧ x.closeAcked = false ∧
    ((NoStream x ∧ x.base = 1 ∧ x.next = 1) ∨
      (StreamLoaded crc x now ∧ (x.active = true ↔ x.base.toNat ≤ x.n.toNat) ∧
        (x.active = true → x.next.toNat = fillEdge x ∧ 1 ≤ x.waitLeft)))) ∧
  (x.state = .closing →
    Connected x ∧ x.closeAcked = false ∧ StreamLoaded crc x now ∧ x.active = false ∧ x.n.toNat < x.base.toNat ∧
    1 ≤ x.waitLeft ∧ 1 ≤ x.dlLeft) ∧
  (x.state = .closed → Connected x ∧ StreamLoaded crc x now ∧ x.active = false ∧ x.n.toNat < x.base.toNat)

/-- 10 R47: the reorder buffer is a map whose keys lie strictly inside the window. -/
abbrev BufferOk (x : Receiver) : Prop :=
  MapWf x.buf ∧ ∀ e ∈ x.buf, x.nes.toNat < e.1.toNat ∧ e.1.toNat < x.nes.toNat + x.win.toNat

/-- The receiver's registers in each of its states (10 R34 to R42 and R49, 42 R162, 44 R240 to R257). -/
abbrev ReceiverOk (cfg : Config) (x : Receiver) : Prop :=
  (x.state ≠ .handshaking ∧ x.state ≠ .closing) ∧
  (x.state = .idle →
    x.peer = none ∧ x.nes = 0 ∧ x.buf = [] ∧ x.out = [] ∧ x.delivered = false ∧ x.fault = none ∧
    (x.listening = true → x.localAddr.isSome = true ∧ 1 ≤ x.win.toNat) ∧ (x.listening = false → x.win = 0)) ∧
  (x.state = .established →
    x.listening = true ∧ x.localAddr.isSome = true ∧ x.peer.isSome = true ∧ x.delivered = false ∧ 1 ≤ x.win.toNat ∧
    1 ≤ x.nes.toNat ∧ x.nes.toNat ≤ 2 ^ 32 - 2 ∧ BufferOk x ∧ overCapacity cfg x.out.length = false ∧
    (x.fault = none ∨ x.fault = some .outOverflow ∨ x.fault = some .seqOverflow)) ∧
  (x.state = .closed →
    x.listening = false ∧ x.localAddr.isSome = true ∧ x.peer.isSome = true ∧ x.delivered = true ∧ 1 ≤ x.win.toNat ∧
    1 ≤ x.nes.toNat ∧ x.nes.toNat ≤ 2 ^ 32 - 2 ∧ x.buf = [] ∧ overCapacity cfg x.out.length = false ∧ x.fault = none)

/-- The invariant of the whole core. -/
abbrev CoreInv (s : State) : Prop :=
  s.cfg.Ok ∧ SenderOk s.cfg.crc s.snd s.now ∧ ReceiverOk s.cfg s.rcv

/-- The steps that a sender's connection state may take (42 R161), staying where it is included. -/
def sndEdge : ConnState → ConnState → Bool
  | .idle, .idle => true
  | .idle, .handshaking => true
  | .handshaking, .handshaking => true
  | .handshaking, .established => true
  | .established, .established => true
  | .established, .closing => true
  | .closing, .closing => true
  | .closing, .closed => true
  | .closed, .closed => true
  | _, _ => false

/-- The steps that a receiver's connection state may take (42 R162), staying where it is included. -/
def rcvEdge : ConnState → ConnState → Bool
  | .idle, .idle => true
  | .idle, .established => true
  | .established, .established => true
  | .established, .closed => true
  | .closed, .closed => true
  | _, _ => false

/-- The input event that `s` takes next is a reset of the sender. -/
def takesSndReset (s : State) : Bool :=
  match fetch s with
  | some (.reset .snd, _) => true
  | some (.reset .all, _) => true
  | _ => false

/-- The input event that `s` takes next is a reset of the receiver. -/
def takesRcvReset (s : State) : Bool :=
  match fetch s with
  | some (.reset .rcv, _) => true
  | some (.reset .all, _) => true
  | _ => false

/-- An ACK packet from `src` that the sender does not drop: checksum-valid, and past the address filter (43 R201). -/
abbrev AckCounts (s : State) (src : Addr) (p : PacketBody) : Prop :=
  verify s.cfg.crc (bodyPacket typeAck p) = true ∧ (s.cfg.addrFilter = true → s.snd.peer = some src)

/-- The instructions that act on the sender. -/
def forSender : Instr → Bool
  | .sndConnect _ _ => true
  | .sndSend _ => true
  | .sndClose => true
  | .start e _ _ => e == .snd
  | .endPkt e _ _ => e == .snd
  | .data e _ _ => e == .snd
  | .ack e _ _ => e == .snd
  | _ => false

/-- The instructions that act on the receiver. -/
def forReceiver : Instr → Bool
  | .rcvBind _ => true
  | .rcvAccept _ => true
  | .start e _ _ => e == .rcv
  | .endPkt e _ _ => e == .rcv
  | .data e _ _ => e == .rcv
  | .ack e _ _ => e == .rcv
  | _ => false

/-- The instructions that are host commands. -/
def isCommand : Instr → Bool
  | .start _ _ _ => false
  | .endPkt _ _ _ => false
  | .data _ _ _ => false
  | .ack _ _ _ => false
  | _ => true

/-- The source address of a packet instruction and the engine it is offered to. -/
def packetSource : Instr → Option (Engine × Addr)
  | .start e a _ => some (e, a)
  | .endPkt e a _ => some (e, a)
  | .data e a _ => some (e, a)
  | .ack e a _ => some (e, a)
  | _ => none

/-- The datagram that a packet instruction was read from. -/
def packetImage : Instr → Bytes
  | .start _ _ p => packetBytes typeStart p
  | .endPkt _ _ p => packetBytes typeEnd p
  | .data _ _ p => packetBytes typeData p
  | .ack _ _ p => packetBytes typeAck p
  | _ => []

end Sys2Proof.Machine
end

