-- ==== Sys2Proof/Certificates/Slice0/Obligations.lean ====
section
/-! DEFINITION. The statements about the model. Each docstring names the rules of spec/ that it formalises, or the
log entry whose choice it rests on. Which source address a transmitted datagram carries, and which address a datagram
that stays in the channel is addressed to, is the model's choice (log entry 16): the statements of the rules leave both
open (`own`, `dst`), and the last statement says both. -/

open Sys2Proof Sys2Proof.Machine

/-! ## Encoding -/

/-- Decoding an encoded well-formed instruction gives it back, with every operand (30 R81, R82, R87, R88). -/
def Obligations.DecodeOfEncode : Prop :=
  ∀ i : Instr, i.wf = true → decode (encode i) = .instr i

/-- Each input event that decodes is the encoding of what it decodes to, which is well formed. -/
def Obligations.EncodeOfDecode : Prop :=
  ∀ (ev : Input) (i : Instr), decode ev = .instr i → encode i = ev ∧ i.wf = true

/-- Words written out from the tables of 30 R88 and R82. The operands of SND_CONNECT are an address and a window
size. The datagrams are the examples of 40 R114 and of 30 R85 (a byte after the packet). -/
def Obligations.WordsOfTheTables : Prop :=
  decode (.cmd 0b00000000000000000000000000000010#32 [.u32 3, .u32 1, .u32 0, .u32 0, .bytes []]) =
    .instr (.codecChecksum 3 1 0 0 []) ∧
  decode (.cmd 0b00000000000000000000000000010001#32 [.u32 1, .map [(1, [0x61]), (3, [0x63])]]) =
    .instr (.swAdvance 1 [(1, [0x61]), (3, [0x63])]) ∧
  decode (.cmd 0b00000000000000000000000000100000#32 [.addr ⟨7⟩, .u32 4]) = .instr (.sndConnect ⟨7⟩ 4) ∧
  decode (.cmd 0b00000000000000000000000000110001#32 [.u32 4]) = .instr (.rcvAccept 4) ∧
  decode (.cmd 0b00000000000000000000000001000000#32 [.u8 0x0C]) = .instr (.regRead 0x0C) ∧
  decode (.rx .rcv [0, 0, 0, 2, 0, 0, 0, 1, 0, 0, 0, 1, 0x36, 0xAA, 0xDC, 0x45, 0x61] ⟨1⟩) =
    .instr (.data .rcv ⟨1⟩ ⟨1, 1, 0x36AADC45, [0x61], []⟩) ∧
  decode (.rx .snd [0, 0, 0, 3, 0, 0, 0, 1, 0, 0, 0, 0, 0x46, 0x0A, 0x33, 0xD8, 0] ⟨0⟩) =
    .instr (.ack .snd ⟨0⟩ ⟨1, 0, 0x460A33D8, [], [0]⟩)

/-- A command word with `rsv` not 0 (30 R87), a reserved opcode, or operands that are not those of the opcode (30 R89):
`E_ILLEGAL`, and nothing else changes. That a list of pairs which is not in canonical form is no map operand, so that
SW_ADVANCE with it is among the last, is the model's choice (log entry 7). -/
def Obligations.IllegalCommandChangesNothing : Prop :=
  ∀ (s : State) (m : Nat) (w : U32) (ops : List Value) (rest : List Arrival),
    s.inputs = ⟨m, .cmd w ops⟩ :: rest →
    (256 ≤ w.toNat ∨
      w.toNat ∉ [0x01, 0x02, 0x03, 0x04, 0x10, 0x11, 0x20, 0x21, 0x22, 0x30, 0x31, 0x40] ∨
      ∀ i : Instr, i.wf = true → encode i ≠ .cmd w ops) →
    step s = .next { s with inputs := rest, outputs := s.outputs ++ [.resp .illegal []] }

/-! ## Steps and input events -/

/-- A step runs the decoded instruction. The event it takes is the first pending one, where that is no TICK and no
delivery: that the events stand in a list which is taken from its front is the model's choice (log entry 1). A datagram
that the channel delivers is taken out of the channel and is then offered: the model's choice (log entry 2; a channel
that delivers it again copies it first). With no event pending nothing happens: the model's inference (log entry 8). -/
def Obligations.StepRunsTheDecodedInstruction : Prop :=
  (∀ (s s1 : State) (ev : Input) (i : Instr), fetch s = some (ev, s1) → decode ev = .instr i → step s = exec i s1) ∧
  (∀ (s : State) (a : Arrival) (rest : List Arrival), s.inputs = a :: rest → a.ev ≠ .tick →
    (∀ k e, a.ev ≠ .channel (.deliver k e)) → fetch s = some (a.ev, { s with inputs := rest })) ∧
  (∀ (s : State) (m k : Nat) (e : Engine) (d : Datagram) (rest : List Arrival),
    s.inputs = ⟨m, .channel (.deliver k e)⟩ :: rest → s.channel[k]? = some d →
    fetch s = some (.rx e d.bytes d.src, { s with inputs := rest, channel := s.channel.eraseIdx k })) ∧
  (∀ s : State, s.inputs = [] → step s = .next s)

/-- A datagram that arrives in the moment of a TICK, offered by an event of its own or delivered by the channel, is
taken before it; with none of that moment the TICK is taken (60 R313 item 1). That equal moments of the arrivals stand
for one hardware cycle is the model's choice (log entry 11). The clauses about a delivery are the model's choice too
(log entries 2 and 11): the delivered datagram leaves the list of those in transit, and a delivery of a place that holds
no datagram is also taken before the TICK, and brings nothing. -/
def Obligations.DatagramBeforeTickOfItsMoment : Prop :=
  (∀ (s : State) (m : Nat) (e : Engine) (b : Bytes) (src : Addr) (before rest : List Arrival),
    s.inputs = ⟨m, .tick⟩ :: before ++ ⟨m, .rx e b src⟩ :: rest →
    (∀ a ∈ before, a.moment = m ∧ isDatagram a.ev = false) →
    fetch s = some (.rx e b src, { s with inputs := ⟨m, .tick⟩ :: before ++ rest })) ∧
  (∀ (s : State) (m k : Nat) (e : Engine) (before rest : List Arrival),
    s.inputs = ⟨m, .tick⟩ :: before ++ ⟨m, .channel (.deliver k e)⟩ :: rest →
    (∀ a ∈ before, a.moment = m ∧ isDatagram a.ev = false) →
    (∀ d, s.channel[k]? = some d → fetch s =
      some (.rx e d.bytes d.src,
        { s with inputs := ⟨m, .tick⟩ :: before ++ rest, channel := s.channel.eraseIdx k })) ∧
    (s.channel[k]? = none → fetch s =
      some (.channel (.deliver k e), { s with inputs := ⟨m, .tick⟩ :: before ++ rest }))) ∧
  (∀ (s : State) (m : Nat) (now rest : List Arrival),
    s.inputs = ⟨m, .tick⟩ :: now ++ rest → (∀ a ∈ now, a.moment = m ∧ isDatagram a.ev = false) →
    (∀ a ∈ rest.head?, a.moment ≠ m) →
    fetch s = some (.tick, { s with inputs := now ++ rest }))

/-- What the channel may do to the datagrams in transit: lose one, copy one, change one's bytes (20 R66). -/
def Obligations.ChannelMayLoseCopyAlter : Prop :=
  ∀ (s : State) (m k : Nat) (b : Bytes) (rest : List Arrival) (before after : List Datagram) (d : Datagram),
    s.channel = before ++ d :: after → before.length = k →
    (s.inputs = ⟨m, .channel (.drop k)⟩ :: rest →
      step s = .next { s with inputs := rest, channel := before ++ after }) ∧
    (s.inputs = ⟨m, .channel (.duplicate k)⟩ :: rest →
      step s = .next { s with inputs := rest, channel := before ++ d :: after ++ [d] }) ∧
    (s.inputs = ⟨m, .channel (.alter k b)⟩ :: rest →
      step s = .next { s with inputs := rest, channel := before ++ { d with bytes := b } :: after })

/-- RESET(target) in any state (70 R340 to R343). -/
def Obligations.ResetEvent : Prop :=
  ∀ (s : State) (m : Nat) (t : Target) (rest : List Arrival), s.inputs = ⟨m, .reset t⟩ :: rest →
    ∃ u : State, step s = .next u ∧ u.cfg = s.cfg ∧ u.channel = s.channel ∧ u.inputs = rest ∧
      u.outputs = s.outputs ∧ u.freeCount = s.freeCount ∧
      (t = .rcv → u.snd = s.snd) ∧
      (t ≠ .rcv →
        u.snd.state = .idle ∧ u.snd.peer = none ∧ u.snd.win = 0 ∧ u.snd.loaded = false ∧ u.snd.active = false ∧
        u.snd.closeAcked = false ∧ u.snd.n = 0 ∧ u.snd.pkt = [] ∧ u.snd.base = 0 ∧ u.snd.next = 0 ∧
        u.snd.outstanding = [] ∧ u.snd.waitLeft = 0 ∧ u.snd.dlLeft = 0) ∧
      (t = .snd → u.rcv = s.rcv) ∧
      (t ≠ .snd →
        u.rcv.state = .idle ∧ u.rcv.localAddr = none ∧ u.rcv.peer = none ∧ u.rcv.listening = false ∧
        u.rcv.delivered = false ∧ u.rcv.win = 0 ∧ u.rcv.nes = 0 ∧ u.rcv.buf = [] ∧ u.rcv.out = [] ∧
        u.rcv.fault = none) ∧
      u.now = (if t = .all then 0 else s.now)

/-! ## Packet codec -/

/-- CODEC_ENCODE responds OK with the header fields, each a big-endian u32 at its offset, then the payload
(40 R111, R114, R119). -/
def Obligations.CodecEncodeResponds : Prop :=
  ∀ (s : State) (t q l c : U32) (p : Bytes), ∃ b : Bytes,
    exec (.codecEncode t q l c p) s = .next { s with outputs := s.outputs ++ [.resp .ok [.bytes b]] } ∧
    b.length = 16 + p.length ∧ rd32 b 0 = t ∧ rd32 b 4 = q ∧ rd32 b 8 = l ∧ rd32 b 12 = c ∧ b.drop 16 = p

/-- CODEC_CHECKSUM responds OK with P_CRC over the header with its checksum zeroed and the payload; the operand
`checksum` does not matter (40 R112, R120). -/
def Obligations.CodecChecksumResponds : Prop :=
  ∀ (s : State) (t q l c : U32) (p : Bytes),
    exec (.codecChecksum t q l c p) s = .next { s with outputs := s.outputs ++
      [.resp .ok [.u32 (pCrc s.cfg.crc (be32 t ++ be32 q ++ be32 l ++ [0, 0, 0, 0] ++ p))]] }

/-- CODEC_DECODE: `E_FORMAT` where fewer than 16 bytes, or fewer than 16 + `length`, are there; otherwise OK with the
four fields and the payload. `16 + length` does not wrap (40 R115, R121). That `E_FORMAT` comes with no results is the
model's inference (log entry 12). -/
def Obligations.CodecDecodeResponds : Prop :=
  ∀ (s : State) (b : Bytes),
    (b.length < 16 ∨ b.length < 16 + (rd32 b 8).toNat →
      exec (.codecDecode b) s = .next { s with outputs := s.outputs ++ [.resp .format []] }) ∧
    (16 + (rd32 b 8).toNat ≤ b.length →
      exec (.codecDecode b) s = .next { s with outputs := s.outputs ++
        [.resp .ok [.u32 (rd32 b 0), .u32 (rd32 b 4), .u32 (rd32 b 8), .u32 (rd32 b 12),
          .bytes ((b.drop 16).take (rd32 b 8).toNat)]] })

/-- CODEC_VERIFY: `E_FORMAT` as CODEC_DECODE; otherwise OK with whether P_CRC over the datagram's own bytes, the
checksum field zeroed and bytes beyond the payload left out, is the checksum field (40 R116, R122). -/
def Obligations.CodecVerifyResponds : Prop :=
  ∀ (s : State) (b : Bytes),
    (b.length < 16 ∨ b.length < 16 + (rd32 b 8).toNat →
      exec (.codecVerify b) s = .next { s with outputs := s.outputs ++ [.resp .format []] }) ∧
    (16 + (rd32 b 8).toNat ≤ b.length →
      exec (.codecVerify b) s = .next { s with outputs := s.outputs ++
        [.resp .ok [.bool (decide (pCrc s.cfg.crc (b.take 12 ++ [0, 0, 0, 0] ++ (b.drop 16).take (rd32 b 8).toNat)
          = rd32 b 12))]] })

/-- The checksum that CODEC_CHECKSUM answers, put into CODEC_ENCODE, makes a packet that CODEC_VERIFY accepts and
CODEC_DECODE reads back, whatever follows it in the datagram (30 R92, 40 R117, R118 items 1 and 2). -/
def Obligations.ChecksumThenEncodeVerifies : Prop :=
  ∀ (s : State) (t q c : U32) (p trailing b : Bytes), p.length < 2 ^ 32 →
    exec (.codecChecksum t q (BitVec.ofNat 32 p.length) 0 p) s =
      .next { s with outputs := s.outputs ++ [.resp .ok [.u32 c]] } →
    exec (.codecEncode t q (BitVec.ofNat 32 p.length) c p) s =
      .next { s with outputs := s.outputs ++ [.resp .ok [.bytes b]] } →
    exec (.codecVerify (b ++ trailing)) s =
      .next { s with outputs := s.outputs ++ [.resp .ok [.bool true]] } ∧
    exec (.codecDecode (b ++ trailing)) s =
      .next { s with outputs := s.outputs ++
        [.resp .ok [.u32 t, .u32 q, .u32 (BitVec.ofNat 32 p.length), .u32 c, .bytes p]] }

/-- Flipping any single bit of the payload, or of the `type`, `seq_num` or `checksum` field, of a packet that the core
builds makes `verify` false, for the default P_CRC and for every replacement that an instance may have (40 R118 items 3
and 4). -/
def Obligations.SingleBitFlipFailsVerify : Prop :=
  ∀ (c : Config) (t q : U32) (p : Bytes) (k : Nat), c.Ok → p.length < 2 ^ 32 → k < 8 * (16 + p.length) →
    ¬ (64 ≤ k ∧ k < 96) →
    ∃ pkt : Packet, decodePacket (flipBit (makePacket c.crc t q p) k) = .packet pkt ∧ verify c.crc pkt = false

/-! ## Window arithmetic and registers -/

/-- SW_IN_WINDOW responds OK with `base ≤ seq < base + size`, the sum one of Nat (41 R140, R143). -/
def Obligations.InWindowResponds : Prop :=
  ∀ (s : State) (q b n : U32), ∃ r : Bool,
    exec (.swInWindow q b n) s = .next { s with outputs := s.outputs ++ [.resp .ok [.bool r]] } ∧
    (r = true ↔ b.toNat ≤ q.toNat ∧ q.toNat < b.toNat + n.toNat)

/-- SW_ADVANCE. Where the `n` numbers from `base` on are keys and the next is none, it responds OK with `base + n`,
their payloads in order, and the map without them. Where the loop would pass 2^32 - 2 it responds `E_ARG`
(41 R141, R144). -/
def Obligations.AdvanceDrainsTheRun : Prop :=
  (∀ (s : State) (b : U32) (m : UMap Bytes) (n : Nat), MapWf m → b.toNat + n < 2 ^ 32 →
    (n = 0 ∨ b.toNat + n ≤ 2 ^ 32 - 2) →
    (∀ k, k < n → mapHas m (BitVec.ofNat 32 (b.toNat + k)) = true) →
    mapHas m (BitVec.ofNat 32 (b.toNat + n)) = false →
    ∃ m' : UMap Bytes,
      exec (.swAdvance b m) s = .next { s with outputs := s.outputs ++
        [.resp .ok [.u32 (BitVec.ofNat 32 (b.toNat + n)), .bytes (runPayload m b.toNat n), .map m']] } ∧
      MapWf m' ∧
      ∀ q : U32, mapGet m' q = if b.toNat ≤ q.toNat ∧ q.toNat < b.toNat + n then none else mapGet m q) ∧
  (∀ (s : State) (b : U32) (m : UMap Bytes), MapWf m → mapHas m b = true →
    (∀ q : U32, b.toNat ≤ q.toNat → q.toNat ≤ 2 ^ 32 - 2 → mapHas m q = true) →
    exec (.swAdvance b m) s = .next { s with outputs := s.outputs ++ [.resp .arg []] })

/-- REG_READ: the register map of 10 R45, bit by bit. That the numbers of keys at 0x05 and 0x0B are taken mod 2^32, as
R45 says of 0x0C, is the model's inference (log entry 15). A reserved index responds `E_ARG`, and what value comes with
it is not said: a free value, the model's choice (log entry 20). No register changes (`freeCount` is no register of the
core but the model's own, of the same entry). -/
def Obligations.RegReadResponds : Prop :=
  ∀ (s : State),
    (∃ v : U32, exec (.regRead 0x00) s = .next { s with outputs := s.outputs ++ [.resp .ok [.u32 v]] } ∧
      (s.snd.state, (v.extractLsb' 0 3).toNat) ∈ [(ConnState.idle, 0), (.handshaking, 1), (.established, 2),
        (.closing, 3), (.closed, 4)] ∧
      v.getLsbD 3 = s.snd.active ∧ v.getLsbD 4 = s.snd.loaded ∧
      v.getLsbD 5 = s.snd.closeAcked ∧ v.getLsbD 6 = s.snd.peer.isSome ∧ v.extractLsb' 7 25 = 0) ∧
    (∃ v : U32, exec (.regRead 0x08) s = .next { s with outputs := s.outputs ++ [.resp .ok [.u32 v]] } ∧
      (s.rcv.state, (v.extractLsb' 0 3).toNat) ∈ [(ConnState.idle, 0), (.handshaking, 1), (.established, 2),
        (.closing, 3), (.closed, 4)] ∧
      v.getLsbD 3 = s.rcv.listening ∧
      v.getLsbD 4 = s.rcv.peer.isSome ∧ v.getLsbD 5 = s.rcv.delivered ∧ v.getLsbD 6 = s.rcv.localAddr.isSome ∧
      v.getLsbD 7 = s.rcv.fault.isSome ∧
      (s.rcv.fault, (v.extractLsb' 8 3).toNat) ∈ [(none, 0), (some Cause.formatError, 1), (some .checksumMismatch, 2),
        (some .timeout, 3), (some .handshakeFailed, 4), (some .outOverflow, 5), (some .seqOverflow, 6)] ∧
      v.extractLsb' 11 21 = 0) ∧
    (∀ (k : Byte) (v : U32),
      (k, v) ∈ [((0x01 : Byte), s.snd.base), (0x02, s.snd.next), (0x03, s.snd.n), (0x04, s.snd.win),
        (0x05, BitVec.ofNat 32 s.snd.outstanding.length), (0x09, s.rcv.nes), (0x0A, s.rcv.win),
        (0x0B, BitVec.ofNat 32 s.rcv.buf.length), (0x0C, BitVec.ofNat 32 s.rcv.out.length)] →
      exec (.regRead k) s = .next { s with outputs := s.outputs ++ [.resp .ok [.u32 v]] }) ∧
    (∀ k : Byte, k = 0x06 ∨ k = 0x07 ∨ 0x0D ≤ k.toNat → ∃ (r : List Value) (n : Nat),
      exec (.regRead k) s =
        .next { s with outputs := s.outputs ++ [.resp .arg r], freeCount := n })

/-! ## Sender: commands -/

/-- SND_CONNECT in Idle with a window: OK, START(0) to the peer, Handshaking, a receive wait; with window 0 `E_ARG`;
outside Idle `E_STATE` (43 R181). -/
def Obligations.SndConnectOpens : Prop :=
  ∀ (s : State) (a : Addr) (w : U32),
    (s.snd.state = .idle → w ≠ 0 →
      ∃ own : Addr, exec (.sndConnect a w) s = .next { s with
        snd := { s.snd with state := .handshaking, peer := some a, win := w, waitLeft := s.cfg.rxTimeout }
        outputs := s.outputs ++ [.resp .ok [], .txSnd (startPacket s.cfg.crc 0) a]
        channel := s.channel ++ [⟨a, own, startPacket s.cfg.crc 0⟩] }) ∧
    (s.snd.state = .idle → w = 0 →
      exec (.sndConnect a w) s = .next { s with outputs := s.outputs ++ [.resp .arg []] }) ∧
    (s.snd.state ≠ .idle →
      exec (.sndConnect a w) s = .next { s with outputs := s.outputs ++ [.resp .state []] })

/-- SND_SEND in Established with no stream loaded. The stream is cut into N = ceil(L / M) chunks, each encoded once as
DATA(s, chunk s); the first min(W, N) are sent in order, each with its record; N = 0 ends the send loop at once.
Outside Established or with a stream loaded: `E_STATE`. More than 2^32 - 3 chunks: `E_ARG` (43 R186, R187). -/
def Obligations.SndSendLoadsAndSends : Prop :=
  (∀ (s : State) (stream : Bytes),
    (s.snd.state ≠ .established ∨ s.snd.loaded = true →
      exec (.sndSend stream) s = .next { s with outputs := s.outputs ++ [.resp .state []] }) ∧
    (s.snd.state = .established → s.snd.loaded = false → 1 ≤ s.cfg.maxPayload →
      (2 ^ 32 - 3) * s.cfg.maxPayload < stream.length →
      exec (.sndSend stream) s = .next { s with outputs := s.outputs ++ [.resp .arg []] })) ∧
  ∀ (s : State) (a : Addr) (stream : Bytes) (n sent : Nat),
    CoreInv s → s.snd.state = .established → s.snd.loaded = false → s.snd.peer = some a →
    stream.length ≤ n * s.cfg.maxPayload → n * s.cfg.maxPayload < stream.length + s.cfg.maxPayload →
    n ≤ 2 ^ 32 - 3 → sent = min s.snd.win.toNat n →
    let image : Nat → Bytes := fun q => dataPacket s.cfg.crc (BitVec.ofNat 32 q)
      ((stream.drop ((q - 1) * s.cfg.maxPayload)).take s.cfg.maxPayload)
    ∃ own : Addr, exec (.sndSend stream) s = .next { s with
      snd := { s.snd with
        n := BitVec.ofNat 32 n
        loaded := true
        active := decide (n ≠ 0)
        pkt := (List.range' 1 n).map (fun q => (BitVec.ofNat 32 q, image q))
        next := BitVec.ofNat 32 (1 + sent)
        outstanding := (List.range' 1 sent).map (fun q =>
          (BitVec.ofNat 32 q, ⟨BitVec.ofNat 32 q, image q, s.now, false⟩))
        waitLeft := if n = 0 then s.snd.waitLeft else s.cfg.rxTimeout }
      outputs := s.outputs ++ [.resp .ok []] ++ (List.range' 1 sent).map (fun q => .txSnd (image q) a) ++
        (if n = 0 then [.sendDone] else [])
      channel := s.channel ++ (List.range' 1 sent).map (fun q => ⟨a, own, image q⟩) }

/-- SND_CLOSE once the send loop has ended: OK, END(N + 1), Closing, both timers loaded; with no stream loaded it
closes an empty one. Elsewhere `E_STATE` (43 R194). -/
def Obligations.SndCloseSendsEnd : Prop :=
  ∀ (s : State) (a : Addr) (n : U32),
    (s.snd.state = .established → s.snd.active = false → s.snd.peer = some a →
      n = (if s.snd.loaded then s.snd.n else 0) → n.toNat + 1 < 2 ^ 32 →
      ∃ own : Addr, exec .sndClose s = .next { s with
        snd := { s.snd with
          state := .closing, loaded := true, n := n
          dlLeft := s.cfg.closeDeadline, waitLeft := s.cfg.rxTimeout }
        outputs := s.outputs ++ [.resp .ok [], .txSnd (endPacket s.cfg.crc (BitVec.ofNat 32 (n.toNat + 1))) a]
        channel := s.channel ++ [⟨a, own, endPacket s.cfg.crc (BitVec.ofNat 32 (n.toNat + 1))⟩] }) ∧
    (s.snd.state ≠ .established ∨ s.snd.active = true →
      exec .sndClose s = .next { s with outputs := s.outputs ++ [.resp .state []] })

/-! ## Sender: datagrams -/

/-- Handshake complete: ACK(1) in Handshaking (43 R183). -/
def Obligations.AckOneEstablishes : Prop :=
  ∀ (s : State) (src : Addr) (p : PacketBody),
    s.snd.state = .handshaking → AckCounts s src p → p.seq = 1 →
    exec (.ack .snd src p) s = .next { s with
      snd := { s.snd with state := .established, base := 1, next := 1 }
      outputs := s.outputs ++ [.connected] }

/-- A cumulative ACK above `base` evicts what it covers and moves the window; above N it ends the send loop, otherwise
FillWindow sends from max(next, a) to below min(a + W, N + 1) and a new wait begins (43 R188, R189, R193). -/
def Obligations.CumulativeAckAdvancesWindow : Prop :=
  ∀ (s : State) (a src : Addr) (p : PacketBody) (next hi : Nat),
    CoreInv s → s.snd.state = .established → s.snd.active = true → s.snd.peer = some a → AckCounts s src p →
    s.snd.base.toNat < p.seq.toNat → next = max s.snd.next.toNat p.seq.toNat →
    hi = min (p.seq.toNat + s.snd.win.toNat) (s.snd.n.toNat + 1) →
    let kept := s.snd.outstanding.filter (fun e => decide (p.seq.toNat ≤ e.1.toNat))
    (s.snd.n.toNat < p.seq.toNat →
      exec (.ack .snd src p) s = .next { s with
        snd := { s.snd with base := p.seq, next := BitVec.ofNat 32 next, outstanding := kept, active := false }
        outputs := s.outputs ++ [.sendDone] }) ∧
    (p.seq.toNat ≤ s.snd.n.toNat →
      ∃ own : Addr, exec (.ack .snd src p) s = .next { s with
        snd := { s.snd with
          base := p.seq
          next := BitVec.ofNat 32 (max next hi)
          outstanding := kept ++ freshRecords s.snd s.now next (hi - next)
          waitLeft := s.cfg.rxTimeout }
        outputs := s.outputs ++ (imagesFrom s.snd next (hi - next)).map (fun b => .txSnd b a)
        channel := s.channel ++ (imagesFrom s.snd next (hi - next)).map (fun b => ⟨a, own, b⟩) })

/-- Teardown acknowledged: ACK(N + 2) in Closing (43 R195). -/
def Obligations.AckOfEndCloses : Prop :=
  ∀ (s : State) (src : Addr) (p : PacketBody),
    s.snd.state = .closing → AckCounts s src p → p.seq.toNat = s.snd.n.toNat + 2 →
    exec (.ack .snd src p) s = .next { s with
      snd := { s.snd with state := .closed, closeAcked := true }
      outputs := s.outputs ++ [.closed true] }

/-- Every other datagram that a receptive sender takes only restarts its receive wait: a START, END or DATA, an ACK
that does not count, and an ACK whose number the state does not look for (43 R184, R190, R196, R201, R202). -/
def Obligations.OtherDatagramsRestartTheWait : Prop :=
  ∀ (s : State) (src : Addr) (p : PacketBody) (i : Instr), CoreInv s → sndReceptive s.snd = true →
    (i = .start .snd src p ∨ i = .endPkt .snd src p ∨ i = .data .snd src p ∨
      (i = .ack .snd src p ∧
        (¬ AckCounts s src p ∨
          (s.snd.state = .handshaking ∧ p.seq ≠ 1) ∨
          (s.snd.state = .established ∧ p.seq.toNat ≤ s.snd.base.toNat) ∨
          (s.snd.state = .closing ∧ p.seq.toNat ≠ s.snd.n.toNat + 2)))) →
    exec i s = .next { s with snd := { s.snd with waitLeft := s.cfg.rxTimeout } }

/-- A packet offered to an engine that is not receptive is not taken: it stays in the channel, and no register
changes (30 R90, 43 R202, 44 R240). -/
def Obligations.UntakenPacketsStayInTheChannel : Prop :=
  ∀ (s : State) (i : Instr) (e : Engine) (src : Addr), packetSource i = some (e, src) →
    (e = .snd → ¬ (s.snd.state = .handshaking ∨ (s.snd.state = .established ∧ s.snd.active = true) ∨
      s.snd.state = .closing)) →
    (e = .rcv → ¬ (s.rcv.listening = true ∧ s.rcv.fault = none ∧
      (s.rcv.state = .idle ∨ s.rcv.state = .established))) →
    ∃ dst : Addr, exec i s = .next { s with channel := s.channel ++ [⟨dst, src, packetImage i⟩] }

/-- A FormatError is dropped silently, however the datagram came to be the next event: a receptive sender begins a new
wait, a receptive receiver does nothing, and where the engine is not receptive the datagram stays in the channel
(60 R301, 40 R123). -/
def Obligations.FormatErrorIsSilent : Prop :=
  ∀ (s s1 : State) (e : Engine) (b : Bytes) (src : Addr), CoreInv s1 → fetch s = some (.rx e b src, s1) →
    (b.length < 16 ∨ b.length < 16 + (rd32 b 8).toNat) →
    ∃ dst : Addr, step s = .next (
      if receptive e s1 then
        (match e with
          | .snd => { s1 with snd := { s1.snd with waitLeft := s1.cfg.rxTimeout } }
          | .rcv => s1)
      else { s1 with channel := s1.channel ++ [⟨dst, src, b⟩] })

/-- A checksum-valid packet of a reserved type is ignored by both engines; a checksum-invalid one is handled like any
checksum-invalid packet (30 R85, 44 R244, R255). -/
def Obligations.ReservedTypesAreIgnored : Prop :=
  ∀ (s s1 : State) (e : Engine) (b : Bytes) (src : Addr) (pkt : Packet), CoreInv s1 →
    fetch s = some (.rx e b src, s1) → receptive e s1 = true → decodePacket b = .packet pkt →
    4 ≤ pkt.h.type.toNat →
    ∃ own : Addr, step s = .next (
      match e with
      | .snd => { s1 with snd := { s1.snd with waitLeft := s1.cfg.rxTimeout } }
      | .rcv =>
        if verify s1.cfg.crc pkt = false ∧ s1.rcv.state = .established ∧ s1.rcv.peer = some src then
          { s1 with
            outputs := s1.outputs ++ [.txRcv (ackPacket s1.cfg.crc s1.rcv.nes) src]
            channel := s1.channel ++ [⟨src, own, ackPacket s1.cfg.crc s1.rcv.nes⟩] }
        else s1)

/-! ## Sender: timers -/

/-- A TICK adds 1 to `now`. On a sender that is not receptive it does nothing else; on a receptive one whose timers do
not expire it takes 1 from the wait and, in Closing, from the deadline. It changes no receiver register (60 R310,
44 R257). -/
def Obligations.TickCounts : Prop :=
  ∀ s s1 : State, fetch s = some (.tick, s1) →
    (sndReceptive s1.snd = false → step s = .next { s1 with now := s1.now + 1 }) ∧
    (sndReceptive s1.snd = true → 2 ≤ s1.snd.waitLeft → (s1.snd.state = .closing → 2 ≤ s1.snd.dlLeft) →
      step s = .next { s1 with
        now := s1.now + 1
        snd := { s1.snd with
          waitLeft := s1.snd.waitLeft - 1
          dlLeft := if s1.snd.state = .closing then s1.snd.dlLeft - 1 else s1.snd.dlLeft } })

/-- Wait expiry in Handshaking: START(0) is sent again and a new wait begins (43 R185). -/
def Obligations.HandshakeRetriesStart : Prop :=
  ∀ (s s1 : State) (a : Addr), fetch s = some (.tick, s1) → s1.snd.state = .handshaking → s1.snd.waitLeft = 1 →
    s1.snd.peer = some a →
    ∃ own : Addr, step s = .next { s1 with
      now := s1.now + 1
      snd := { s1.snd with waitLeft := s1.cfg.rxTimeout }
      outputs := s1.outputs ++ [.txSnd (startPacket s1.cfg.crc 0) a]
      channel := s1.channel ++ [⟨a, own, startPacket s1.cfg.crc 0⟩] }

/-- Wait expiry in the send loop: every outstanding packet is sent again, in increasing order, with the bytes of
`snd.pkt`; its `last_sent_at` becomes the new `now`; a new wait begins, and nothing else changes (43 R192). -/
def Obligations.GoBackNResendsTheWindow : Prop :=
  ∀ (s s1 : State) (a : Addr), CoreInv s1 → fetch s = some (.tick, s1) → s1.snd.state = .established →
    s1.snd.active = true → s1.snd.waitLeft = 1 → s1.snd.peer = some a →
    let resent := s1.snd.outstanding.map (fun e => (mapGet s1.snd.pkt e.1).getD [])
    ∃ own : Addr, step s = .next { s1 with
      now := s1.now + 1
      snd := { s1.snd with
        waitLeft := s1.cfg.rxTimeout
        outstanding := s1.snd.outstanding.map (fun e => (e.1, { e.2 with lastSentAt := s1.now + 1 })) }
      outputs := s1.outputs ++ resent.map (fun b => .txSnd b a)
      channel := s1.channel ++ resent.map (fun b => ⟨a, own, b⟩) }

/-- In Closing, a wait expiry before the deadline sends END(N + 1) again; the deadline's expiry forces Closed, and
where both fall on one TICK the deadline wins and END is not sent (43 R197, R198, 60 R312). -/
def Obligations.ClosingTimers : Prop :=
  ∀ (s s1 : State) (a : Addr), fetch s = some (.tick, s1) → s1.snd.state = .closing → s1.snd.peer = some a →
    s1.snd.n.toNat + 1 < 2 ^ 32 →
    (s1.snd.waitLeft = 1 → 2 ≤ s1.snd.dlLeft →
      ∃ own : Addr, step s = .next { s1 with
        now := s1.now + 1
        snd := { s1.snd with waitLeft := s1.cfg.rxTimeout, dlLeft := s1.snd.dlLeft - 1 }
        outputs := s1.outputs ++ [.txSnd (endPacket s1.cfg.crc (BitVec.ofNat 32 (s1.snd.n.toNat + 1))) a]
        channel := s1.channel ++
          [⟨a, own, endPacket s1.cfg.crc (BitVec.ofNat 32 (s1.snd.n.toNat + 1))⟩] }) ∧
    (s1.snd.dlLeft = 1 →
      step s = .next { s1 with
        now := s1.now + 1
        snd := { s1.snd with state := .closed, closeAcked := false, dlLeft := 0 }
        outputs := s1.outputs ++ [.closed false] })

/-- Where P_RX_TIMEOUT is at least P_CLOSE_DEADLINE, END is sent once: the deadline never lies beyond the receive wait
in Closing, every step keeps it so, and no TICK in Closing sends a datagram (43 R197, corner case). -/
def Obligations.EndSentOnceWhenDeadlineIsShort : Prop :=
  ∀ s t : State, CoreInv s → s.cfg.closeDeadline ≤ s.cfg.rxTimeout →
    (s.snd.state = .closing → s.snd.dlLeft ≤ s.snd.waitLeft ∧ s.snd.dlLeft ≤ s.cfg.closeDeadline) →
    step s = .next t →
    (t.snd.state = .closing → t.snd.dlLeft ≤ t.snd.waitLeft ∧ t.snd.dlLeft ≤ t.cfg.closeDeadline) ∧
    (∀ s1, fetch s = some (.tick, s1) → s.snd.state = .closing → t.channel = s.channel)

/-! ## Receiver -/

/-- RCV_BIND in Idle before RCV_ACCEPT records the local address, a second one replaces it; elsewhere `E_STATE`
(44 R241). -/
def Obligations.RcvBindRecordsTheAddress : Prop :=
  ∀ (s : State) (a : Addr),
    (s.rcv.state = .idle → s.rcv.listening = false → s.rcv.fault = none →
      exec (.rcvBind a) s = .next { s with
        rcv := { s.rcv with localAddr := some a }
        outputs := s.outputs ++ [.resp .ok []] }) ∧
    (s.rcv.state ≠ .idle ∨ s.rcv.listening = true ∨ s.rcv.fault ≠ none →
      exec (.rcvBind a) s = .next { s with outputs := s.outputs ++ [.resp .state []] })

/-- RCV_ACCEPT after RCV_BIND: OK, listening, the window recorded; window 0 `E_ARG`; elsewhere `E_STATE` (44 R242). -/
def Obligations.RcvAcceptListens : Prop :=
  ∀ (s : State) (w : U32),
    (s.rcv.state = .idle → s.rcv.listening = false → s.rcv.localAddr.isSome = true → s.rcv.fault = none →
      (w ≠ 0 → exec (.rcvAccept w) s = .next { s with
        rcv := { s.rcv with win := w, listening := true }
        outputs := s.outputs ++ [.resp .ok []] }) ∧
      (w = 0 → exec (.rcvAccept w) s = .next { s with outputs := s.outputs ++ [.resp .arg []] })) ∧
    (s.rcv.state ≠ .idle ∨ s.rcv.listening = true ∨ s.rcv.localAddr = none ∨ s.rcv.fault ≠ none →
      exec (.rcvAccept w) s = .next { s with outputs := s.outputs ++ [.resp .state []] })

/-- A checksum-valid START. In Idle with `seq_num` 0: bound, Established, next expected 1, ACK(1); in Idle otherwise:
dropped. In Established from the bound peer: ACK(1), nothing else; from any other address: nothing (44 R245, R247,
R248). -/
def Obligations.StartAtTheReceiver : Prop :=
  ∀ (s : State) (src : Addr) (p : PacketBody), rcvReceptive s.rcv = true →
    verify s.cfg.crc (bodyPacket typeStart p) = true →
    (s.rcv.state = .idle → p.seq = 0 →
      ∃ own : Addr, exec (.start .rcv src p) s = .next { s with
        rcv := { s.rcv with peer := some src, nes := 1, state := .established }
        outputs := s.outputs ++ [.txRcv (ackPacket s.cfg.crc 1) src]
        channel := s.channel ++ [⟨src, own, ackPacket s.cfg.crc 1⟩] }) ∧
    (s.rcv.state = .idle → p.seq ≠ 0 → exec (.start .rcv src p) s = .next s) ∧
    (s.rcv.state = .established → s.rcv.peer = some src →
      ∃ own : Addr, exec (.start .rcv src p) s = .next { s with
        outputs := s.outputs ++ [.txRcv (ackPacket s.cfg.crc 1) src]
        channel := s.channel ++ [⟨src, own, ackPacket s.cfg.crc 1⟩] }) ∧
    (s.rcv.state = .established → s.rcv.peer ≠ some src → exec (.start .rcv src p) s = .next s)

/-- A checksum-valid DATA from the bound peer. Below the window: ACK(next expected) and nothing else. At or beyond the
upper edge: nothing. Inside: the first arrival is buffered, the buffer is drained, the ACK carries the number after the
drain; a drain that leaves u32 or the output's capacity is the receiver fault. In Idle or from another address:
nothing (44 R249 to R252, 60 R306, 20 R65). -/
def Obligations.DataAtTheReceiver : Prop :=
  ∀ (s : State) (src : Addr) (p : PacketBody) (m : UMap Bytes), rcvReceptive s.rcv = true →
    verify s.cfg.crc (bodyPacket typeData p) = true →
    m = (if (mapGet s.rcv.buf p.seq).isSome then s.rcv.buf else mapInsert s.rcv.buf p.seq p.payload) →
    (s.rcv.state = .idle ∨ s.rcv.peer ≠ some src → exec (.data .rcv src p) s = .next s) ∧
    (s.rcv.state = .established → s.rcv.peer = some src →
      (p.seq.toNat < s.rcv.nes.toNat →
        ∃ own : Addr, exec (.data .rcv src p) s = .next { s with
          outputs := s.outputs ++ [.txRcv (ackPacket s.cfg.crc s.rcv.nes) src]
          channel := s.channel ++ [⟨src, own, ackPacket s.cfg.crc s.rcv.nes⟩] }) ∧
      (s.rcv.nes.toNat + s.rcv.win.toNat ≤ p.seq.toNat → s.rcv.nes.toNat ≤ p.seq.toNat →
        exec (.data .rcv src p) s = .next s) ∧
      (s.rcv.nes.toNat ≤ p.seq.toNat → p.seq.toNat < s.rcv.nes.toNat + s.rcv.win.toNat →
        (advance s.rcv.nes m s.rcv.out = none →
          exec (.data .rcv src p) s = .next { s with
            rcv := { s.rcv with fault := some .seqOverflow }
            outputs := s.outputs ++ [.fault .seqOverflow] }) ∧
        (∀ nes' buf' out', advance s.rcv.nes m s.rcv.out = some (nes', buf', out') →
          ((∃ c, s.cfg.outCapacity = some c ∧ c < out'.length) →
            exec (.data .rcv src p) s = .next { s with
              rcv := { s.rcv with fault := some .outOverflow }
              outputs := s.outputs ++ [.fault .outOverflow] }) ∧
          ((∀ c, s.cfg.outCapacity = some c → out'.length ≤ c) →
            ∃ own : Addr, exec (.data .rcv src p) s = .next { s with
              rcv := { s.rcv with nes := nes', buf := buf', out := out' }
              outputs := s.outputs ++ [.txRcv (ackPacket s.cfg.crc nes') src]
              channel := s.channel ++ [⟨src, own, ackPacket s.cfg.crc nes'⟩] }))))

/-- DATA that falls at the next expected number of a receiver with an empty buffer: its payload goes to the output at
once, nothing stays in the buffer, and the ACK carries the number after it (44 R251, corner case). -/
def Obligations.NextDataGoesStraightToTheOutput : Prop :=
  ∀ (s : State) (src : Addr) (p : PacketBody), CoreInv s → s.rcv.state = .established → s.rcv.fault = none →
    s.rcv.peer = some src → verify s.cfg.crc (bodyPacket typeData p) = true → s.rcv.buf = [] → p.seq = s.rcv.nes →
    s.rcv.nes.toNat < 2 ^ 32 - 2 → s.cfg.outCapacity = none →
    ∃ own : Addr, exec (.data .rcv src p) s = .next { s with
      rcv := { s.rcv with nes := s.rcv.nes + 1, out := s.rcv.out ++ p.payload }
      outputs := s.outputs ++ [.txRcv (ackPacket s.cfg.crc (s.rcv.nes + 1)) src]
      channel := s.channel ++ [⟨src, own, ackPacket s.cfg.crc (s.rcv.nes + 1)⟩] }

/-- A checksum-valid END. With the expected number from the bound peer: ACK(next expected + 1), then the delivery of
the whole output, Closed, no longer listening, the buffer empty. Any other: nothing (44 R253, R254). -/
def Obligations.EndAtTheReceiver : Prop :=
  ∀ (s : State) (src : Addr) (p : PacketBody), rcvReceptive s.rcv = true →
    verify s.cfg.crc (bodyPacket typeEnd p) = true →
    (s.rcv.state = .established → s.rcv.peer = some src → p.seq = s.rcv.nes → s.rcv.nes.toNat + 1 < 2 ^ 32 →
      ∃ own : Addr, exec (.endPkt .rcv src p) s = .next { s with
        rcv := { s.rcv with delivered := true, state := .closed, listening := false, buf := [] }
        outputs := s.outputs ++ [.txRcv (ackPacket s.cfg.crc (s.rcv.nes + 1)) src, .deliver s.rcv.out src]
        channel := s.channel ++ [⟨src, own, ackPacket s.cfg.crc (s.rcv.nes + 1)⟩] }) ∧
    (s.rcv.state = .idle ∨ s.rcv.peer ≠ some src ∨ p.seq ≠ s.rcv.nes → exec (.endPkt .rcv src p) s = .next s)

/-- A checksum-valid ACK changes nothing at the receiver and earns no reply, in Idle and in Established, from the bound
peer and from any other address (44 R255). -/
def Obligations.AckAtTheReceiverIsDropped : Prop :=
  ∀ (s : State) (src : Addr) (p : PacketBody), rcvReceptive s.rcv = true →
    verify s.cfg.crc (bodyPacket typeAck p) = true → exec (.ack .rcv src p) s = .next s

/-- A datagram that decodes and fails `verify`, whatever its type field says, changes no register of a receptive
receiver; in Established and from the bound peer it earns ACK(next expected) as a hint, otherwise no reply
(44 R244). -/
def Obligations.ChecksumMismatchAtTheReceiver : Prop :=
  ∀ (s s1 : State) (b : Bytes) (src : Addr) (pkt : Packet),
    fetch s = some (.rx .rcv b src, s1) → rcvReceptive s1.rcv = true → decodePacket b = .packet pkt →
    verify s1.cfg.crc pkt = false →
    (s1.rcv.state = .established → s1.rcv.peer = some src →
      ∃ own : Addr, step s = .next { s1 with
        outputs := s1.outputs ++ [.txRcv (ackPacket s1.cfg.crc s1.rcv.nes) src]
        channel := s1.channel ++ [⟨src, own, ackPacket s1.cfg.crc s1.rcv.nes⟩] }) ∧
    (s1.rcv.state ≠ .established ∨ s1.rcv.peer ≠ some src → step s = .next s1)

/-- A faulted receiver is stuck until a reset of it: whatever a step does otherwise, no receiver register changes and
the receiver sends and delivers nothing (10 R49, 60 R306). -/
def Obligations.FaultedReceiverIsStuck : Prop :=
  ∀ s t : State, s.rcv.fault ≠ none → takesRcvReset s = false → step s = .next t →
    t.rcv = s.rcv ∧ ∀ o ∈ t.outputs.drop s.outputs.length, (∀ b a, o ≠ .txRcv b a) ∧ ∀ b a, o ≠ .deliver b a

/-! ## Whole-machine rules -/

/-- The invariants hold at reset. -/
def Obligations.InvariantsHoldAtReset : Prop := CoreInv State.reset ∧ Memory.wf State.reset

/-- Every step keeps the invariant: the window rules of 10 R46, the buffer rule of 10 R47, which registers hold what in
which connection state, and the ranges of 00 R6. -/
def Obligations.StepKeepsInvariant : Prop :=
  ∀ s t : State, CoreInv s → step s = .next t → CoreInv t

/-- Every step keeps every map of the state in its canonical form. -/
def Obligations.StepKeepsMapsCanonical : Prop :=
  ∀ s t : State, Memory.wf s → step s = .next t → Memory.wf t

/-- From every state of the invariant, whatever event comes next, the step completes: the core has no trap and no
condition is fatal (60 R307, R306). -/
def Obligations.StepNeverStops : Prop :=
  ∀ s : State, CoreInv s → ∃ t, step s = .next t

/-- The sender's connection state changes only along the edges of 42 R161, or by a reset. -/
def Obligations.SenderTransitionGraph : Prop :=
  ∀ s t : State, CoreInv s → step s = .next t →
    sndEdge s.snd.state t.snd.state = true ∨ (takesSndReset s = true ∧ t.snd.state = .idle)

/-- The receiver's connection state changes only along the edges of 42 R162, or by a reset. -/
def Obligations.ReceiverTransitionGraph : Prop :=
  ∀ s t : State, CoreInv s → step s = .next t →
    rcvEdge s.rcv.state t.rcv.state = true ∨ (takesRcvReset s = true ∧ t.rcv.state = .idle)

/-- The engines share no state: what acts on the sender leaves the receiver as it is, and does the same to the sender
whatever the receiver holds; and the other way round. TICK changes no receiver register (10 R21, 44 R257). -/
def Obligations.EnginesShareNoState : Prop :=
  (∀ (i : Instr) (s t : State), forSender i = true → exec i s = .next t → t.rcv = s.rcv ∧ t.now = s.now) ∧
  (∀ (i : Instr) (s t : State), forReceiver i = true → exec i s = .next t → t.snd = s.snd ∧ t.now = s.now) ∧
  (∀ (i : Instr) (s t s' t' : State), forSender i = true → s.cfg = s'.cfg → s.snd = s'.snd → s.now = s'.now →
    exec i s = .next t → exec i s' = .next t' → t.snd = t'.snd) ∧
  (∀ (i : Instr) (s t s' t' : State), forReceiver i = true → s.cfg = s'.cfg → s.rcv = s'.rcv →
    exec i s = .next t → exec i s' = .next t' → t.rcv = t'.rcv) ∧
  (∀ s s1 t : State, fetch s = some (.tick, s1) → step s = .next t → t.rcv = s.rcv)

/-- Every command produces exactly one response, first of what its step puts out, and one that does not respond OK
changes no register and sends nothing (60 R305). -/
def Obligations.OneResponsePerCommand : Prop :=
  ∀ (s t : State) (m : Nat) (w : U32) (ops : List Value) (rest : List Arrival),
    s.inputs = ⟨m, .cmd w ops⟩ :: rest → step s = .next t →
    ∃ c r l, t.outputs = s.outputs ++ .resp c r :: l ∧ (∀ o ∈ l, ∀ c' r', o ≠ .resp c' r') ∧
      (c ≠ .ok → l = [] ∧ t.snd = s.snd ∧ t.rcv = s.rcv ∧ t.now = s.now ∧ t.channel = s.channel)

/-- The pure commands and REG_READ touch no engine register, the counter of time or the channel, and put out their one
response only (40 R110, 41 R144, 20 R63). -/
def Obligations.PureCommandsFrame : Prop :=
  ∀ (i : Instr) (s t : State), isCommand i = true → forSender i = false → forReceiver i = false →
    exec i s = .next t →
    t.cfg = s.cfg ∧ t.snd = s.snd ∧ t.rcv = s.rcv ∧ t.now = s.now ∧ t.channel = s.channel ∧ t.inputs = s.inputs ∧
    ∃ c r, t.outputs = s.outputs ++ [.resp c r]

/-- No step writes the instance's parameters, and a step only adds to the outputs (00 R5, 60 R309). -/
def Obligations.ParametersFixedOutputsAppended : Prop :=
  ∀ s t : State, step s = .next t → t.cfg = s.cfg ∧ ∃ l, t.outputs = s.outputs ++ l

/-- A window size is fixed for a connection: only the command that opens the connection, and a reset, write it. The
sender's is open to SND_CONNECT in Idle, the receiver's to RCV_ACCEPT in Idle before the receiver listens (10 R24, R38,
70 R345). -/
def Obligations.WindowFixedForTheConnection : Prop :=
  ∀ s t : State, step s = .next t →
    (t.snd.win = s.snd.win ∨ takesSndReset s = true ∨ s.snd.state = .idle) ∧
    (t.rcv.win = s.rcv.win ∨ takesRcvReset s = true ∨ (s.rcv.state = .idle ∧ s.rcv.listening = false))

/-- Closed is terminal: an engine in Closed keeps every register until it is reset (42 R163). -/
def Obligations.ClosedIsTerminal : Prop :=
  ∀ s t : State, step s = .next t →
    (s.snd.state = .closed → takesSndReset s = false → t.snd = s.snd) ∧
    (s.rcv.state = .closed → takesRcvReset s = false → t.rcv = s.rcv)

/-- While the receiver is Established with one peer, no datagram from another address, whatever it holds, causes a
reply or changes a register; one that a faulted receiver does not take stays in the channel (44 R258). -/
def Obligations.SinglePeerAdmission : Prop :=
  ∀ (s s1 : State) (b : Bytes) (a src : Addr),
    fetch s = some (.rx .rcv b src, s1) → s1.rcv.state = .established → s1.rcv.peer = some a → src ≠ a →
    (rcvReceptive s1.rcv = true → step s = .next s1) ∧
    (rcvReceptive s1.rcv = false → ∃ dst : Addr,
      step s = .next { s1 with channel := s1.channel ++ [⟨dst, src, b⟩] })

/-- Re-delivering DATA below the next expected number, or DATA that is buffered, changes no register and only sends
ACK(next expected) (44 R259). -/
def Obligations.DuplicateDataIsIdempotent : Prop :=
  ∀ (s : State) (src : Addr) (p : PacketBody), CoreInv s → s.rcv.state = .established → s.rcv.fault = none →
    s.rcv.peer = some src → verify s.cfg.crc (bodyPacket typeData p) = true →
    (p.seq.toNat < s.rcv.nes.toNat ∨ mapHas s.rcv.buf p.seq = true) →
    ∃ own : Addr, exec (.data .rcv src p) s = .next { s with
      outputs := s.outputs ++ [.txRcv (ackPacket s.cfg.crc s.rcv.nes) src]
      channel := s.channel ++ [⟨src, own, ackPacket s.cfg.crc s.rcv.nes⟩] }

/-- The output stream only grows. It grows only on a checksum-valid DATA packet from the bound peer with a number inside
the window, by the payloads of the numbers that the next expected one passes, in their order, from the reorder buffer
with that packet in it where its number was not there before; the next expected number passes every number that is
there (10 R41, R48). -/
def Obligations.OutputGrowsInSequenceOrder : Prop :=
  ∀ s t : State, CoreInv s → step s = .next t → takesRcvReset s = false →
    (t.rcv.out = s.rcv.out ∧ (t.rcv.nes = s.rcv.nes ∨ (s.rcv.state = .idle ∧ t.rcv.nes = 1))) ∨
    ∃ (s1 : State) (b : Bytes) (src : Addr) (pkt : Packet) (m : UMap Bytes),
      fetch s = some (.rx .rcv b src, s1) ∧ decodePacket b = .packet pkt ∧ pkt.h.type = typeData ∧
      verify s.cfg.crc pkt = true ∧ s.rcv.state = .established ∧ s.rcv.peer = some src ∧
      s.rcv.nes.toNat ≤ pkt.h.seq.toNat ∧ pkt.h.seq.toNat < s.rcv.nes.toNat + s.rcv.win.toNat ∧
      m = (if (mapGet s.rcv.buf pkt.h.seq).isSome then s.rcv.buf
        else mapInsert s.rcv.buf pkt.h.seq pkt.payload) ∧
      s.rcv.nes.toNat ≤ t.rcv.nes.toNat ∧
      (∀ k : U32, s.rcv.nes.toNat ≤ k.toNat → k.toNat < t.rcv.nes.toNat → mapHas m k = true) ∧
      mapHas m t.rcv.nes = false ∧
      t.rcv.out = s.rcv.out ++ runPayload m s.rcv.nes.toNat (t.rcv.nes.toNat - s.rcv.nes.toNat)

/-- EV_DELIVER comes exactly with the step from Established to Closed: a step that puts it out is that step, and that
step puts out ACK(next expected + 1) and then EV_DELIVER, with the output stream as assembled and the bound peer, and
nothing else (10 R41, R42, 20 R68, 44 R253). -/
def Obligations.DeliveryOnlyAtClose : Prop :=
  ∀ s t : State, CoreInv s → step s = .next t →
    (∀ (stream : Bytes) (a : Addr), .deliver stream a ∈ t.outputs.drop s.outputs.length →
      s.rcv.state = .established ∧ t.rcv.state = .closed) ∧
    (s.rcv.state = .established → t.rcv.state = .closed →
      t.rcv.delivered = true ∧ ∃ a, s.rcv.peer = some a ∧
        t.outputs = s.outputs ++
          [.txRcv (ackPacket s.cfg.crc (BitVec.ofNat 32 (s.rcv.nes.toNat + 1))) a, .deliver s.rcv.out a])

/-- Every datagram the sender transmits goes to its peer and is START(0), the image of a number from 1 to N, or
END(N + 1). The sender never transmits an ACK (43 R182). -/
def Obligations.SenderTransmitsOnlyItsPackets : Prop :=
  ∀ (s t : State) (b : Bytes) (a : Addr), CoreInv s → step s = .next t →
    .txSnd b a ∈ t.outputs.drop s.outputs.length →
    t.snd.peer = some a ∧ rd32 b 0 ≠ typeAck ∧
    (b = startPacket t.cfg.crc 0 ∨
      (∃ q : U32, 1 ≤ q.toNat ∧ q.toNat ≤ t.snd.n.toNat ∧ mapGet t.snd.pkt q = some b) ∨
      b = endPacket t.cfg.crc (BitVec.ofNat 32 (t.snd.n.toNat + 1)))

/-- What a step transmits is in the channel after it, addressed to its destination. Its source address is the engine's
own: for the sender the instance's, for the receiver the bound local endpoint or the instance's where none is bound. A
datagram that an engine does not take stays in the channel, addressed to that same address of the engine. The engines'
addresses are the model's choice (log entry 16). -/
def Obligations.TransmissionsCarryTheEnginesAddress : Prop :=
  (∀ (s t : State) (b : Bytes) (a : Addr), step s = .next t →
    (.txSnd b a ∈ t.outputs.drop s.outputs.length → ⟨a, s.cfg.sndAddr, b⟩ ∈ t.channel) ∧
    (.txRcv b a ∈ t.outputs.drop s.outputs.length → ⟨a, s.rcv.localAddr.getD s.cfg.rcvAddr, b⟩ ∈ t.channel)) ∧
  (∀ (s s1 : State) (b : Bytes) (src : Addr),
    (fetch s = some (.rx .snd b src, s1) → sndReceptive s1.snd = false →
      step s = .next { s1 with channel := s1.channel ++ [⟨s1.cfg.sndAddr, src, b⟩] }) ∧
    (fetch s = some (.rx .rcv b src, s1) → rcvReceptive s1.rcv = false →
      step s = .next { s1 with channel := s1.channel ++ [⟨s1.rcv.localAddr.getD s1.cfg.rcvAddr, src, b⟩] }))
end

