-- ==== Sys2Proof/Laws/Map.lean ====
section
/-! SUPPORT. Maps: reading after writing and erasing, and that every operation keeps the canonical form. -/

namespace Sys2Proof.Machine

variable {V : Type}

theorem u32_eq_of_toNat {a b : U32} (h : a.toNat = b.toNat) : a = b := BitVec.eq_of_toNat_eq h

theorem u32_toNat_ne {a b : U32} (h : a ≠ b) : a.toNat ≠ b.toNat := fun e => h (u32_eq_of_toNat e)

/-! ### Reading -/

@[simp] theorem mapGet_nil (q : U32) : mapGet ([] : UMap V) q = none := rfl

@[simp] theorem mapGet_cons_self (k : U32) (v : V) (m : UMap V) : mapGet ((k, v) :: m) k = some v := by
  simp [mapGet]

theorem mapGet_cons_ne {k q : U32} (h : k ≠ q) (v : V) (m : UMap V) : mapGet ((k, v) :: m) q = mapGet m q := by
  simp [mapGet, h]

theorem mem_of_mapGet {m : UMap V} {q : U32} {v : V} (h : mapGet m q = some v) : (q, v) ∈ m := by
  induction m with
  | nil => simp at h
  | cons e rest ih =>
    obtain ⟨k, w⟩ := e
    by_cases hk : k = q
    · subst hk; simp only [mapGet_cons_self, Option.some.injEq] at h; simp [h]
    · rw [mapGet_cons_ne hk] at h; exact List.mem_cons_of_mem _ (ih h)

theorem mapGet_none_iff {m : UMap V} {q : U32} : mapGet m q = none ↔ ∀ e ∈ m, e.1 ≠ q := by
  induction m with
  | nil => simp
  | cons e rest ih =>
    obtain ⟨k, w⟩ := e
    by_cases hk : k = q
    · subst hk; simp
    · rw [mapGet_cons_ne hk, ih]; simp [hk]

theorem mapWf_cons {e : U32 × V} {m : UMap V} :
    MapWf (e :: m) ↔ (∀ d ∈ m, e.1.toNat < d.1.toNat) ∧ MapWf m := by
  simp only [MapWf, List.map_cons, List.pairwise_cons, List.forall_mem_map]

theorem mapWf_nil : MapWf ([] : UMap V) := by simp [MapWf]

theorem mapGet_of_mem {m : UMap V} (hw : MapWf m) {q : U32} {v : V} (h : (q, v) ∈ m) : mapGet m q = some v := by
  induction m with
  | nil => simp at h
  | cons e rest ih =>
    obtain ⟨k, w⟩ := e
    rw [mapWf_cons] at hw
    rcases List.mem_cons.mp h with h | h
    · cases h; simp
    · have : k ≠ q := fun hk => by have := hw.1 _ h; subst hk; exact absurd this (Nat.lt_irrefl _)
      rw [mapGet_cons_ne this]; exact ih hw.2 h

theorem mapGet_some_iff {m : UMap V} (hw : MapWf m) {q : U32} {v : V} : mapGet m q = some v ↔ (q, v) ∈ m :=
  ⟨mem_of_mapGet, mapGet_of_mem hw⟩

theorem mapGet_isSome_iff {m : UMap V} {q : U32} : (mapGet m q).isSome = true ↔ q.toNat ∈ keyNats m := by
  rw [← not_iff_not, Bool.not_eq_true, Option.isSome_eq_false_iff, Option.isNone_iff_eq_none, mapGet_none_iff]
  simp only [keyNats, List.mem_map, not_exists, not_and]
  exact ⟨fun h e he hq => h e he (u32_eq_of_toNat hq), fun h e he hq => h e he (by rw [hq])⟩

/-! ### Writing -/

@[simp] theorem mapGet_mapInsert_self (m : UMap V) (q : U32) (v : V) : mapGet (mapInsert m q v) q = some v := by
  induction m with
  | nil => simp [mapInsert]
  | cons e rest ih =>
    obtain ⟨k, w⟩ := e
    simp only [mapInsert]
    split
    · simp
    · split
      · simp
      · rename_i h; rw [mapGet_cons_ne h, ih]

theorem mapGet_mapInsert_ne {q r : U32} (h : q ≠ r) (m : UMap V) (v : V) :
    mapGet (mapInsert m q v) r = mapGet m r := by
  induction m with
  | nil => simp [mapInsert, mapGet, h]
  | cons e rest ih =>
    obtain ⟨k, w⟩ := e
    simp only [mapInsert]
    split
    · rw [mapGet_cons_ne h]
    · split
      · rename_i hk; subst hk; rw [mapGet_cons_ne h, mapGet_cons_ne h]
      · by_cases hr : k = r
        · subst hr; simp
        · rw [mapGet_cons_ne hr, mapGet_cons_ne hr, ih]

theorem mem_mapInsert {m : UMap V} {q : U32} {v : V} {e : U32 × V} (h : e ∈ mapInsert m q v) :
    e = (q, v) ∨ e ∈ m := by
  induction m with
  | nil => simp [mapInsert] at h; exact .inl h
  | cons d rest ih =>
    obtain ⟨k, w⟩ := d
    simp only [mapInsert] at h
    split at h
    · simpa using h
    · split at h
      · rcases List.mem_cons.mp h with h | h
        · exact .inl h
        · exact .inr (List.mem_cons_of_mem _ h)
      · rcases List.mem_cons.mp h with h | h
        · exact .inr (by simp [h])
        · exact (ih h).imp id (List.mem_cons_of_mem _)

theorem mapWf_mapInsert {m : UMap V} (hw : MapWf m) (q : U32) (v : V) : MapWf (mapInsert m q v) := by
  induction m with
  | nil => simp [mapInsert, MapWf]
  | cons d rest ih =>
    obtain ⟨k, w⟩ := d
    have hw' := mapWf_cons.mp hw
    simp only [mapInsert]
    split
    · rename_i hlt
      refine mapWf_cons.mpr ⟨fun e he => ?_, hw⟩
      rcases List.mem_cons.mp he with rfl | he
      · exact hlt
      · exact Nat.lt_trans hlt (hw'.1 e he)
    · split
      · rename_i hk; subst hk; exact mapWf_cons.mpr ⟨hw'.1, hw'.2⟩
      · rename_i hlt hne
        refine mapWf_cons.mpr ⟨fun e he => ?_, ih hw'.2⟩
        rcases mem_mapInsert he with rfl | he
        · have := u32_toNat_ne hne; show k.toNat < q.toNat; omega
        · exact hw'.1 e he

/-- A key above every other goes to the end. -/
theorem mapInsert_append {m : UMap V} {q : U32} {v : V} (h : ∀ e ∈ m, e.1.toNat < q.toNat) :
    mapInsert m q v = m ++ [(q, v)] := by
  induction m with
  | nil => rfl
  | cons d rest ih =>
    obtain ⟨k, w⟩ := d
    have hk := h (k, w) (by simp)
    have hne : k ≠ q := fun hk' => by subst hk'; exact absurd hk (Nat.lt_irrefl _)
    simp only [mapInsert]
    rw [if_neg (by simp at hk; omega), if_neg hne, ih (fun e he => h e (List.mem_cons_of_mem _ he))]
    rfl

/-- Writing a key that is there leaves the keys as they are. -/
theorem keyNats_mapInsert_present {m : UMap V} (hw : MapWf m) {q : U32} {w : V} (h : mapGet m q = some w) (v : V) :
    keyNats (mapInsert m q v) = keyNats m := by
  induction m with
  | nil => simp at h
  | cons d rest ih =>
    obtain ⟨k, u⟩ := d
    have hw' := mapWf_cons.mp hw
    by_cases hk : k = q
    · subst hk; simp [mapInsert, keyNats]
    · rw [mapGet_cons_ne hk] at h
      have := hw'.1 _ (mem_of_mapGet h)
      simp only [mapInsert]
      rw [if_neg (by simp at this; omega), if_neg hk]
      have := ih hw'.2 h
      simp only [keyNats, List.map_cons] at this ⊢
      rw [this]

/-! ### Erasing -/

theorem mapWf_filter {m : UMap V} (hw : MapWf m) (f : U32 × V → Bool) : MapWf (m.filter f) :=
  List.Pairwise.sublist ((List.filter_sublist).map _) hw

theorem mapWf_mapErase {m : UMap V} (hw : MapWf m) (q : U32) : MapWf (mapErase m q) := mapWf_filter hw _

theorem mapWf_mapEraseBelow {m : UMap V} (hw : MapWf m) (a : U32) : MapWf (mapEraseBelow m a) := mapWf_filter hw _

theorem mem_mapErase {m : UMap V} {q : U32} {e : U32 × V} : e ∈ mapErase m q ↔ e ∈ m ∧ e.1 ≠ q := by
  simp [mapErase]

theorem mem_mapEraseBelow {m : UMap V} {a : U32} {e : U32 × V} :
    e ∈ mapEraseBelow m a ↔ e ∈ m ∧ a.toNat ≤ e.1.toNat := by
  simp [mapEraseBelow]

@[simp] theorem mapGet_mapErase_self (m : UMap V) (q : U32) : mapGet (mapErase m q) q = none :=
  mapGet_none_iff.mpr fun _ he => (mem_mapErase.mp he).2

theorem mapGet_mapErase_ne {q r : U32} (h : q ≠ r) (m : UMap V) : mapGet (mapErase m q) r = mapGet m r := by
  induction m with
  | nil => rfl
  | cons d rest ih =>
    obtain ⟨k, w⟩ := d
    by_cases hk : k = q
    · subst hk
      have hs : mapErase ((k, w) :: rest) k = mapErase rest k := by simp [mapErase]
      rw [hs, ih, mapGet_cons_ne h]
    · have hs : mapErase ((k, w) :: rest) q = (k, w) :: mapErase rest q := by simp [mapErase, hk]
      rw [hs]
      by_cases hr : k = r
      · subst hr; simp
      · rw [mapGet_cons_ne hr, mapGet_cons_ne hr, ih]

theorem length_mapErase_lt {m : UMap V} {q : U32} {v : V} (h : mapGet m q = some v) :
    (mapErase m q).length < m.length := by
  refine List.length_filter_lt_length_iff_exists.mpr ⟨(q, v), mem_of_mapGet h, ?_⟩
  simp

theorem keyNats_mapEraseBelow (m : UMap V) (a : U32) :
    keyNats (mapEraseBelow m a) = (keyNats m).filter (fun k => decide (a.toNat ≤ k)) := by
  simp only [keyNats, mapEraseBelow, List.filter_map]
  rfl

/-- The numbers of a range from `a` on. -/
theorem filter_range'_ge (b n a : Nat) (h : b ≤ a) :
    (List.range' b n).filter (fun k => decide (a ≤ k)) = List.range' a (b + n - a) := by
  induction n generalizing b with
  | zero => simp [Nat.sub_eq_zero_of_le h]
  | succ n ih =>
    rw [List.range'_succ, List.filter_cons]
    by_cases hb : a ≤ b
    · have : b = a := Nat.le_antisymm h hb
      subst this
      have hall : (List.range' (b + 1) n).filter (fun k => decide (b ≤ k)) = List.range' (b + 1) n := by
        rw [List.filter_eq_self]
        intro k hk
        have := (List.mem_range'_1.mp hk).1
        simp; omega
      simp only [Nat.le_refl, decide_true, if_true, hall]
      rw [show b + (n + 1) - b = n + 1 by omega, List.range'_succ]
    · rw [if_neg (by simpa using hb), ih (b + 1) (by omega)]
      congr 1; omega

/-! ### Ranges of keys -/

theorem mapWf_of_keyNats_range' {m : UMap V} {b n : Nat} (h : keyNats m = List.range' b n) : MapWf m := by
  have h2 : (List.range' b n).Pairwise (· < ·) := List.pairwise_lt_range'
  rw [← h] at h2
  exact h2

theorem mapGet_isSome_of_range' {m : UMap V} {b n : Nat} (h : keyNats m = List.range' b n) {q : U32}
    (hq : b ≤ q.toNat) (hq' : q.toNat < b + n) : ∃ v, mapGet m q = some v := by
  rw [← Option.isSome_iff_exists, mapGet_isSome_iff, h]
  exact List.mem_range'_1.mpr ⟨hq, hq'⟩

/-! ### Many writes -/

theorem mapWf_mapInsertAll {m : UMap V} (hw : MapWf m) (l : List (U32 × V)) : MapWf (mapInsertAll m l) := by
  induction l generalizing m with
  | nil => exact hw
  | cons e rest ih => exact ih (mapWf_mapInsert hw _ _)

/-- Entries whose keys rise, all above the map's, go to the end in their order. -/
theorem mapInsertAll_append {m l : UMap V} (hl : MapWf l) (h : ∀ e ∈ m, ∀ d ∈ l, e.1.toNat < d.1.toNat) :
    mapInsertAll m l = m ++ l := by
  induction l generalizing m with
  | nil => simp [mapInsertAll]
  | cons d rest ih =>
    have hl' := mapWf_cons.mp hl
    have h1 : mapInsertAll m (d :: rest) = mapInsertAll (mapInsert m d.1 d.2) rest := rfl
    rw [h1, mapInsert_append (fun e he => h e he d (by simp)), ih hl'.2]
    · simp
    · intro e he c hc
      rcases List.mem_append.mp he with he | he
      · exact h e he c (List.mem_cons_of_mem _ hc)
      · simp only [List.mem_singleton] at he; subst he; exact hl'.1 c hc

end Sys2Proof.Machine
end

