-- ==== Sys2Proof/Laws/Codec.lean ====
section
/-! SUPPORT. The codec: fields written and read back, decode after encode, verify after make_packet (40 R118 items 1
and 2), and that CRC-32 tells apart data of one length that differ in one byte (items 3 and 4). -/

namespace Sys2Proof.Machine

/-! ### Fields -/

theorem rd32_bytes (v : U32) :
    ((v.extractLsb' 24 8 ++ v.extractLsb' 16 8) ++ (v.extractLsb' 8 8 ++ v.extractLsb' 0 8) : U32) = v := by
  apply BitVec.eq_of_getLsbD_eq
  intro i hi
  simp only [BitVec.getLsbD_append, BitVec.getLsbD_extractLsb']
  by_cases h1 : i < 8
  · simp [h1, show i < 16 by omega]
  · by_cases h2 : i < 16
    · simp [h1, h2, show i - 8 < 8 by omega, show 8 + (i - 8) = i by omega]
    · by_cases h3 : i < 24
      · simp [h2, show i - 16 < 8 by omega, show 16 + (i - 16) = i by omega]
      · simp [h2, show ¬ i - 16 < 8 by omega, show i - 16 - 8 < 8 by omega, show 24 + (i - 16 - 8) = i by omega]

theorem be32_bytes (a b c d : Byte) : be32 ((a ++ b) ++ (c ++ d)) = [a, b, c, d] := by
  have bits : ∀ k i, i < 8 → (((a ++ b) ++ (c ++ d) : U32).extractLsb' k 8).getLsbD i =
      BitVec.getLsbD (w := (8 + 8) + (8 + 8)) ((a ++ b) ++ (c ++ d)) (k + i) := by
    intro k i hi
    rw [BitVec.getLsbD_extractLsb']
    simp [hi]
  simp only [be32, List.cons.injEq, and_true]
  refine ⟨?_, ?_, ?_, ?_⟩ <;> apply BitVec.eq_of_getLsbD_eq <;> intro i hi <;> rw [bits _ _ hi] <;>
    simp only [BitVec.getLsbD_append]
  · simp [show ¬ 24 + i < 16 by omega, show ¬ 24 + i - 16 < 8 by omega, show 24 + i - 16 - 8 = i by omega]
  · simp [hi]
  · simp [show 8 + i < 16 by omega]
  · simp [show i < 16 by omega, hi]

@[simp] theorem be32_length (v : U32) : (be32 v).length = 4 := rfl

@[simp] theorem serializeHeader_length (h : Header) : (serializeHeader h).length = 16 := rfl

/-- Reading the header that was written. -/
@[simp] theorem readHeader_serializeHeader (h : Header) (rest : Bytes) : readHeader (serializeHeader h ++ rest) = h := by
  obtain ⟨t, q, l, c⟩ := h
  simp only [readHeader, serializeHeader, Header.mk.injEq]
  exact ⟨rd32_bytes t, rd32_bytes q, rd32_bytes l, rd32_bytes c⟩

/-- Writing the header that was read. -/
theorem serializeHeader_readHeader {b : Bytes} (h : 16 ≤ b.length) : serializeHeader (readHeader b) = b.take 16 := by
  match b, h with
  | b0 :: b1 :: b2 :: b3 :: b4 :: b5 :: b6 :: b7 :: b8 :: b9 :: b10 :: b11 :: b12 :: b13 :: b14 :: b15 :: rest, _ =>
    have e : ∀ x0 x1 x2 x3 : Byte, be32 ((x0 ++ x1) ++ (x2 ++ x3)) = [x0, x1, x2, x3] := be32_bytes
    simp only [serializeHeader, readHeader]
    have h0 : rd32 (b0 :: b1 :: b2 :: b3 :: b4 :: b5 :: b6 :: b7 :: b8 :: b9 :: b10 :: b11 :: b12 :: b13 :: b14 :: b15 ::
      rest) 0 = (b0 ++ b1) ++ (b2 ++ b3) := rfl
    have h4 : rd32 (b0 :: b1 :: b2 :: b3 :: b4 :: b5 :: b6 :: b7 :: b8 :: b9 :: b10 :: b11 :: b12 :: b13 :: b14 :: b15 ::
      rest) 4 = (b4 ++ b5) ++ (b6 ++ b7) := rfl
    have h8 : rd32 (b0 :: b1 :: b2 :: b3 :: b4 :: b5 :: b6 :: b7 :: b8 :: b9 :: b10 :: b11 :: b12 :: b13 :: b14 :: b15 ::
      rest) 8 = (b8 ++ b9) ++ (b10 ++ b11) := rfl
    have h12 : rd32 (b0 :: b1 :: b2 :: b3 :: b4 :: b5 :: b6 :: b7 :: b8 :: b9 :: b10 :: b11 :: b12 :: b13 :: b14 :: b15 ::
      rest) 12 = (b12 ++ b13) ++ (b14 ++ b15) := rfl
    rw [h0, h4, h8, h12, e, e, e, e]
    rfl

/-! ### Packets -/

/-- `decode` of a datagram that begins with a header and enough payload (40 R115). -/
theorem decodePacket_append (h : Header) (payload trailing : Bytes) (hl : payload.length = h.length.toNat) :
    decodePacket (serializeHeader h ++ payload ++ trailing) = .packet ⟨h, payload⟩ := by
  have hr : readHeader (serializeHeader h ++ payload ++ trailing) = h := by
    rw [List.append_assoc, readHeader_serializeHeader]
  have hlen : (serializeHeader h ++ payload ++ trailing).length = 16 + payload.length + trailing.length := by simp [Nat.add_assoc]
  unfold decodePacket
  rw [hr, if_neg (by rw [hlen]; omega), if_neg (by rw [hlen]; omega)]
  have hd : (serializeHeader h ++ payload ++ trailing).drop 16 = payload ++ trailing := by
    rw [List.append_assoc, List.drop_left' (serializeHeader_length h)]
  simp only [slice, hd, Nat.add_sub_cancel_left, ← hl, List.take_left']

/-- What `decode` answers, in full. -/
theorem decodePacket_packet {b : Bytes} {p : Packet} (h : decodePacket b = .packet p) :
    16 + p.h.length.toNat ≤ b.length ∧ p.h = readHeader b ∧ p.payload = slice b 16 (16 + p.h.length.toNat) ∧
    p.payload.length = p.h.length.toNat := by
  unfold decodePacket at h
  split at h
  · cases h
  · split at h
    · cases h
    · cases h
      refine ⟨by dsimp only; omega, rfl, rfl, ?_⟩
      simp only [slice, List.length_take, List.length_drop]
      omega

/-- 40 R118 item 2. -/
theorem decodePacket_makePacket (crc : Crc) (t q : U32) (p trailing : Bytes) (hp : p.length < 2 ^ 32) :
    decodePacket (makePacket crc t q p ++ trailing) = .packet ⟨packetHeader crc t q p, p⟩ := by
  refine decodePacket_append (packetHeader crc t q p) p trailing ?_
  simp only [packetHeader, BitVec.toNat_ofNat, Nat.mod_eq_of_lt hp]

@[simp] theorem verify_packetHeader (crc : Crc) (t q : U32) (p : Bytes) :
    verify crc ⟨packetHeader crc t q p, p⟩ = true := by
  simp [verify, packetHeader, computeChecksum]

/-- `verify` in terms of the datagram's own bytes: the checksum field zeroed, nothing beyond the payload (40 R112,
R116). -/
theorem verify_bytes (crc : Crc) {b : Bytes} (h : 16 + (rd32 b 8).toNat ≤ b.length) :
    verify crc ⟨readHeader b, slice b 16 (16 + (rd32 b 8).toNat)⟩ =
      decide (pCrc crc (b.take 12 ++ [0, 0, 0, 0] ++ (b.drop 16).take (rd32 b 8).toNat) = rd32 b 12) := by
  have hs := serializeHeader_readHeader (b := b) (by omega)
  have h0 : be32 0 = [0, 0, 0, 0] := by decide
  have h12 : serializeHeader ⟨(readHeader b).type, (readHeader b).seq, (readHeader b).length, 0⟩ =
      b.take 12 ++ [0, 0, 0, 0] := by
    have ht := congrArg (List.take 12) hs
    rw [List.take_take, show min 12 16 = 12 from rfl] at ht
    rw [← ht]
    simp only [serializeHeader, h0]
    rfl
  simp only [verify, computeChecksum, h12, slice, Nat.add_sub_cancel_left]
  rfl

/-! ### A byte changed in place -/

theorem modify_append_left {l r : Bytes} {f : Byte → Byte} : ∀ {i : Nat}, i < l.length →
    (l ++ r).modify i f = l.modify i f ++ r := by
  induction l with
  | nil => intro i h; cases h
  | cons x l ih =>
    intro i h
    cases i with
    | zero => rfl
    | succ i => simpa using ih (by simpa using h)

theorem modify_append_right {l r : Bytes} {f : Byte → Byte} : ∀ {i : Nat},
    (l ++ r).modify (l.length + i) f = l ++ r.modify i f := by
  induction l with
  | nil => intro i; simp
  | cons x l ih =>
    intro i
    rw [List.length_cons, show l.length + 1 + i = (l.length + i) + 1 by omega]
    simpa using ih

/-- A byte changed outside the checksum field is changed in what P_CRC is computed over (40 R112). -/
theorem zeroChecksum_modify {b : Bytes} (f : Byte → Byte) {i : Nat} (hb : 16 ≤ b.length) (hi : ¬ (12 ≤ i ∧ i < 16)) :
    (b.modify i f).take 12 ++ [0, 0, 0, 0] ++ (b.modify i f).drop 16 =
      (b.take 12 ++ [0, 0, 0, 0] ++ b.drop 16).modify i f := by
  by_cases h : i < 12
  · rw [List.append_assoc, List.append_assoc, modify_append_left (by simp; omega), List.take_modify,
      List.drop_modify_of_lt _ _ _ _ (by omega)]
  · obtain ⟨j, rfl⟩ : ∃ j, i = 16 + j := ⟨i - 16, by omega⟩
    have hl : (b.take 12 ++ [(0 : Byte), 0, 0, 0]).length = 16 := by simp; omega
    rw [← hl, modify_append_right, hl, List.take_modify, List.modify_eq_self (by simp; omega),
      List.drop_modify_of_ge _ _ _ _ (by omega)]
    congr 2
    simp

/-- A field outside which the byte lies reads as before. -/
theorem rd32_modify {b : Bytes} {i o : Nat} (f : Byte → Byte) (h : i < o ∨ o + 4 ≤ i) :
    rd32 (b.modify i f) o = rd32 b o := by
  have at_ne : ∀ j, i ≠ j → byteAt (b.modify i f) j = byteAt b j := fun j hj => by
    simp [byteAt, List.getD_eq_getElem?_getD, hj]
  unfold rd32
  rw [at_ne _ (by omega), at_ne _ (by omega), at_ne _ (by omega), at_ne _ (by omega)]

/-! ### CRC-32 -/

theorem crcShift_injective : Function.Injective crcShift := by
  intro a b h
  have top : ∀ c : U32, (crcShift c).getLsbD 31 = c.getLsbD 0 := by
    intro c
    unfold crcShift
    split
    · rename_i hc; rw [BitVec.getLsbD_xor, BitVec.getLsbD_ushiftRight, hc]; simp
    · rename_i hc; simp only [Bool.not_eq_true] at hc; rw [BitVec.getLsbD_ushiftRight, hc]; simp
  have h0 : a.getLsbD 0 = b.getLsbD 0 := by rw [← top a, ← top b, h]
  have hs : a >>> 1 = b >>> 1 := by
    unfold crcShift at h
    rw [h0] at h
    split at h
    · exact (BitVec.xor_left_inj _).mp h
    · exact h
  apply BitVec.eq_of_getLsbD_eq
  intro i hi
  cases i with
  | zero => exact h0
  | succ i =>
    have := congrArg (fun v => v.getLsbD i) hs
    simpa [BitVec.getLsbD_ushiftRight, Nat.add_comm 1 i] using this

theorem crcShift8_injective : Function.Injective crcShift8 := by
  intro a b h
  have i := crcShift_injective
  exact i (i (i (i (i (i (i (i h)))))))

theorem setWidth_injective : Function.Injective (fun b : Byte => (b.setWidth 32 : U32)) := by
  intro a b h
  have := congrArg BitVec.toNat h
  simp only [BitVec.toNat_setWidth] at this
  apply BitVec.eq_of_toNat_eq
  have ha := a.isLt; have hb := b.isLt
  omega

theorem crcLoop_injective (data : Bytes) : Function.Injective (fun c => crcLoop c data) := by
  induction data with
  | nil => intro a b h; exact h
  | cons x rest ih =>
    intro a b h
    have h2 : crcShift8 (a ^^^ x.setWidth 32) = crcShift8 (b ^^^ x.setWidth 32) := ih h
    exact (BitVec.xor_left_inj _).mp (crcShift8_injective h2)

theorem crcLoop_append (c : U32) (x y : Bytes) : crcLoop c (x ++ y) = crcLoop (crcLoop c x) y := by
  simp [crcLoop, List.foldl_append]

/-- One byte changed, CRC-32 changed (the reason 40 R118 items 3 and 4 hold). -/
theorem crc32_ne_of_byte (x y : Bytes) {a b : Byte} (h : a ≠ b) : crc32 (x ++ a :: y) ≠ crc32 (x ++ b :: y) := by
  intro e
  have e2 := (BitVec.xor_left_inj _).mp e
  rw [crcLoop_append, crcLoop_append] at e2
  have e3 := crcLoop_injective y (show crcLoop (crcShift8 (crcLoop 0xFFFFFFFF#32 x ^^^ a.setWidth 32)) y =
    crcLoop (crcShift8 (crcLoop 0xFFFFFFFF#32 x ^^^ b.setWidth 32)) y from e2)
  have e4 := (BitVec.xor_right_inj _).mp (crcShift8_injective e3)
  exact h (setWidth_injective e4)

/-- The same, for a byte changed in place. -/
theorem crc32_modify_ne {x : Bytes} {i : Nat} (h : i < x.length) {f : Byte → Byte} (hf : ∀ b, f b ≠ b) :
    crc32 (x.modify i f) ≠ crc32 x := by
  have hx : x = x.take i ++ x[i] :: x.drop (i + 1) := by
    rw [List.getElem_cons_drop h, List.take_append_drop]
  rw [List.modify_eq_take_cons_drop h]
  conv_rhs => rw [hx]
  exact crc32_ne_of_byte _ _ (hf _)

/-- A flipped bit changes its byte. -/
theorem flip_ne (b : Byte) (k : Nat) : b ^^^ (1#8 <<< (k % 8)) ≠ b := by
  intro h
  have h2 : 1#8 <<< (k % 8) = 0 := by
    have h3 := congrArg (fun v => b ^^^ v) h
    simpa [← BitVec.xor_assoc] using h3
  have hk : k % 8 < 8 := Nat.mod_lt _ (by decide)
  revert h2
  generalize k % 8 = j at hk
  revert j
  decide

theorem crc32_detectsFlips : DetectsFlips crc32 := fun _ k h => crc32_modify_ne (by omega) fun b => flip_ne b k

/-- Every `P_CRC` that an instance may have detects every single-bit error (40 R118). -/
theorem Config.Ok.detectsFlips {c : Config} (h : c.Ok) : DetectsFlips (pCrc c.crc) := by
  obtain ⟨-, -, -, -, h⟩ := h
  cases hc : c.crc with
  | isoHdlc => exact crc32_detectsFlips
  | replaced k => exact h k hc

end Sys2Proof.Machine
end

