-- ==== Sys2Proof/Laws/State.lean ====
section
/-! SUPPORT. What each update of the state leaves in each field: one lemma for a field and an update, each true by
definition. -/

namespace Sys2Proof.Machine

/-! ### emit -/

@[simp] theorem emit_cfg (o : Output) (s : State) : (emit o s).cfg = s.cfg := rfl
@[simp] theorem emit_snd (o : Output) (s : State) : (emit o s).snd = s.snd := rfl
@[simp] theorem emit_rcv (o : Output) (s : State) : (emit o s).rcv = s.rcv := rfl
@[simp] theorem emit_now (o : Output) (s : State) : (emit o s).now = s.now := rfl
@[simp] theorem emit_channel (o : Output) (s : State) : (emit o s).channel = s.channel := rfl
@[simp] theorem emit_inputs (o : Output) (s : State) : (emit o s).inputs = s.inputs := rfl
@[simp] theorem emit_outputs (o : Output) (s : State) : (emit o s).outputs = s.outputs ++ [o] := rfl
@[simp] theorem emit_freeCount (o : Output) (s : State) : (emit o s).freeCount = s.freeCount := rfl

/-! ### respond -/

@[simp] theorem respond_cfg (c : Status) (r : List Value) (s : State) : (respond c r s).cfg = s.cfg := rfl
@[simp] theorem respond_snd (c : Status) (r : List Value) (s : State) : (respond c r s).snd = s.snd := rfl
@[simp] theorem respond_rcv (c : Status) (r : List Value) (s : State) : (respond c r s).rcv = s.rcv := rfl
@[simp] theorem respond_now (c : Status) (r : List Value) (s : State) : (respond c r s).now = s.now := rfl
@[simp] theorem respond_channel (c : Status) (r : List Value) (s : State) : (respond c r s).channel = s.channel := rfl
@[simp] theorem respond_inputs (c : Status) (r : List Value) (s : State) : (respond c r s).inputs = s.inputs := rfl
@[simp] theorem respond_outputs (c : Status) (r : List Value) (s : State) : (respond c r s).outputs = s.outputs ++ [.resp c r] := rfl
@[simp] theorem respond_freeCount (c : Status) (r : List Value) (s : State) : (respond c r s).freeCount = s.freeCount := rfl

/-! ### putDatagram -/

@[simp] theorem putDatagram_cfg (d : Datagram) (s : State) : (putDatagram d s).cfg = s.cfg := rfl
@[simp] theorem putDatagram_snd (d : Datagram) (s : State) : (putDatagram d s).snd = s.snd := rfl
@[simp] theorem putDatagram_rcv (d : Datagram) (s : State) : (putDatagram d s).rcv = s.rcv := rfl
@[simp] theorem putDatagram_now (d : Datagram) (s : State) : (putDatagram d s).now = s.now := rfl
@[simp] theorem putDatagram_channel (d : Datagram) (s : State) : (putDatagram d s).channel = s.channel ++ [d] := rfl
@[simp] theorem putDatagram_inputs (d : Datagram) (s : State) : (putDatagram d s).inputs = s.inputs := rfl
@[simp] theorem putDatagram_outputs (d : Datagram) (s : State) : (putDatagram d s).outputs = s.outputs := rfl
@[simp] theorem putDatagram_freeCount (d : Datagram) (s : State) : (putDatagram d s).freeCount = s.freeCount := rfl

/-! ### transmit -/

@[simp] theorem transmit_cfg (e : Engine) (a : Addr) (b : Bytes) (s : State) : (transmit e a b s).cfg = s.cfg := rfl
@[simp] theorem transmit_snd (e : Engine) (a : Addr) (b : Bytes) (s : State) : (transmit e a b s).snd = s.snd := rfl
@[simp] theorem transmit_rcv (e : Engine) (a : Addr) (b : Bytes) (s : State) : (transmit e a b s).rcv = s.rcv := rfl
@[simp] theorem transmit_now (e : Engine) (a : Addr) (b : Bytes) (s : State) : (transmit e a b s).now = s.now := rfl
@[simp] theorem transmit_channel (e : Engine) (a : Addr) (b : Bytes) (s : State) : (transmit e a b s).channel = s.channel ++ [⟨a, engineAddr e s, b⟩] := rfl
@[simp] theorem transmit_inputs (e : Engine) (a : Addr) (b : Bytes) (s : State) : (transmit e a b s).inputs = s.inputs := rfl
@[simp] theorem transmit_freeCount (e : Engine) (a : Addr) (b : Bytes) (s : State) : (transmit e a b s).freeCount = s.freeCount := rfl

@[simp] theorem transmit_snd_outputs (a : Addr) (b : Bytes) (s : State) :
    (transmit .snd a b s).outputs = s.outputs ++ [.txSnd b a] := rfl
@[simp] theorem transmit_rcv_outputs (a : Addr) (b : Bytes) (s : State) :
    (transmit .rcv a b s).outputs = s.outputs ++ [.txRcv b a] := rfl

/-! ### leaveInChannel -/

@[simp] theorem leaveInChannel_cfg (e : Engine) (a : Addr) (b : Bytes) (s : State) : (leaveInChannel e a b s).cfg = s.cfg := rfl
@[simp] theorem leaveInChannel_snd (e : Engine) (a : Addr) (b : Bytes) (s : State) : (leaveInChannel e a b s).snd = s.snd := rfl
@[simp] theorem leaveInChannel_rcv (e : Engine) (a : Addr) (b : Bytes) (s : State) : (leaveInChannel e a b s).rcv = s.rcv := rfl
@[simp] theorem leaveInChannel_now (e : Engine) (a : Addr) (b : Bytes) (s : State) : (leaveInChannel e a b s).now = s.now := rfl
@[simp] theorem leaveInChannel_channel (e : Engine) (a : Addr) (b : Bytes) (s : State) : (leaveInChannel e a b s).channel = s.channel ++ [⟨engineAddr e s, a, b⟩] := rfl
@[simp] theorem leaveInChannel_inputs (e : Engine) (a : Addr) (b : Bytes) (s : State) : (leaveInChannel e a b s).inputs = s.inputs := rfl
@[simp] theorem leaveInChannel_outputs (e : Engine) (a : Addr) (b : Bytes) (s : State) : (leaveInChannel e a b s).outputs = s.outputs := rfl
@[simp] theorem leaveInChannel_freeCount (e : Engine) (a : Addr) (b : Bytes) (s : State) : (leaveInChannel e a b s).freeCount = s.freeCount := rfl

/-! ### beginWait -/

@[simp] theorem beginWait_cfg (s : State) : (beginWait s).cfg = s.cfg := rfl
@[simp] theorem beginWait_snd (s : State) : (beginWait s).snd = { s.snd with waitLeft := s.cfg.rxTimeout } := rfl
@[simp] theorem beginWait_rcv (s : State) : (beginWait s).rcv = s.rcv := rfl
@[simp] theorem beginWait_now (s : State) : (beginWait s).now = s.now := rfl
@[simp] theorem beginWait_channel (s : State) : (beginWait s).channel = s.channel := rfl
@[simp] theorem beginWait_inputs (s : State) : (beginWait s).inputs = s.inputs := rfl
@[simp] theorem beginWait_outputs (s : State) : (beginWait s).outputs = s.outputs := rfl
@[simp] theorem beginWait_freeCount (s : State) : (beginWait s).freeCount = s.freeCount := rfl

/-! ### rcvRaise -/

@[simp] theorem rcvRaise_cfg (c : Cause) (r : Receiver) (s : State) : (rcvRaise c r s).cfg = s.cfg := rfl
@[simp] theorem rcvRaise_snd (c : Cause) (r : Receiver) (s : State) : (rcvRaise c r s).snd = s.snd := rfl
@[simp] theorem rcvRaise_rcv (c : Cause) (r : Receiver) (s : State) : (rcvRaise c r s).rcv = { r with fault := some c } := rfl
@[simp] theorem rcvRaise_now (c : Cause) (r : Receiver) (s : State) : (rcvRaise c r s).now = s.now := rfl
@[simp] theorem rcvRaise_channel (c : Cause) (r : Receiver) (s : State) : (rcvRaise c r s).channel = s.channel := rfl
@[simp] theorem rcvRaise_inputs (c : Cause) (r : Receiver) (s : State) : (rcvRaise c r s).inputs = s.inputs := rfl
@[simp] theorem rcvRaise_outputs (c : Cause) (r : Receiver) (s : State) : (rcvRaise c r s).outputs = s.outputs ++ [.fault c] := rfl
@[simp] theorem rcvRaise_freeCount (c : Cause) (r : Receiver) (s : State) : (rcvRaise c r s).freeCount = s.freeCount := rfl

/-! ### rcvAck -/

@[simp] theorem rcvAck_cfg (a : Addr) (q : U32) (s : State) : (rcvAck a q s).cfg = s.cfg := rfl
@[simp] theorem rcvAck_snd (a : Addr) (q : U32) (s : State) : (rcvAck a q s).snd = s.snd := rfl
@[simp] theorem rcvAck_rcv (a : Addr) (q : U32) (s : State) : (rcvAck a q s).rcv = s.rcv := rfl
@[simp] theorem rcvAck_now (a : Addr) (q : U32) (s : State) : (rcvAck a q s).now = s.now := rfl
@[simp] theorem rcvAck_channel (a : Addr) (q : U32) (s : State) : (rcvAck a q s).channel = s.channel ++ [⟨a, engineAddr .rcv s, ackPacket s.cfg.crc q⟩] := rfl
@[simp] theorem rcvAck_inputs (a : Addr) (q : U32) (s : State) : (rcvAck a q s).inputs = s.inputs := rfl
@[simp] theorem rcvAck_outputs (a : Addr) (q : U32) (s : State) : (rcvAck a q s).outputs = s.outputs ++ [.txRcv (ackPacket s.cfg.crc q) a] := rfl
@[simp] theorem rcvAck_freeCount (a : Addr) (q : U32) (s : State) : (rcvAck a q s).freeCount = s.freeCount := rfl

/-! ### sndConnected -/

@[simp] theorem sndConnected_cfg (s : State) : (sndConnected s).cfg = s.cfg := rfl
@[simp] theorem sndConnected_snd (s : State) : (sndConnected s).snd = { s.snd with state := .established, base := 1, next := 1 } := rfl
@[simp] theorem sndConnected_rcv (s : State) : (sndConnected s).rcv = s.rcv := rfl
@[simp] theorem sndConnected_now (s : State) : (sndConnected s).now = s.now := rfl
@[simp] theorem sndConnected_channel (s : State) : (sndConnected s).channel = s.channel := rfl
@[simp] theorem sndConnected_inputs (s : State) : (sndConnected s).inputs = s.inputs := rfl
@[simp] theorem sndConnected_outputs (s : State) : (sndConnected s).outputs = s.outputs ++ [.connected] := rfl
@[simp] theorem sndConnected_freeCount (s : State) : (sndConnected s).freeCount = s.freeCount := rfl

/-! ### sndCloseAcked -/

@[simp] theorem sndCloseAcked_cfg (s : State) : (sndCloseAcked s).cfg = s.cfg := rfl
@[simp] theorem sndCloseAcked_snd (s : State) : (sndCloseAcked s).snd = { s.snd with state := .closed, closeAcked := true } := rfl
@[simp] theorem sndCloseAcked_rcv (s : State) : (sndCloseAcked s).rcv = s.rcv := rfl
@[simp] theorem sndCloseAcked_now (s : State) : (sndCloseAcked s).now = s.now := rfl
@[simp] theorem sndCloseAcked_channel (s : State) : (sndCloseAcked s).channel = s.channel := rfl
@[simp] theorem sndCloseAcked_inputs (s : State) : (sndCloseAcked s).inputs = s.inputs := rfl
@[simp] theorem sndCloseAcked_outputs (s : State) : (sndCloseAcked s).outputs = s.outputs ++ [.closed true] := rfl
@[simp] theorem sndCloseAcked_freeCount (s : State) : (sndCloseAcked s).freeCount = s.freeCount := rfl

/-! ### deadlineExpiry -/

@[simp] theorem deadlineExpiry_cfg (s : State) : (deadlineExpiry s).cfg = s.cfg := rfl
@[simp] theorem deadlineExpiry_snd (s : State) : (deadlineExpiry s).snd = { s.snd with state := .closed, closeAcked := false } := rfl
@[simp] theorem deadlineExpiry_rcv (s : State) : (deadlineExpiry s).rcv = s.rcv := rfl
@[simp] theorem deadlineExpiry_now (s : State) : (deadlineExpiry s).now = s.now := rfl
@[simp] theorem deadlineExpiry_channel (s : State) : (deadlineExpiry s).channel = s.channel := rfl
@[simp] theorem deadlineExpiry_inputs (s : State) : (deadlineExpiry s).inputs = s.inputs := rfl
@[simp] theorem deadlineExpiry_outputs (s : State) : (deadlineExpiry s).outputs = s.outputs ++ [.closed false] := rfl
@[simp] theorem deadlineExpiry_freeCount (s : State) : (deadlineExpiry s).freeCount = s.freeCount := rfl

/-! ### The addresses of the engines -/

@[simp] theorem engineAddr_snd (s : State) : engineAddr .snd s = s.cfg.sndAddr := rfl
@[simp] theorem engineAddr_rcv (s : State) : engineAddr .rcv s = s.rcv.localAddr.getD s.cfg.rcvAddr := rfl

/-! ### Answers -/

@[simp] theorem answer_ok (s : State) : answer (.ok s) = .next s := rfl
@[simp] theorem answer_error (r : Fault) : answer (.error r) = .fault r := rfl

theorem answer_next {x : Eff} {t : State} (h : answer x = .next t) : x = .ok t := by
  cases x with
  | ok s => simp only [answer_ok, Host.Outcome.next.injEq] at h; rw [h]
  | error r => simp [answer] at h

end Sys2Proof.Machine
end

