-- ==== Sys2Proof/Laws/Sender.lean ====
section
/-! SUPPORT. The send loop (43 R188, R192, R193): what FillWindow, go-back-N and LoopHead leave, said once. -/

namespace Sys2Proof.Machine

/-! ### Narrowing -/

theorem narrow_ok {n : Nat} (h : n < 2 ^ 32) : narrow n = .ok (BitVec.ofNat 32 n) := if_pos h

theorem narrow_eq_ok {n : Nat} {k : U32} (h : narrow n = .ok k) : k.toNat = n ∧ n < 2 ^ 32 := by
  unfold narrow at h
  split at h
  · rename_i hn
    simp only [Except.ok.injEq] at h
    subst h
    simp only [BitVec.toNat_ofNat]
    exact ⟨Nat.mod_eq_of_lt hn, hn⟩
  · cases h

theorem ofNat_toNat_u32 {n : Nat} (h : n < 2 ^ 32) : (BitVec.ofNat 32 n).toNat = n := by
  rw [BitVec.toNat_ofNat, Nat.mod_eq_of_lt h]

/-! ### Sending -/

theorem sndTx_some {s : State} {a : Addr} (h : s.snd.peer = some a) (b : Bytes) :
    sndTx b s = .ok (transmit .snd a b s) := by simp [sndTx, h]

theorem sndTx_ok {s t : State} {b : Bytes} (h : sndTx b s = .ok t) :
    ∃ a, s.snd.peer = some a ∧ t = transmit .snd a b s := by
  unfold sndTx at h
  split at h
  · cases h
  · rename_i a ha; simp only [Except.ok.injEq] at h; exact ⟨a, ha, h.symm⟩

theorem sendAll_nil (a : Addr) (s : State) : sendAll a [] s.snd s = s := by simp [sendAll]

theorem sendAll_cons (a : Addr) (b : Bytes) (l : List Bytes) (x y : Sender) (s : State) :
    sendAll a l y (sendAll a [b] x s) = sendAll a (b :: l) y s := by simp [sendAll]

theorem imagesFrom_zero (x : Sender) (q : Nat) : imagesFrom x q 0 = [] := rfl

theorem imagesFrom_succ (x : Sender) (q c : Nat) :
    imagesFrom x q (c + 1) = (mapGet x.pkt (BitVec.ofNat 32 q)).getD [] :: imagesFrom x (q + 1) c := by
  simp [imagesFrom, List.range'_succ]

theorem freshRecords_succ (x : Sender) (now q c : Nat) :
    freshRecords x now q (c + 1) =
      (BitVec.ofNat 32 q, ⟨BitVec.ofNat 32 q, (mapGet x.pkt (BitVec.ofNat 32 q)).getD [], now, false⟩) ::
        freshRecords x now (q + 1) c := by
  simp [freshRecords, List.range'_succ]

/-- The sender with another outstanding set. -/
def withOutstanding (x : Sender) (m : UMap Outstanding) : Sender := { x with outstanding := m }

/-- One round of FillWindow. -/
theorem sendFresh_ok {s : State} {a : Addr} {q : Nat} {image : Bytes} (hq : q < 2 ^ 32)
    (hp : s.snd.peer = some a) (hi : mapGet s.snd.pkt (BitVec.ofNat 32 q) = some image) :
    sendFresh q s = .ok (sendAll a [image] (withOutstanding s.snd
      (mapInsert s.snd.outstanding (BitVec.ofNat 32 q) ⟨BitVec.ofNat 32 q, image, s.now, false⟩)) s) := by
  simp only [sendFresh, narrow_ok hq, hi, sndTx_some hp]
  rfl

/-- FillWindow's loop, all of it. -/
theorem forRange_sendFresh {c q : Nat} {s : State} {a : Addr} (hp : s.snd.peer = some a) (hq : q + c ≤ 2 ^ 32)
    (hi : ∀ k, q ≤ k → k < q + c → (mapGet s.snd.pkt (BitVec.ofNat 32 k)).isSome = true) :
    forRange sendFresh c q s = .ok (sendAll a (imagesFrom s.snd q c) (withOutstanding s.snd
      (mapInsertAll s.snd.outstanding (freshRecords s.snd s.now q c))) s) := by
  induction c generalizing q s with
  | zero => exact congrArg Except.ok (sendAll_nil a s).symm
  | succ c ih =>
    obtain ⟨image, hg⟩ := Option.isSome_iff_exists.mp (hi q (Nat.le_refl _) (by omega))
    simp only [forRange, sendFresh_ok (by omega) hp hg]
    refine (ih (q := q + 1) (s := sendAll a [image] (withOutstanding s.snd (mapInsert s.snd.outstanding
      (BitVec.ofNat 32 q) ⟨BitVec.ofNat 32 q, image, s.now, false⟩)) s) hp (by omega)
      (fun k h1 h2 => hi k (by omega) (by omega))).trans (congrArg Except.ok ?_)
    rw [sendAll_cons, imagesFrom_succ, freshRecords_succ, hg]
    rfl

theorem keyNats_freshRecords (x : Sender) (now q c : Nat) (h : q + c ≤ 2 ^ 32) :
    keyNats (freshRecords x now q c) = List.range' q c := by
  simp only [keyNats, freshRecords, List.map_map]
  conv_rhs => rw [← List.map_id (List.range' q c)]
  refine List.map_congr_left fun k hk => ?_
  have := List.mem_range'_1.mp hk
  simp only [Function.comp, id]
  exact ofNat_toNat_u32 (by omega)

theorem mem_keyNats {V : Type} {m : UMap V} {e : U32 × V} (h : e ∈ m) : e.1.toNat ∈ keyNats m :=
  List.mem_map_of_mem (f := fun e : U32 × V => e.1.toNat) h

/-- New records go after those that are there. -/
theorem mapInsertAll_freshRecords {x : Sender} {b now c : Nat} (hb : b ≤ x.next.toNat)
    (hk : keyNats x.outstanding = List.range' b (x.next.toNat - b)) (h : x.next.toNat + c ≤ 2 ^ 32) :
    mapInsertAll x.outstanding (freshRecords x now x.next.toNat c) =
      x.outstanding ++ freshRecords x now x.next.toNat c := by
  have hf := keyNats_freshRecords x now x.next.toNat c h
  refine mapInsertAll_append (mapWf_of_keyNats_range' hf) fun e he d hd => ?_
  have h1 := mem_keyNats he
  have h2 := mem_keyNats hd
  rw [hk, List.mem_range'_1] at h1
  rw [hf, List.mem_range'_1] at h2
  omega

/-- The sender after FillWindow. -/
def filledSender (x : Sender) (now : Nat) : Sender :=
  { x with
    outstanding := x.outstanding ++ freshRecords x now x.next.toNat (fillEdge x - x.next.toNat)
    next := BitVec.ofNat 32 (max x.next.toNat (fillEdge x)) }

/-- FillWindow while a stream is loaded. -/
theorem fillWindow_ok {s : State} {a : Addr} (hp : s.snd.peer = some a) (hl : StreamLoaded s.cfg.crc s.snd s.now) :
    fillWindow s = .ok (sendAll a (imagesFrom s.snd s.snd.next.toNat (fillEdge s.snd - s.snd.next.toNat))
      (filledSender s.snd s.now) s) := by
  obtain ⟨-, hn, hpk, -, hb, ⟨hk, hbn, -, -⟩, -⟩ := hl
  have hnext := s.snd.next.isLt
  have hedge : fillEdge s.snd ≤ s.snd.n.toNat + 1 := Nat.min_le_right _ _
  unfold fillWindow
  rw [forRange_sendFresh hp (by omega) (fun k h1 h2 => by
    have hk' : (BitVec.ofNat 32 k).toNat = k := ofNat_toNat_u32 (by omega)
    rw [mapGet_isSome_iff, hpk, hk', List.mem_range'_1]
    omega)]
  simp only [narrow_ok (show max s.snd.next.toNat (fillEdge s.snd) < 2 ^ 32 by omega)]
  rw [mapInsertAll_freshRecords hbn hk (by omega)]
  rfl

theorem loopHead_done {s : State} (h : s.snd.n.toNat < s.snd.base.toNat) :
    loopHead s = .ok (emit .sendDone { s with snd := { s.snd with active := false } }) := by
  simp [loopHead, h]

theorem loopHead_fill {s : State} {a : Addr} (h : s.snd.base.toNat ≤ s.snd.n.toNat) (hp : s.snd.peer = some a)
    (hl : StreamLoaded s.cfg.crc s.snd s.now) :
    loopHead s = .ok (beginWait
      (sendAll a (imagesFrom s.snd s.snd.next.toNat (fillEdge s.snd - s.snd.next.toNat))
        (filledSender s.snd s.now) s)) := by
  unfold loopHead
  rw [if_neg (by omega), fillWindow_ok hp hl]

theorem filledSender_loaded {crc : Crc} {x : Sender} {now : Nat} (hl : StreamLoaded crc x now) :
    StreamLoaded crc (filledSender x now) now := by
  obtain ⟨h1, hn, hpk, hi, hb, ⟨hk, hbn, hw, hm⟩, hr⟩ := hl
  have hnext := x.next.isLt
  have hedge : fillEdge x ≤ x.n.toNat + 1 := Nat.min_le_right _ _
  have hedge2 : fillEdge x ≤ x.base.toNat + x.win.toNat := Nat.min_le_left _ _
  have hmax : (BitVec.ofNat 32 (max x.next.toNat (fillEdge x))).toNat = max x.next.toNat (fillEdge x) :=
    ofNat_toNat_u32 (by omega)
  refine ⟨h1, hn, hpk, hi, hb, ⟨?_, ?_, ?_, ?_⟩, ?_⟩
  · simp only [filledSender, hmax]
    have hf := keyNats_freshRecords x now x.next.toNat (fillEdge x - x.next.toNat) (by omega)
    simp only [keyNats, List.map_append] at hk hf ⊢
    rw [hk, hf]
    have := @List.range'_append x.base.toNat (x.next.toNat - x.base.toNat) (fillEdge x - x.next.toNat) 1
    rw [Nat.one_mul, show x.base.toNat + (x.next.toNat - x.base.toNat) = x.next.toNat by omega] at this
    rw [this]
    congr 1
    omega
  · simp only [filledSender, hmax]; omega
  · simp only [filledSender, hmax]; omega
  · simp only [filledSender, hmax]; omega
  · intro e he
    simp only [filledSender] at he ⊢
    rcases List.mem_append.mp he with he | he
    · exact hr e he
    · simp only [freshRecords, List.mem_map, List.mem_range'_1] at he
      obtain ⟨k, hk2, rfl⟩ := he
      have hkn : (BitVec.ofNat 32 k).toNat = k := ofNat_toNat_u32 (by omega)
      obtain ⟨v, hv⟩ := mapGet_isSome_of_range' hpk (q := BitVec.ofNat 32 k) (by omega) (by omega)
      exact ⟨rfl, by simp [hv], Nat.le_refl _, rfl⟩

/-! ### Go-back-N -/

/-- Writing over the record of `q`. -/
theorem mapInsert_present {V : Type} {m : UMap V} (hw : MapWf m) {q : U32} {w : V} (h : mapGet m q = some w) (v : V) :
    mapInsert m q v = m.map (fun e => if e.1 = q then (e.1, v) else e) := by
  induction m with
  | nil => simp at h
  | cons d rest ih =>
    obtain ⟨k, u⟩ := d
    have hw' := mapWf_cons.mp hw
    by_cases hk : k = q
    · subst hk
      have : ∀ e ∈ rest, (if e.1 = k then (e.1, v) else e) = e := fun e he => by
        have := hw'.1 e he
        rw [if_neg (fun h => by rw [h] at this; exact absurd this (Nat.lt_irrefl _))]
      simp only [mapInsert, Nat.lt_irrefl, if_false, if_true, List.map_cons]
      rw [List.map_congr_left this, List.map_id']
    · rw [mapGet_cons_ne hk] at h
      have := hw'.1 _ (mem_of_mapGet h)
      simp only [mapInsert, List.map_cons]
      rw [if_neg (by simp at this; omega), if_neg hk, if_neg hk, ih hw'.2 h]

/-- The records of the `c` sequence numbers from `q` on, with their `last_sent_at` at `now`. -/
def refreshRange (m : UMap Outstanding) (now q c : Nat) : UMap Outstanding :=
  m.map (fun e => if q ≤ e.1.toNat ∧ e.1.toNat < q + c then (e.1, { e.2 with lastSentAt := now }) else e)

theorem keyNats_refreshRange (m : UMap Outstanding) (now q c : Nat) :
    keyNats (refreshRange m now q c) = keyNats m := by
  simp only [keyNats, refreshRange, List.map_map]
  refine List.map_congr_left fun e _ => ?_
  simp only [Function.comp]
  split <;> rfl

theorem refreshRange_all {m : UMap Outstanding} {now q c : Nat} (h : keyNats m = List.range' q c) :
    refreshRange m now q c = refreshed m now := by
  refine List.map_congr_left fun e he => ?_
  have := mem_keyNats he
  rw [h, List.mem_range'_1] at this
  rw [if_pos this]

theorem mapGet_isSome_of_keyNats {V W : Type} {m : UMap V} {m' : UMap W} (h : keyNats m = keyNats m') (q : U32) :
    (mapGet m q).isSome = (mapGet m' q).isSome := by
  rw [Bool.eq_iff_iff, mapGet_isSome_iff, mapGet_isSome_iff, h]

/-- One round of go-back-N. -/
theorem resendOne_ok {s : State} {a : Addr} {q : Nat} {image : Bytes} {record : Outstanding} (hq : q < 2 ^ 32)
    (hp : s.snd.peer = some a) (hi : mapGet s.snd.pkt (BitVec.ofNat 32 q) = some image)
    (hr : mapGet s.snd.outstanding (BitVec.ofNat 32 q) = some record) :
    resendOne q s = .ok (sendAll a [image] (withOutstanding s.snd
      (mapInsert s.snd.outstanding (BitVec.ofNat 32 q) { record with lastSentAt := s.now })) s) := by
  simp only [resendOne, narrow_ok hq, hi, hr, sndTx_some hp]
  rfl

theorem refreshRange_succ {m : UMap Outstanding} (hw : MapWf m) {q : Nat} (hq : q < 2 ^ 32) {record : Outstanding}
    (hr : mapGet m (BitVec.ofNat 32 q) = some record) (now c : Nat) :
    refreshRange (mapInsert m (BitVec.ofNat 32 q) { record with lastSentAt := now }) now (q + 1) c =
      refreshRange m now q (c + 1) := by
  have hqn : (BitVec.ofNat 32 q).toNat = q := ofNat_toNat_u32 hq
  rw [mapInsert_present hw hr]
  simp only [refreshRange, List.map_map]
  refine List.map_congr_left fun e he => ?_
  simp only [Function.comp]
  by_cases hk : e.1 = BitVec.ofNat 32 q
  · have hrec : e.2 = record := by
      have := mapGet_of_mem hw (q := e.1) (v := e.2) he
      rw [hk, hr] at this
      exact (Option.some.inj this).symm
    rw [if_pos hk, if_neg (by dsimp only; rw [hk, hqn]; omega), if_pos (by rw [hk, hqn]; omega), hrec]
  · have hne := u32_toNat_ne hk
    rw [hqn] at hne
    rw [if_neg hk]
    by_cases hc : q + 1 ≤ e.1.toNat ∧ e.1.toNat < q + 1 + c
    · rw [if_pos hc, if_pos (by omega)]
    · rw [if_neg hc, if_neg (by omega)]

theorem refreshRange_zero (m : UMap Outstanding) (now q : Nat) : refreshRange m now q 0 = m := by
  simp only [refreshRange]
  conv_rhs => rw [← List.map_id m]
  exact List.map_congr_left fun e _ => if_neg (by omega)

/-- Go-back-N's loop, all of it. -/
theorem forRange_resendOne {c q : Nat} {s : State} {a : Addr} (hp : s.snd.peer = some a) (hq : q + c ≤ 2 ^ 32)
    (hw : MapWf s.snd.outstanding)
    (hi : ∀ k, q ≤ k → k < q + c → (mapGet s.snd.pkt (BitVec.ofNat 32 k)).isSome = true)
    (ho : ∀ k, q ≤ k → k < q + c → (mapGet s.snd.outstanding (BitVec.ofNat 32 k)).isSome = true) :
    forRange resendOne c q s = .ok (sendAll a (imagesFrom s.snd q c) (withOutstanding s.snd
      (refreshRange s.snd.outstanding s.now q c)) s) := by
  induction c generalizing q s with
  | zero =>
    rw [refreshRange_zero]
    exact congrArg Except.ok (sendAll_nil a s).symm
  | succ c ih =>
    obtain ⟨image, hg⟩ := Option.isSome_iff_exists.mp (hi q (Nat.le_refl _) (by omega))
    obtain ⟨record, hr⟩ := Option.isSome_iff_exists.mp (ho q (Nat.le_refl _) (by omega))
    have hkeys := keyNats_mapInsert_present hw hr { record with lastSentAt := s.now }
    simp only [forRange, resendOne_ok (show q < 2 ^ 32 by omega) hp hg hr]
    refine (ih (q := q + 1) (s := sendAll a [image] (withOutstanding s.snd (mapInsert s.snd.outstanding
      (BitVec.ofNat 32 q) { record with lastSentAt := s.now })) s) hp (by omega)
      (mapWf_mapInsert hw _ _) (fun k h1 h2 => hi k (by omega) (by omega))
      (fun k h1 h2 => ?_)).trans (congrArg Except.ok ?_)
    · exact (mapGet_isSome_of_keyNats hkeys _).trans (ho k (by omega) (by omega))
    · rw [sendAll_cons, imagesFrom_succ, hg, ← refreshRange_succ hw (by omega) hr]
      rfl

end Sys2Proof.Machine
end

