-- ==== Sys2Proof/Laws/Window.lean ====
section
/-! SUPPORT. What `advance` does (41 R141): one lemma for each of its two answers. -/

namespace Sys2Proof.Machine

theorem runPayload_zero (m : UMap Bytes) (b : Nat) : runPayload m b 0 = [] := rfl

theorem runPayload_succ (m : UMap Bytes) (b n : Nat) :
    runPayload m b (n + 1) = (mapGet m (BitVec.ofNat 32 b)).getD [] ++ runPayload m (b + 1) n := by
  simp [runPayload, List.range'_succ]

theorem runPayload_congr {m m' : UMap Bytes} {b n : Nat}
    (h : ∀ k, b ≤ k → k < b + n → mapGet m (BitVec.ofNat 32 k) = mapGet m' (BitVec.ofNat 32 k)) :
    runPayload m b n = runPayload m' b n := by
  induction n generalizing b with
  | zero => rfl
  | succ n ih =>
    rw [runPayload_succ, runPayload_succ, h b (Nat.le_refl _) (by omega),
      ih (fun k h1 h2 => h k (by omega) (by omega))]

/-- What `advance` does where it answers: it drains the numbers from `b` to below `b'`, all of them present, and stops
at the first that is absent. -/
structure Drained (b : U32) (m : UMap Bytes) (out : Bytes) (b' : U32) (m' : UMap Bytes) (out' : Bytes) : Prop where
  le       : b.toNat ≤ b'.toNat
  bound    : b' = b ∨ b'.toNat ≤ 2 ^ 32 - 2
  present  : ∀ q : U32, b.toNat ≤ q.toNat → q.toNat < b'.toNat → ∃ p, mapGet m q = some p
  stops    : mapGet m b' = none
  rest     : ∀ e, e ∈ m' ↔ e ∈ m ∧ ¬ (b.toNat ≤ e.1.toNat ∧ e.1.toNat < b'.toNat)
  restGet  : ∀ q : U32, mapGet m' q = if b.toNat ≤ q.toNat ∧ q.toNat < b'.toNat then none else mapGet m q
  payloads : out' = out ++ runPayload m b.toNat (b'.toNat - b.toNat)
  wf       : MapWf m → MapWf m'

theorem u32_succ_toNat {b : U32} (h : b.toNat + 1 ≤ 2 ^ 32 - 2) : (b + 1).toNat = b.toNat + 1 := by
  rw [BitVec.toNat_add]
  have : (1 : U32).toNat = 1 := rfl
  rw [this]
  omega

theorem advanceLoop_some {fuel : Nat} {b : U32} {m : UMap Bytes} {out : Bytes} {b' : U32} {m' : UMap Bytes}
    {out' : Bytes} (hf : m.length ≤ fuel) (h : advanceLoop fuel b m out = some (b', m', out')) :
    Drained b m out b' m' out' := by
  induction fuel generalizing b m out with
  | zero =>
    have hm : m = [] := List.length_eq_zero_iff.mp (by omega)
    subst hm
    simp only [advanceLoop, Option.some.injEq, Prod.mk.injEq] at h
    obtain ⟨rfl, rfl, rfl⟩ := h
    exact ⟨Nat.le_refl _, .inl rfl, fun q h1 h2 => absurd h2 (by omega), rfl, by simp, by simp,
      by simp [runPayload], id⟩
  | succ fuel ih =>
    simp only [advanceLoop] at h
    split at h
    · rename_i hg
      simp only [Option.some.injEq, Prod.mk.injEq] at h
      obtain ⟨rfl, rfl, rfl⟩ := h
      refine ⟨Nat.le_refl _, .inl rfl, fun q h1 h2 => absurd h2 (by omega), hg, fun e => ?_, fun q => ?_,
        by simp [runPayload], id⟩
      · exact ⟨fun he => ⟨he, by omega⟩, fun he => he.1⟩
      · rw [if_neg (by omega)]
    · rename_i p hg
      split at h
      · cases h
      · rename_i hb
        have hs := u32_succ_toNat (b := b) (by omega)
        have hlen := length_mapErase_lt hg
        have d := ih (by omega) h
        have dle := d.le
        rw [hs] at dle
        have hne : ∀ q : U32, b.toNat < q.toNat → b ≠ q := fun q hq e => by subst e; omega
        refine ⟨by omega, ?_, fun q h1 h2 => ?_, ?_, fun e => ?_, fun q => ?_, ?_, fun hw => d.wf (mapWf_mapErase hw b)⟩
        · rcases d.bound with e | e
          · right; rw [e, hs]; omega
          · exact .inr e
        · by_cases hq : q = b
          · subst hq; exact ⟨p, hg⟩
          · have := u32_toNat_ne hq
            obtain ⟨v, hv⟩ := d.present q (by rw [hs]; omega) h2
            rw [mapGet_mapErase_ne (fun e => hq e.symm)] at hv
            exact ⟨v, hv⟩
        · have := d.stops
          rwa [mapGet_mapErase_ne (hne _ (by omega))] at this
        · rw [d.rest, mem_mapErase, hs]
          constructor
          · rintro ⟨⟨h1, h2⟩, h3⟩
            have := u32_toNat_ne h2
            exact ⟨h1, by omega⟩
          · rintro ⟨h1, h2⟩
            refine ⟨⟨h1, fun e => ?_⟩, by omega⟩
            rw [e] at h2
            omega
        · rw [d.restGet, hs]
          by_cases hq : b = q
          · subst hq
            rw [if_neg (by omega), mapGet_mapErase_self, if_pos (by omega)]
          · have := u32_toNat_ne hq
            rw [mapGet_mapErase_ne hq]
            by_cases hc : b.toNat + 1 ≤ q.toNat ∧ q.toNat < b'.toNat
            · rw [if_pos hc, if_pos (by omega)]
            · rw [if_neg hc, if_neg (by omega)]
        · rw [d.payloads, hs, show b'.toNat - b.toNat = (b'.toNat - (b.toNat + 1)) + 1 by omega, runPayload_succ]
          have hbb : BitVec.ofNat 32 b.toNat = b := by simp
          rw [hbb, hg, List.append_assoc]
          congr 2
          refine runPayload_congr (fun k h1 h2 => mapGet_mapErase_ne ?_ m)
          intro e
          have := congrArg BitVec.toNat e
          rw [BitVec.toNat_ofNat] at this
          have := b'.isLt
          omega

theorem advance_some {b : U32} {m : UMap Bytes} {out : Bytes} {b' : U32} {m' : UMap Bytes} {out' : Bytes}
    (h : advance b m out = some (b', m', out')) : Drained b m out b' m' out' :=
  advanceLoop_some (Nat.le_refl _) h

/-- What SeqOverflow means: every number from `b` up to 2^32 - 2 is present (41 R141). -/
theorem advanceLoop_none {fuel : Nat} {b : U32} {m : UMap Bytes} {out : Bytes}
    (h : advanceLoop fuel b m out = none) :
    (∃ p, mapGet m b = some p) ∧ ∀ q : U32, b.toNat ≤ q.toNat → q.toNat ≤ 2 ^ 32 - 2 → ∃ p, mapGet m q = some p := by
  induction fuel generalizing b m out with
  | zero => simp [advanceLoop] at h
  | succ fuel ih =>
    simp only [advanceLoop] at h
    split at h
    · cases h
    · rename_i p hg
      refine ⟨⟨p, hg⟩, fun q h1 h2 => ?_⟩
      by_cases hq : b = q
      · subst hq; exact ⟨p, hg⟩
      · have hn := u32_toNat_ne hq
        split at h
        · omega
        · rename_i hb
          obtain ⟨v, hv⟩ := (ih h).2 q (by rw [u32_succ_toNat (by omega)]; omega) h2
          rw [mapGet_mapErase_ne hq] at hv
          exact ⟨v, hv⟩

theorem advance_none {b : U32} {m : UMap Bytes} {out : Bytes} (h : advance b m out = none) :
    (∃ p, mapGet m b = some p) ∧ ∀ q : U32, b.toNat ≤ q.toNat → q.toNat ≤ 2 ^ 32 - 2 → ∃ p, mapGet m q = some p :=
  advanceLoop_none h

end Sys2Proof.Machine
end

