-- ==== Sys2Proof/Laws/Receiver.lean ====
section
/-! SUPPORT. What a taken datagram can do at the receiver, said once, and that it keeps the receiver's invariant. -/

namespace Sys2Proof.Machine

/-- An output event of the receiver that is no response. -/
def receiverEvent : Output → Bool
  | .txRcv _ _ => true
  | .deliver _ _ => true
  | .fault _ => true
  | .txSnd _ _ => false
  | .connected => false
  | .sendDone => false
  | .closed _ => false
  | .resp _ _ => false

/-- What the receiver's rules leave alone. -/
structure RcvFrame (s t : State) : Prop where
  cfg       : t.cfg = s.cfg
  snd       : t.snd = s.snd
  now       : t.now = s.now
  inputs    : t.inputs = s.inputs
  freeCount : t.freeCount = s.freeCount

theorem RcvFrame.refl (s : State) : RcvFrame s s := ⟨rfl, rfl, rfl, rfl, rfl⟩

/-- What a datagram from `src` that holds the packet `k` can do at the receiver: nothing but at most one ACK; bind the
peer; raise the fault; move the window and the output, where it is DATA; finish. -/
inductive RcvEffect (src : Addr) (k : Packet) (s t : State) : Prop where
  | same (r : t.rcv = s.rcv) (o : t.outputs = s.outputs ∨ ∃ b, t.outputs = s.outputs ++ [.txRcv b src])
  | bound (i : s.rcv.state = .idle)
      (r : t.rcv = { s.rcv with peer := some src, nes := 1, state := .established })
      (o : ∃ b, t.outputs = s.outputs ++ [.txRcv b src])
  | raised (c : Cause) (e : s.rcv.state = .established) (p : s.rcv.peer = some src)
      (f : c = .outOverflow ∨ c = .seqOverflow)
      (r : t.rcv = { s.rcv with fault := some c }) (o : t.outputs = s.outputs ++ [.fault c])
  | admitted (ty : k.h.type = typeData) (nes' : U32) (buf' : UMap Bytes) (out' : Bytes)
      (e : s.rcv.state = .established) (p : s.rcv.peer = some src)
      (w : s.rcv.nes.toNat ≤ k.h.seq.toNat ∧ k.h.seq.toNat < s.rcv.nes.toNat + s.rcv.win.toNat)
      (d : Drained s.rcv.nes (buffered s.rcv.buf k.h.seq k.payload) s.rcv.out nes' buf' out')
      (c : overCapacity s.cfg out'.length = false)
      (r : t.rcv = { s.rcv with nes := nes', buf := buf', out := out' })
      (o : t.outputs = s.outputs ++ [.txRcv (ackPacket s.cfg.crc nes') src])
  | finished (e : s.rcv.state = .established) (p : s.rcv.peer = some src)
      (r : t.rcv = { s.rcv with delivered := true, state := .closed, listening := false, buf := [] })
      (o : t.outputs = s.outputs ++
        [.txRcv (ackPacket s.cfg.crc (BitVec.ofNat 32 (s.rcv.nes.toNat + 1))) src, .deliver s.rcv.out src])

theorem rcvMismatch_effect (src : Addr) (k : Packet) (s : State) :
    RcvFrame s (rcvMismatch src s) ∧ RcvEffect src k s (rcvMismatch src s) := by
  unfold rcvMismatch
  split
  · exact ⟨⟨rfl, rfl, rfl, rfl, rfl⟩, .same rfl (.inr ⟨_, rfl⟩)⟩
  · exact ⟨.refl s, .same rfl (.inl rfl)⟩

theorem rcvMismatch_rcv (src : Addr) (s : State) : (rcvMismatch src s).rcv = s.rcv := by
  unfold rcvMismatch
  split <;> rfl

theorem rcvStart_effect (src : Addr) (q : U32) (k : Packet) (s : State) :
    RcvFrame s (rcvStart src q s) ∧ RcvEffect src k s (rcvStart src q s) := by
  unfold rcvStart
  split
  · rename_i hi
    split
    · exact ⟨⟨rfl, rfl, rfl, rfl, rfl⟩, .bound hi rfl ⟨_, rfl⟩⟩
    · exact ⟨.refl s, .same rfl (.inl rfl)⟩
  · split
    · exact ⟨⟨rfl, rfl, rfl, rfl, rfl⟩, .same rfl (.inr ⟨_, rfl⟩)⟩
    · exact ⟨.refl s, .same rfl (.inl rfl)⟩
  · exact ⟨.refl s, .same rfl (.inl rfl)⟩
  · exact ⟨.refl s, .same rfl (.inl rfl)⟩
  · exact ⟨.refl s, .same rfl (.inl rfl)⟩

theorem inWindow_iff {q b n : U32} :
    inWindow q b n = true ↔ b.toNat ≤ q.toNat ∧ q.toNat < b.toNat + n.toNat := by simp [inWindow]

theorem rcvData_effect (src : Addr) {k : Packet} (ty : k.h.type = typeData) (s : State) :
    RcvFrame s (rcvData src k.h.seq k.payload s) ∧ RcvEffect src k s (rcvData src k.h.seq k.payload s) := by
  unfold rcvData
  split
  · rename_i hep
    split
    · exact ⟨⟨rfl, rfl, rfl, rfl, rfl⟩, .same rfl (.inr ⟨_, rfl⟩)⟩
    · split
      · rename_i hw
        unfold rcvAdmit
        simp only
        split
        · exact ⟨⟨rfl, rfl, rfl, rfl, rfl⟩, .raised _ hep.1 hep.2 (.inr rfl) rfl rfl⟩
        · rename_i nes' buf' out' hadv
          split
          · exact ⟨⟨rfl, rfl, rfl, rfl, rfl⟩, .raised _ hep.1 hep.2 (.inl rfl) rfl rfl⟩
          · rename_i hc
            exact ⟨⟨rfl, rfl, rfl, rfl, rfl⟩, .admitted ty nes' buf' out' hep.1 hep.2 (inWindow_iff.mp hw)
              (advance_some hadv) (by simpa using hc) rfl rfl⟩
      · exact ⟨.refl s, .same rfl (.inl rfl)⟩
  · exact ⟨.refl s, .same rfl (.inl rfl)⟩

theorem rcvEnd_effect {src : Addr} {q : U32} {s t : State} (k : Packet) (h : rcvEnd src q s = .ok t) :
    RcvFrame s t ∧ RcvEffect src k s t := by
  unfold rcvEnd at h
  split at h
  · rename_i hep
    unfold rcvFinish at h
    split at h
    · cases h
    · rename_i v hv
      simp only [Except.ok.injEq] at h
      subst h
      obtain ⟨hv1, hv2⟩ := narrow_eq_ok hv
      obtain rfl : v = BitVec.ofNat 32 (s.rcv.nes.toNat + 1) := by rw [← hv1, BitVec.ofNat_toNat, BitVec.setWidth_eq]
      exact ⟨⟨rfl, rfl, rfl, rfl, rfl⟩, .finished hep.1 hep.2.1 rfl (List.append_assoc ..)⟩
  · simp only [Except.ok.injEq] at h
    subst h
    exact ⟨.refl s, .same rfl (.inl rfl)⟩

theorem rcvEnd_completes {src : Addr} {q : U32} {s : State} (h : ReceiverOk s.cfg s.rcv) :
    ∃ t, rcvEnd src q s = .ok t := by
  unfold rcvEnd
  split
  · rename_i hep
    have := (h.2.2.1 hep.1).2.2.2.2.2.2.1
    unfold rcvFinish
    rw [narrow_ok (by omega)]
    exact ⟨_, rfl⟩
  · exact ⟨s, rfl⟩

/-! ### The invariant -/

theorem rcvEdge_refl (c : ConnState) (h : c ≠ .handshaking ∧ c ≠ .closing) : rcvEdge c c = true := by
  cases c <;> simp_all [rcvEdge]

theorem mem_buffered {m : UMap Bytes} {q : U32} {payload : Bytes} {e : U32 × Bytes} (h : e ∈ buffered m q payload) :
    e.1 = q ∨ e ∈ m := by
  unfold buffered at h
  split at h
  · exact .inr h
  · exact (mem_mapInsert h).imp (fun h => by rw [h]) id

theorem mapWf_buffered {m : UMap Bytes} (h : MapWf m) (q : U32) (payload : Bytes) : MapWf (buffered m q payload) := by
  unfold buffered
  split
  · exact h
  · exact mapWf_mapInsert h q payload

theorem RcvEffect.wf {src : Addr} {k : Packet} {s t : State} (h : RcvEffect src k s t) (hw : MapWf s.rcv.buf) : MapWf t.rcv.buf := by
  cases h with
  | same r o => rw [r]; exact hw
  | bound i r o => rw [r]; exact hw
  | raised c e p f r o => rw [r]; exact hw
  | admitted ty nes' buf' out' e p w d c r o => rw [r]; exact d.wf (mapWf_buffered hw k.h.seq k.payload)
  | finished e p r o => rw [r]; exact mapWf_nil

theorem RcvEffect.win {src : Addr} {k : Packet} {s t : State} (h : RcvEffect src k s t) : t.rcv.win = s.rcv.win := by
  cases h with
  | same r o => rw [r]
  | bound i r o => rw [r]
  | raised c e p f r o => rw [r]
  | admitted ty nes' buf' out' e p w d c r o => rw [r]
  | finished e p r o => rw [r]

theorem RcvEffect.edge {src : Addr} {k : Packet} {s t : State} (h : RcvEffect src k s t) (hok : ReceiverOk s.cfg s.rcv) :
    rcvEdge s.rcv.state t.rcv.state = true := by
  cases h with
  | same r o => rw [r]; exact rcvEdge_refl _ hok.1
  | bound i r o => rw [r, i]; rfl
  | raised c e p f r o => rw [r]; exact rcvEdge_refl _ hok.1
  | admitted ty nes' buf' out' e p w d c r o => rw [r]; exact rcvEdge_refl _ hok.1
  | finished e p r o => rw [r, e]; rfl

/-- The effects keep the receiver's invariant. A receptive receiver has no fault and listens. -/
theorem RcvEffect.ok {src : Addr} {k : Packet} {s t : State} (h : RcvEffect src k s t) (hc : t.cfg = s.cfg)
    (hok : ReceiverOk s.cfg s.rcv) (hr : rcvReceptive s.rcv = true) : ReceiverOk t.cfg t.rcv := by
  obtain ⟨h0, h1, h2, h3⟩ := hok
  have hl : s.rcv.listening = true := by simp [rcvReceptive] at hr; exact hr.1.1
  have hf : s.rcv.fault = none := by simp [rcvReceptive] at hr; exact hr.1.2
  rw [hc]
  cases h with
  | same r o => rw [r]; exact ⟨h0, h1, h2, h3⟩
  | bound i r o =>
    obtain ⟨-, -, hb, ho, hd, -, hi, -⟩ := h1 i
    obtain ⟨ha, hw⟩ := hi hl
    rw [r]
    refine ⟨by simp, by simp, fun _ => ?_, by simp⟩
    refine ⟨hl, ha, rfl, hd, hw, Nat.le_refl 1, show (1 : Nat) ≤ 2 ^ 32 - 2 by decide, ⟨?_, ?_⟩, ?_, .inl hf⟩
    · simp [hb, MapWf]
    · simp [hb]
    · simp only [ho, overCapacity]
      split <;> simp
  | raised c e p f r o =>
    obtain ⟨a1, a2, a3, a4, a5, a6, a7, a8, a9, -⟩ := h2 e
    rw [r]
    refine ⟨h0, by simp [e], fun _ => ?_, by simp [e]⟩
    exact ⟨a1, a2, a3, a4, a5, a6, a7, a8, a9, .inr (f.imp (fun h => by rw [h]) fun h => by rw [h])⟩
  | admitted ty nes' buf' out' e p w d c r o =>
    obtain ⟨a1, a2, a3, a4, a5, a6, a7, ⟨a8, a9⟩, -, b⟩ := h2 e
    have hle := d.le
    rw [r]
    refine ⟨h0, by simp [e], fun _ => ?_, by simp [e]⟩
    refine ⟨a1, a2, a3, a4, a5, by dsimp only; omega, ?_, ⟨d.wf (mapWf_buffered a8 k.h.seq k.payload), fun x hx => ?_⟩, c, b⟩
    · rcases d.bound with hb | hb
      · dsimp only; rw [hb]; exact a7
      · exact hb
    · have hx' := (d.rest x).mp hx
      have hne : x.1 ≠ nes' := mapGet_none_iff.mp d.stops x hx'.1
      have := u32_toNat_ne hne
      have hin : s.rcv.nes.toNat ≤ x.1.toNat ∧ x.1.toNat < s.rcv.nes.toNat + s.rcv.win.toNat := by
        rcases mem_buffered hx'.1 with hq | hq
        · rw [hq]; exact w
        · have := a9 x hq; omega
      dsimp only
      omega
  | finished e p r o =>
    obtain ⟨a1, a2, a3, a4, a5, a6, a7, -, a9, -⟩ := h2 e
    rw [r]
    exact ⟨by simp, by simp, by simp, fun _ => ⟨rfl, a2, a3, rfl, a5, a6, a7, rfl, a9, hf⟩⟩

end Sys2Proof.Machine
end

