-- ==== Sys2Proof/Laws/SenderFrame.lean ====
section
/-! SUPPORT. What each sender operation leaves alone, from any state. -/

namespace Sys2Proof.Machine

/-- An output event of the sender that is no response. -/
def senderEvent : Output → Bool
  | .txSnd _ _ => true
  | .connected => true
  | .sendDone => true
  | .closed _ => true
  | .resp _ _ => false
  | .txRcv _ _ => false
  | .deliver _ _ => false
  | .fault _ => false

/-- What the sender's operations leave alone. -/
structure SndFrame (s t : State) : Prop where
  cfg       : t.cfg = s.cfg
  rcv       : t.rcv = s.rcv
  now       : t.now = s.now
  inputs    : t.inputs = s.inputs
  freeCount : t.freeCount = s.freeCount
  win       : t.snd.win = s.snd.win
  peer      : t.snd.peer = s.snd.peer
  pkt       : t.snd.pkt = s.snd.pkt
  wf        : MapWf s.snd.outstanding → MapWf t.snd.outstanding
  outs      : ∃ l, t.outputs = s.outputs ++ l ∧ ∀ o ∈ l, senderEvent o = true

theorem SndFrame.refl (s : State) : SndFrame s s :=
  ⟨rfl, rfl, rfl, rfl, rfl, rfl, rfl, rfl, id, [], by simp, by simp⟩

theorem SndFrame.trans {s t u : State} (h : SndFrame s t) (k : SndFrame t u) : SndFrame s u := by
  obtain ⟨l, hl, hl'⟩ := h.outs
  obtain ⟨m, hm, hm'⟩ := k.outs
  refine ⟨k.cfg.trans h.cfg, k.rcv.trans h.rcv, k.now.trans h.now, k.inputs.trans h.inputs,
    k.freeCount.trans h.freeCount, k.win.trans h.win, k.peer.trans h.peer, k.pkt.trans h.pkt, fun w => k.wf (h.wf w),
    l ++ m, by rw [hm, hl, List.append_assoc], fun o ho => ?_⟩
  rcases List.mem_append.mp ho with ho | ho
  · exact hl' o ho
  · exact hm' o ho

theorem beginWait_frame (s : State) : SndFrame s (beginWait s) :=
  ⟨rfl, rfl, rfl, rfl, rfl, rfl, rfl, rfl, id, [], by simp, by simp⟩

theorem sndTx_frame {b : Bytes} {s t : State} (h : sndTx b s = .ok t) : SndFrame s t ∧ t.snd = s.snd := by
  obtain ⟨a, -, rfl⟩ := sndTx_ok h
  exact ⟨⟨rfl, rfl, rfl, rfl, rfl, rfl, rfl, rfl, id, [.txSnd b a], rfl, by simp [senderEvent]⟩, rfl⟩

/-- A new outstanding set, `next`, `active` and so on: the rest is as it was. -/
theorem SndFrame.update {s : State} (x : Sender) (hw : x.win = s.snd.win) (hp : x.peer = s.snd.peer)
    (hk : x.pkt = s.snd.pkt) (hm : MapWf s.snd.outstanding → MapWf x.outstanding) : SndFrame s { s with snd := x } :=
  ⟨rfl, rfl, rfl, rfl, rfl, hw, hp, hk, hm, [], by simp, by simp⟩

theorem sendFresh_frame {q : Nat} {s t : State} (h : sendFresh q s = .ok t) : SndFrame s t := by
  unfold sendFresh at h
  split at h
  · cases h
  · split at h
    · cases h
    · split at h
      · cases h
      · rename_i _ _ _ _ _ _ _ s' hs
        simp only [Except.ok.injEq] at h
        subst h
        exact (sndTx_frame hs).1.trans (SndFrame.update _ rfl rfl rfl fun w => mapWf_mapInsert w _ _)

theorem resendOne_frame {q : Nat} {s t : State} (h : resendOne q s = .ok t) : SndFrame s t := by
  unfold resendOne at h
  split at h
  · cases h
  · split at h
    · cases h
    · cases h
    · split at h
      · cases h
      · rename_i s' hs
        simp only [Except.ok.injEq] at h
        subst h
        exact (sndTx_frame hs).1.trans (SndFrame.update _ rfl rfl rfl fun w => mapWf_mapInsert w _ _)

theorem forRange_frame {round : Nat → State → Eff} (hr : ∀ q s t, round q s = .ok t → SndFrame s t) {c q : Nat}
    {s t : State} (h : forRange round c q s = .ok t) : SndFrame s t := by
  induction c generalizing q s with
  | zero => simp only [forRange, Except.ok.injEq] at h; subst h; exact SndFrame.refl s
  | succ c ih =>
    simp only [forRange] at h
    split at h
    · cases h
    · rename_i s' hs
      exact (hr _ _ _ hs).trans (ih h)

theorem fillWindow_frame {s t : State} (h : fillWindow s = .ok t) : SndFrame s t := by
  unfold fillWindow at h
  split at h
  · cases h
  · rename_i s' hs
    split at h
    · cases h
    · simp only [Except.ok.injEq] at h
      subst h
      exact (forRange_frame (fun q s t => sendFresh_frame) hs).trans (SndFrame.update _ rfl rfl rfl id)

theorem loopHead_frame {s t : State} (h : loopHead s = .ok t) : SndFrame s t := by
  unfold loopHead at h
  split at h
  · simp only [Except.ok.injEq] at h
    subst h
    exact ⟨rfl, rfl, rfl, rfl, rfl, rfl, rfl, rfl, id, [.sendDone], rfl, by simp [senderEvent]⟩
  · split at h
    · cases h
    · rename_i s' hs
      simp only [Except.ok.injEq] at h
      subst h
      exact (fillWindow_frame hs).trans (beginWait_frame _)

theorem sndTake_frame {a : Option U32} {s t : State} (h : sndTake a s = .ok t) : SndFrame s t := by
  unfold sndTake at h
  split at h
  · simp only [Except.ok.injEq] at h
    subst h
    split
    · exact ⟨rfl, rfl, rfl, rfl, rfl, rfl, rfl, rfl, id, [.connected], rfl, by simp [senderEvent]⟩
    · exact beginWait_frame s
  · split at h
    · split at h
      · refine SndFrame.trans ?_ (loopHead_frame h)
        exact SndFrame.update _ rfl rfl rfl fun w => mapWf_mapEraseBelow w _
      · exact loopHead_frame h
    · exact loopHead_frame h
  · simp only [Except.ok.injEq] at h
    subst h
    split
    · exact ⟨rfl, rfl, rfl, rfl, rfl, rfl, rfl, rfl, id, [.closed true], rfl, by simp [senderEvent]⟩
    · exact beginWait_frame s
  · simp only [Except.ok.injEq] at h; subst h; exact SndFrame.refl s
  · simp only [Except.ok.injEq] at h; subst h; exact SndFrame.refl s

theorem sendEnd_frame {s t : State} (h : sendEnd s = .ok t) : SndFrame s t ∧ t.snd = s.snd := by
  unfold sendEnd at h
  split at h
  · cases h
  · exact sndTx_frame h

theorem waitExpiry_frame {s t : State} (h : waitExpiry s = .ok t) : SndFrame s t := by
  unfold waitExpiry at h
  split at h
  · split at h
    · cases h
    · rename_i s' hs
      simp only [Except.ok.injEq] at h
      subst h
      exact (sndTx_frame hs).1.trans (beginWait_frame _)
  · split at h
    · cases h
    · rename_i s' hs
      exact (forRange_frame (fun q s t => resendOne_frame) hs).trans (loopHead_frame h)
  · split at h
    · cases h
    · rename_i s' hs
      simp only [Except.ok.injEq] at h
      subst h
      exact (sendEnd_frame hs).1.trans (beginWait_frame _)
  · simp only [Except.ok.injEq] at h; subst h; exact SndFrame.refl s
  · simp only [Except.ok.injEq] at h; subst h; exact SndFrame.refl s

theorem tickWait_frame {s t : State} (h : tickWait s = .ok t) : SndFrame s t := by
  unfold tickWait at h
  split at h
  · cases h
  · simp only at h
    split at h
    · refine SndFrame.trans ?_ (waitExpiry_frame h)
      exact SndFrame.update _ rfl rfl rfl id
    · simp only [Except.ok.injEq] at h
      subst h
      exact SndFrame.update _ rfl rfl rfl id

/-- A TICK: what follows the step of `now`. -/
theorem tick_frame {s t : State} (h : tick s = .ok t) : SndFrame { s with now := s.now + 1 } t := by
  unfold tick at h
  simp only at h
  split at h
  · split at h
    · split at h
      · cases h
      · split at h
        · simp only [Except.ok.injEq] at h
          subst h
          exact ⟨rfl, rfl, rfl, rfl, rfl, rfl, rfl, rfl, id, [.closed false], rfl, by simp [senderEvent]⟩
        · refine SndFrame.trans ?_ (tickWait_frame h)
          exact SndFrame.update (s := { s with now := s.now + 1 }) _ rfl rfl rfl id
    · exact tickWait_frame h
  · simp only [Except.ok.injEq] at h; subst h; exact SndFrame.refl _

end Sys2Proof.Machine
end

