-- ==== Sys2Proof/Laws/SenderKeeps.lean ====
section
/-! SUPPORT. What each sender operation does from a state of the invariant: it completes, keeps the sender's invariant
and the other fields, and puts out only what the sender may put out. -/

namespace Sys2Proof.Machine

/-- A datagram that the sender may transmit (43 R182). -/
def SenderPacket (crc : Crc) (x : Sender) (b : Bytes) : Prop :=
  b = startPacket crc 0 ∨
  (∃ q : U32, 1 ≤ q.toNat ∧ q.toNat ≤ x.n.toNat ∧ mapGet x.pkt q = some b) ∨
  b = endPacket crc (BitVec.ofNat 32 (x.n.toNat + 1))

/-- An output event that the sender may produce outside its commands' responses. -/
def SenderOutput (crc : Crc) (x : Sender) : Output → Prop
  | .txSnd b a => x.peer = some a ∧ SenderPacket crc x b
  | .connected => True
  | .sendDone => True
  | .closed _ => True
  | .resp _ _ => False
  | .txRcv _ _ => False
  | .deliver _ _ => False
  | .fault _ => False

/-- What a sender operation keeps. -/
structure SndKeeps (s t : State) : Prop where
  cfg       : t.cfg = s.cfg
  rcv       : t.rcv = s.rcv
  now       : t.now = s.now
  inputs    : t.inputs = s.inputs
  freeCount : t.freeCount = s.freeCount
  win       : t.snd.win = s.snd.win
  edge      : sndEdge s.snd.state t.snd.state = true
  ok        : SenderOk t.cfg.crc t.snd t.now
  outs      : ∃ l, t.outputs = s.outputs ++ l ∧ ∀ o ∈ l, SenderOutput t.cfg.crc t.snd o

theorem sndEdge_refl (c : ConnState) : sndEdge c c = true := by cases c <;> rfl

theorem SndKeeps.refl {s : State} (h : SenderOk s.cfg.crc s.snd s.now) : SndKeeps s s :=
  ⟨rfl, rfl, rfl, rfl, rfl, rfl, sndEdge_refl _, h, [], by simp, by simp⟩

/-! ### The invariant, taken apart by connection state -/

theorem SenderOk.mono {crc : Crc} {x : Sender} {m n : Nat} (h : SenderOk crc x m) (hle : m ≤ n) :
    SenderOk crc x n := by
  have up : StreamLoaded crc x m → StreamLoaded crc x n := fun hl =>
    ⟨hl.1, hl.2.1, hl.2.2.1, hl.2.2.2.1, hl.2.2.2.2.1, hl.2.2.2.2.2.1, fun e he =>
      ⟨(hl.2.2.2.2.2.2 e he).1, (hl.2.2.2.2.2.2 e he).2.1, Nat.le_trans (hl.2.2.2.2.2.2 e he).2.2.1 hle,
        (hl.2.2.2.2.2.2 e he).2.2.2⟩⟩
  obtain ⟨h1, h2, h3, h4, h5⟩ := h
  refine ⟨h1, h2, fun hs => ?_, fun hs => ?_, fun hs => ?_⟩
  · obtain ⟨a, b, c⟩ := h3 hs
    exact ⟨a, b, c.imp id fun c => ⟨up c.1, c.2⟩⟩
  · obtain ⟨a, b, c, d⟩ := h4 hs
    exact ⟨a, b, up c, d⟩
  · obtain ⟨a, b, c⟩ := h5 hs
    exact ⟨a, up b, c⟩

theorem SenderOk.of_handshaking {crc : Crc} {x : Sender} {now : Nat} (hs : x.state = .handshaking)
    (h : Connected x ∧ NoStream x ∧ x.base = 0 ∧ x.next = 0 ∧ 1 ≤ x.waitLeft ∧ x.closeAcked = false) :
    SenderOk crc x now :=
  ⟨by simp [hs], fun _ => h, by simp [hs], by simp [hs], by simp [hs]⟩

theorem SenderOk.of_established {crc : Crc} {x : Sender} {now : Nat} (hs : x.state = .established)
    (h : Connected x ∧ x.closeAcked = false ∧
      ((NoStream x ∧ x.base = 1 ∧ x.next = 1) ∨
        (StreamLoaded crc x now ∧ (x.active = true ↔ x.base.toNat ≤ x.n.toNat) ∧
          (x.active = true → x.next.toNat = fillEdge x ∧ 1 ≤ x.waitLeft)))) :
    SenderOk crc x now :=
  ⟨by simp [hs], by simp [hs], fun _ => h, by simp [hs], by simp [hs]⟩

theorem SenderOk.of_closing {crc : Crc} {x : Sender} {now : Nat} (hs : x.state = .closing)
    (h : Connected x ∧ x.closeAcked = false ∧ StreamLoaded crc x now ∧ x.active = false ∧ x.n.toNat < x.base.toNat ∧
      1 ≤ x.waitLeft ∧ 1 ≤ x.dlLeft) :
    SenderOk crc x now :=
  ⟨by simp [hs], by simp [hs], by simp [hs], fun _ => h, by simp [hs]⟩

theorem SenderOk.of_closed {crc : Crc} {x : Sender} {now : Nat} (hs : x.state = .closed)
    (h : Connected x ∧ StreamLoaded crc x now ∧ x.active = false ∧ x.n.toNat < x.base.toNat) :
    SenderOk crc x now :=
  ⟨by simp [hs], by simp [hs], by simp [hs], by simp [hs], fun _ => h⟩

/-- In the send loop a stream is loaded and the window is full. -/
theorem SenderOk.sending {crc : Crc} {x : Sender} {now : Nat} (h : SenderOk crc x now) (hs : x.state = .established)
    (ha : x.active = true) :
    Connected x ∧ x.closeAcked = false ∧ StreamLoaded crc x now ∧ x.base.toNat ≤ x.n.toNat ∧
      x.next.toNat = fillEdge x ∧ 1 ≤ x.waitLeft := by
  obtain ⟨hc, hk, hn | ⟨hl, hb, hw⟩⟩ := h.2.2.1 hs
  · rw [hn.1.2.1] at ha; cases ha
  · exact ⟨hc, hk, hl, hb.mp ha, hw ha⟩

/-- A receptive sender may begin a new wait. -/
theorem SenderOk.wait {crc : Crc} {x : Sender} {now v : Nat} (h : SenderOk crc x now) (hr : sndReceptive x = true)
    (hv : 1 ≤ v) : SenderOk crc { x with waitLeft := v } now := by
  obtain ⟨h1, h2, h3, h4, h5⟩ := h
  refine ⟨fun hs => ?_, fun hs => ?_, fun hs => ?_, fun hs => ?_, fun hs => ?_⟩
  · simp only at hs; simp [sndReceptive, hs] at hr
  · obtain ⟨a, b, c, d, _, f⟩ := h2 hs
    exact ⟨a, b, c, d, hv, f⟩
  · obtain ⟨a, b, c⟩ := h3 hs
    exact ⟨a, b, c.imp id fun c => ⟨c.1, c.2.1, fun hact => ⟨(c.2.2 hact).1, hv⟩⟩⟩
  · obtain ⟨a, b, c, d, e, _, g⟩ := h4 hs
    exact ⟨a, b, c, d, e, hv, g⟩
  · exact h5 hs

/-! ### The send loop -/

theorem mem_imagesFrom {crc : Crc} {x : Sender} {now q c : Nat} {b : Bytes} (hl : StreamLoaded crc x now) (hq : 1 ≤ q)
    (hc : q + c ≤ x.n.toNat + 1) (h : b ∈ imagesFrom x q c) :
    ∃ k : U32, 1 ≤ k.toNat ∧ k.toNat ≤ x.n.toNat ∧ mapGet x.pkt k = some b := by
  have hn := hl.2.1
  simp only [imagesFrom, List.mem_map, List.mem_range'_1] at h
  obtain ⟨k, hk, rfl⟩ := h
  have hkn : (BitVec.ofNat 32 k).toNat = k := ofNat_toNat_u32 (by omega)
  obtain ⟨v, hv⟩ := mapGet_isSome_of_range' hl.2.2.1 (q := BitVec.ofNat 32 k) (by omega) (by omega)
  exact ⟨BitVec.ofNat 32 k, by omega, by omega, by simp [hv]⟩

theorem fillEdge_filledSender (x : Sender) (now : Nat) : fillEdge (filledSender x now) = fillEdge x := rfl

theorem filledSender_next {crc : Crc} {x : Sender} {now : Nat} (hl : StreamLoaded crc x now)
    (hb : x.base.toNat ≤ x.n.toNat) : (filledSender x now).next.toNat = fillEdge x := by
  obtain ⟨-, hn, -, -, -, ⟨-, -, hw, hm⟩, -⟩ := hl
  have hmax : max x.next.toNat (fillEdge x) = fillEdge x := by unfold fillEdge; omega
  have hle : fillEdge x ≤ x.n.toNat + 1 := Nat.min_le_right _ _
  simp only [filledSender, hmax]
  exact ofNat_toNat_u32 (by omega)

theorem filledSender_full {x : Sender} (now : Nat) (hf : x.next.toNat = fillEdge x) : filledSender x now = x := by
  have h0 : fillEdge x - x.next.toNat = 0 := by omega
  have h1 : max x.next.toNat (fillEdge x) = x.next.toNat := by omega
  simp only [filledSender, h0, h1]
  simp [freshRecords]

/-- LoopHead while the window is full sends nothing: a new wait begins. -/
theorem loopHead_full {s : State} (h : SenderOk s.cfg.crc s.snd s.now) (hs : s.snd.state = .established)
    (ha : s.snd.active = true) : loopHead s = .ok (beginWait s) := by
  obtain ⟨⟨hp, -⟩, -, hl, hb, hf, -⟩ := h.sending hs ha
  obtain ⟨a, hp⟩ := Option.isSome_iff_exists.mp hp
  rw [loopHead_fill hb hp hl, filledSender_full _ hf, show fillEdge s.snd - s.snd.next.toNat = 0 by omega,
    imagesFrom_zero, sendAll_nil]

/-- What LoopHead needs of the sender. -/
structure LoopReady (s : State) : Prop where
  timeout    : 1 ≤ s.cfg.rxTimeout
  state      : s.snd.state = .established
  connected  : Connected s.snd
  closeAcked : s.snd.closeAcked = false
  active     : s.snd.active = true
  loaded     : StreamLoaded s.cfg.crc s.snd s.now

/-- LoopHead once a stream is loaded. -/
theorem loopHead_keeps {s : State} (h : LoopReady s) : ∃ t, loopHead s = .ok t ∧ SndKeeps s t := by
  obtain ⟨ht, hst, hc, hk, ha, hl⟩ := h
  by_cases hb : s.snd.base.toNat ≤ s.snd.n.toNat
  · obtain ⟨a, hp⟩ := Option.isSome_iff_exists.mp hc.1
    refine ⟨_, loopHead_fill hb hp hl, rfl, rfl, rfl, rfl, rfl, rfl, sndEdge_refl _, ?_,
      (imagesFrom s.snd s.snd.next.toNat (fillEdge s.snd - s.snd.next.toNat)).map (fun b => .txSnd b a), rfl, ?_⟩
    · refine SenderOk.of_established hst ⟨hc, hk, .inr ⟨filledSender_loaded hl, ?_, fun _ => ⟨?_, ht⟩⟩⟩
      · exact ⟨fun _ => hb, fun _ => ha⟩
      · exact filledSender_next hl hb
    · intro o ho
      obtain ⟨b, hbm, rfl⟩ := List.mem_map.mp ho
      have hle : fillEdge s.snd ≤ s.snd.n.toNat + 1 := Nat.min_le_right _ _
      have hm := hl.2.2.2.2.2.1.2.2.2
      have hbn := hl.2.2.2.2.2.1.2.1
      have hi : ∃ k : U32, 1 ≤ k.toNat ∧ k.toNat ≤ s.snd.n.toNat ∧ mapGet s.snd.pkt k = some b :=
        mem_imagesFrom hl (by omega) (by omega) hbm
      exact ⟨hp, .inr (.inl hi)⟩
  · refine ⟨_, loopHead_done (by omega), rfl, rfl, rfl, rfl, rfl, rfl, sndEdge_refl _, ?_, [.sendDone], rfl, ?_⟩
    · exact SenderOk.of_established hst ⟨hc, hk, .inr ⟨hl, ⟨fun h => (nomatch h), fun h => absurd h hb⟩, fun h => (nomatch h)⟩⟩
    · intro o ho
      rw [List.mem_singleton.mp ho]
      trivial

/-! ### Datagrams -/

theorem umax_toNat (a b : U32) : (umax a b).toNat = max a.toNat b.toNat := by
  unfold umax
  split <;> omega

/-- The sender after a cumulative ACK moved the window and before LoopHead (43 R189). -/
def advancedSender (x : Sender) (a : U32) : Sender :=
  { x with base := a, outstanding := mapEraseBelow x.outstanding a, next := umax x.next a }

theorem advancedSender_loaded {crc : Crc} {x : Sender} {now : Nat} {a : U32} (hl : StreamLoaded crc x now)
    (ha : x.base.toNat < a.toNat) : StreamLoaded crc (advancedSender x a) now := by
  obtain ⟨h1, hn, hpk, hi, hb, ⟨hk, hbn, hw, hm⟩, hr⟩ := hl
  have hu := umax_toNat x.next a
  refine ⟨h1, hn, hpk, hi, ?_, ⟨?_, ?_, ?_, ?_⟩, ?_⟩
  · simp only [advancedSender]; omega
  · simp only [advancedSender, keyNats_mapEraseBelow, hk, hu]
    rw [filter_range'_ge _ _ _ (Nat.le_of_lt ha)]
    congr 1
    omega
  · simp only [advancedSender, hu]; omega
  · simp only [advancedSender, hu]; omega
  · simp only [advancedSender, hu]; omega
  · exact fun e he => hr e (mem_mapEraseBelow.mp he).1

theorem sndAdvance_keeps {s : State} {a : U32} (ht : 1 ≤ s.cfg.rxTimeout) (h : SenderOk s.cfg.crc s.snd s.now)
    (hs : s.snd.state = .established) (hact : s.snd.active = true) (ha : s.snd.base.toNat < a.toNat) :
    ∃ t, sndAdvance a s = .ok t ∧ SndKeeps s t := by
  obtain ⟨hc, hk, hl, -, -, -⟩ := h.sending hs hact
  obtain ⟨t, ht1, ht2⟩ := loopHead_keeps (s := { s with snd := advancedSender s.snd a })
    ⟨ht, hs, hc, hk, hact, advancedSender_loaded hl ha⟩
  exact ⟨t, ht1, ht2.cfg, ht2.rcv, ht2.now, ht2.inputs, ht2.freeCount, ht2.win, ht2.edge, ht2.ok, ht2.outs⟩

theorem beginWait_keeps {s : State} (ht : 1 ≤ s.cfg.rxTimeout) (h : SenderOk s.cfg.crc s.snd s.now)
    (hr : sndReceptive s.snd = true) : SndKeeps s (beginWait s) :=
  ⟨rfl, rfl, rfl, rfl, rfl, rfl, sndEdge_refl _, h.wait hr ht, [], by simp, by simp⟩

/-- Any datagram that a receptive sender takes. -/
theorem sndTake_keeps {s : State} (a : Option U32) (ht : 1 ≤ s.cfg.rxTimeout) (h : SenderOk s.cfg.crc s.snd s.now)
    (hr : sndReceptive s.snd = true) : ∃ t, sndTake a s = .ok t ∧ SndKeeps s t := by
  unfold sndTake
  split
  · rename_i hs
    refine ⟨_, rfl, ?_⟩
    split
    · obtain ⟨hc, hn, hb, hx, hw, hk⟩ := h.2.1 hs
      refine ⟨rfl, rfl, rfl, rfl, rfl, rfl, ?_, ?_, [.connected], rfl, ?_⟩
      · rw [hs]; rfl
      · exact SenderOk.of_established rfl ⟨hc, hk, .inl ⟨hn, rfl, rfl⟩⟩
      · intro o ho
        rw [List.mem_singleton.mp ho]
        trivial
    · exact beginWait_keeps ht h hr
  · rename_i hs
    have hact : s.snd.active = true := by simpa [sndReceptive, hs] using hr
    cases a with
    | none => exact ⟨_, loopHead_full h hs hact, beginWait_keeps ht h hr⟩
    | some x =>
      simp only
      split
      · rename_i hx
        exact sndAdvance_keeps ht h hs hact hx
      · exact ⟨_, loopHead_full h hs hact, beginWait_keeps ht h hr⟩
  · rename_i hs
    refine ⟨_, rfl, ?_⟩
    split
    · obtain ⟨hc, hk, hl, ha, hb, -, -⟩ := h.2.2.2.1 hs
      refine ⟨rfl, rfl, rfl, rfl, rfl, rfl, ?_, ?_, [.closed true], rfl, ?_⟩
      · rw [hs]; rfl
      · exact SenderOk.of_closed rfl ⟨hc, hl, ha, hb⟩
      · intro o ho
        rw [List.mem_singleton.mp ho]
        trivial
    · exact beginWait_keeps ht h hr
  · exact ⟨s, rfl, SndKeeps.refl h⟩
  · exact ⟨s, rfl, SndKeeps.refl h⟩

/-! ### Timers -/

/-- The sender with its records' `last_sent_at` at `now` (43 R192). -/
theorem refreshed_loaded {crc : Crc} {x : Sender} {now : Nat} (hl : StreamLoaded crc x now) :
    StreamLoaded crc (withOutstanding x (refreshed x.outstanding now)) now := by
  obtain ⟨h1, hn, hpk, hi, hb, ⟨hk, hbn, hw, hm⟩, hr⟩ := hl
  refine ⟨h1, hn, hpk, hi, hb, ⟨?_, hbn, hw, hm⟩, fun e he => ?_⟩
  · refine Eq.trans ?_ hk
    simp [withOutstanding, refreshed, keyNats]
  · obtain ⟨d, hd, rfl⟩ := List.mem_map.mp he
    obtain ⟨a, b, -, c⟩ := hr d hd
    exact ⟨a, b, Nat.le_refl _, c⟩

/-- Go-back-N in the send loop: all outstanding packets are sent, and a new wait begins. -/
theorem waitExpiry_sending {s : State} {a : Addr} (hs : s.snd.state = .established) (hp : s.snd.peer = some a)
    (hl : StreamLoaded s.cfg.crc s.snd s.now) (hb : s.snd.base.toNat ≤ s.snd.n.toNat)
    (hf : s.snd.next.toNat = fillEdge s.snd) :
    waitExpiry s = .ok (beginWait (sendAll a
      (imagesFrom s.snd s.snd.base.toNat (s.snd.next.toNat - s.snd.base.toNat))
      (withOutstanding s.snd (refreshed s.snd.outstanding s.now)) s)) := by
  have hl2 := refreshed_loaded hl
  obtain ⟨-, hn, hpk, -, hb1, ⟨hk, hbn, hw, hm⟩, -⟩ := hl
  have hedge : resendEdge s.snd = s.snd.next.toNat := by unfold resendEdge; omega
  have hlt := s.snd.next.isLt
  have hr := forRange_resendOne (c := s.snd.next.toNat - s.snd.base.toNat) (q := s.snd.base.toNat) hp (by omega)
    (mapWf_of_keyNats_range' hk)
    (fun k h1 h2 => by
      rw [mapGet_isSome_iff, hpk, ofNat_toNat_u32 (by omega), List.mem_range'_1]; omega)
    (fun k h1 h2 => by
      rw [mapGet_isSome_iff, hk, ofNat_toNat_u32 (by omega), List.mem_range'_1]; omega)
  rw [refreshRange_all hk] at hr
  unfold waitExpiry
  simp only [hs, hedge, hr]
  have := loopHead_fill (s := sendAll a (imagesFrom s.snd s.snd.base.toNat (s.snd.next.toNat - s.snd.base.toNat))
    (withOutstanding s.snd (refreshed s.snd.outstanding s.now)) s) (a := a) hb hp hl2
  rw [this]
  have hfull : filledSender (withOutstanding s.snd (refreshed s.snd.outstanding s.now)) s.now =
    withOutstanding s.snd (refreshed s.snd.outstanding s.now) := filledSender_full _ hf
  have h0 : fillEdge (withOutstanding s.snd (refreshed s.snd.outstanding s.now)) -
    (withOutstanding s.snd (refreshed s.snd.outstanding s.now)).next.toNat = 0 := by
    show fillEdge s.snd - s.snd.next.toNat = 0
    omega
  simp only [sendAll, hfull, h0, imagesFrom_zero, List.map_nil, List.append_nil]

theorem sendEnd_ok {s : State} {a : Addr} (hp : s.snd.peer = some a) (hn : s.snd.n.toNat + 1 < 2 ^ 32) :
    sendEnd s = .ok (transmit .snd a (endPacket s.cfg.crc (BitVec.ofNat 32 (s.snd.n.toNat + 1))) s) := by
  simp only [sendEnd, narrow_ok hn, sndTx_some hp]

/-- END is sent again. -/
theorem waitExpiry_closing {s : State} {a : Addr} (hs : s.snd.state = .closing) (hp : s.snd.peer = some a)
    (hn : s.snd.n.toNat + 1 < 2 ^ 32) :
    waitExpiry s =
      .ok (beginWait (transmit .snd a (endPacket s.cfg.crc (BitVec.ofNat 32 (s.snd.n.toNat + 1))) s)) := by
  simp only [waitExpiry, hs, sendEnd_ok hp hn]

/-- A wait expiry; the wait itself may stand at any number. -/
theorem waitExpiry_keeps {s : State} (v : Nat) (ht : 1 ≤ s.cfg.rxTimeout) (h : SenderOk s.cfg.crc s.snd s.now)
    (hr : sndReceptive s.snd = true) :
    ∃ t, waitExpiry { s with snd := { s.snd with waitLeft := v } } = .ok t ∧ SndKeeps s t := by
  have hcase : s.snd.state = .handshaking ∨ (s.snd.state = .established ∧ s.snd.active = true) ∨
      s.snd.state = .closing := by
    simpa [sndReceptive, or_assoc] using hr
  rcases hcase with hs | ⟨hs, hact⟩ | hs
  · obtain ⟨⟨hp, hwin⟩, hn, hb, hx, hw, hk⟩ := h.2.1 hs
    obtain ⟨a, hp⟩ := Option.isSome_iff_exists.mp hp
    refine ⟨beginWait (transmit .snd a (startPacket s.cfg.crc 0) { s with snd := { s.snd with waitLeft := v } }), ?_, ?_⟩
    · simp [waitExpiry, hs, sndTx, hp]
    · refine ⟨rfl, rfl, rfl, rfl, rfl, rfl, sndEdge_refl _, h.wait hr ht, [.txSnd (startPacket s.cfg.crc 0) a], rfl, ?_⟩
      intro o ho
      rw [List.mem_singleton.mp ho]
      exact ⟨hp, .inl rfl⟩
  · obtain ⟨hc, hk, hl, hb, hf, -⟩ := h.sending hs hact
    obtain ⟨a, hp⟩ := Option.isSome_iff_exists.mp hc.1
    refine ⟨_, waitExpiry_sending (s := { s with snd := { s.snd with waitLeft := v } }) hs hp hl hb hf, ?_⟩
    refine ⟨rfl, rfl, rfl, rfl, rfl, rfl, sndEdge_refl _, ?_,
      (imagesFrom s.snd s.snd.base.toNat (s.snd.next.toNat - s.snd.base.toNat)).map (fun b => .txSnd b a), rfl, ?_⟩
    · exact SenderOk.of_established hs ⟨hc, hk, .inr ⟨refreshed_loaded hl, ⟨fun _ => hb, fun _ => hact⟩,
        fun _ => ⟨hf, ht⟩⟩⟩
    · intro o ho
      obtain ⟨b, hbm, rfl⟩ := List.mem_map.mp ho
      have hm := hl.2.2.2.2.2.1.2.2.2
      have hb1 := hl.2.2.2.2.1
      have hbn := hl.2.2.2.2.2.1.2.1
      have hi : ∃ k : U32, 1 ≤ k.toNat ∧ k.toNat ≤ s.snd.n.toNat ∧ mapGet s.snd.pkt k = some b :=
        mem_imagesFrom hl hb1 (by omega) hbm
      exact ⟨hp, .inr (.inl hi)⟩
  · obtain ⟨hc, hk, hl, ha, hb, -, hd⟩ := h.2.2.2.1 hs
    obtain ⟨a, hp⟩ := Option.isSome_iff_exists.mp hc.1
    have hn := hl.2.1
    refine ⟨beginWait (transmit .snd a (endPacket s.cfg.crc (BitVec.ofNat 32 (s.snd.n.toNat + 1)))
      { s with snd := { s.snd with waitLeft := v } }), ?_, ?_⟩
    · exact waitExpiry_closing (s := { s with snd := { s.snd with waitLeft := v } }) hs hp
        (show s.snd.n.toNat + 1 < 2 ^ 32 by omega)
    · refine ⟨rfl, rfl, rfl, rfl, rfl, rfl, sndEdge_refl _, h.wait hr ht, [.txSnd _ a], rfl, ?_⟩
      intro o ho
      rw [List.mem_singleton.mp ho]
      exact ⟨hp, .inr (.inr rfl)⟩

/-- The receive wait's part of a TICK. -/
theorem tickWait_keeps {s : State} (ht : 1 ≤ s.cfg.rxTimeout) (h : SenderOk s.cfg.crc s.snd s.now)
    (hr : sndReceptive s.snd = true) : ∃ t, tickWait s = .ok t ∧ SndKeeps s t := by
  have hw : 1 ≤ s.snd.waitLeft := by
    have hcase : s.snd.state = .handshaking ∨ (s.snd.state = .established ∧ s.snd.active = true) ∨
        s.snd.state = .closing := by
      simpa [sndReceptive, or_assoc] using hr
    rcases hcase with hs | ⟨hs, hact⟩ | hs
    · exact (h.2.1 hs).2.2.2.2.1
    · exact (h.sending hs hact).2.2.2.2.2
    · exact (h.2.2.2.1 hs).2.2.2.2.2.1
  unfold tickWait
  rw [if_neg (by omega)]
  simp only
  split
  · exact waitExpiry_keeps _ ht h hr
  · rename_i hne
    refine ⟨_, rfl, rfl, rfl, rfl, rfl, rfl, rfl, sndEdge_refl _, ?_, [], by simp, by simp⟩
    exact h.wait hr (by omega)

/-- A TICK: what follows the step of `now`. -/
theorem tick_keeps {s : State} (ht : 1 ≤ s.cfg.rxTimeout) (h : SenderOk s.cfg.crc s.snd s.now) :
    ∃ t, tick s = .ok t ∧ SndKeeps { s with now := s.now + 1 } t := by
  have h1 : SenderOk s.cfg.crc s.snd (s.now + 1) := h.mono (Nat.le_succ _)
  unfold tick
  simp only
  split
  · rename_i hr
    split
    · rename_i hs
      obtain ⟨hc, hk, hl, ha, hb, hw, hd⟩ := h1.2.2.2.1 hs
      rw [if_neg (by omega)]
      split
      · refine ⟨_, rfl, rfl, rfl, rfl, rfl, rfl, rfl, ?_, ?_, [.closed false], rfl, ?_⟩
        · show sndEdge s.snd.state _ = true
          rw [hs]; rfl
        · exact SenderOk.of_closed rfl ⟨hc, hl, ha, hb⟩
        · intro o ho
          rw [List.mem_singleton.mp ho]
          trivial
      · rename_i hne
        obtain ⟨t, ht1, k⟩ := tickWait_keeps
          (s := { s with now := s.now + 1, snd := { s.snd with dlLeft := s.snd.dlLeft - 1 } }) ht
          (SenderOk.of_closing hs ⟨hc, hk, hl, ha, hb, hw, Nat.one_le_iff_ne_zero.mpr hne⟩) hr
        exact ⟨t, ht1, k.cfg, k.rcv, k.now, k.inputs, k.freeCount, k.win, k.edge, k.ok, k.outs⟩
    · exact tickWait_keeps (s := { s with now := s.now + 1 }) ht h1 hr
  · exact ⟨_, rfl, SndKeeps.refl h1⟩

end Sys2Proof.Machine
end

