-- ==== Sys2Proof/Laws/Commands.lean ====
section
/-! SUPPORT. What the engines' commands do from a state of the invariant. -/

namespace Sys2Proof.Machine

/-! ### The sender's commands -/

/-- What a sender command keeps; it puts out one response and then only what the sender may put out. -/
structure SndCmdKeeps (s t : State) : Prop where
  cfg  : t.cfg = s.cfg
  rcv  : t.rcv = s.rcv
  now  : t.now = s.now
  edge : sndEdge s.snd.state t.snd.state = true
  ok   : SenderOk t.cfg.crc t.snd t.now
  outs : ∃ c r l, t.outputs = s.outputs ++ .resp c r :: l ∧ ∀ o ∈ l, SenderOutput t.cfg.crc t.snd o

theorem respond_sndKeeps {s : State} (c : Status) (r : List Value) (h : SenderOk s.cfg.crc s.snd s.now) :
    SndCmdKeeps s (respond c r s) :=
  ⟨rfl, rfl, rfl, sndEdge_refl _, h, c, r, [], rfl, by simp⟩

theorem one_le_of_ne_zero {w : U32} (h : w ≠ 0) : 1 ≤ w.toNat := by
  have := u32_toNat_ne h
  simp only [BitVec.ofNat_eq_ofNat, BitVec.toNat_ofNat, Nat.zero_mod, ne_eq] at this
  omega

theorem execSndConnect_keeps {s : State} (a : Addr) (w : U32) (ht : 1 ≤ s.cfg.rxTimeout)
    (h : SenderOk s.cfg.crc s.snd s.now) : ∃ t, execSndConnect a w s = .next t ∧ SndCmdKeeps s t := by
  unfold execSndConnect
  split
  · exact ⟨_, rfl, respond_sndKeeps _ _ h⟩
  · rename_i hi
    simp only [ne_eq, Decidable.not_not] at hi
    split
    · exact ⟨_, rfl, respond_sndKeeps _ _ h⟩
    · rename_i hw
      have hx := h.1 hi
      refine ⟨_, rfl, rfl, rfl, rfl, by rw [hi]; rfl, ?_, .ok, [], [.txSnd (startPacket s.cfg.crc 0) a], by simp, ?_⟩
      · refine SenderOk.of_handshaking rfl ⟨⟨rfl, one_le_of_ne_zero hw⟩, ?_, ?_, ?_, ht, ?_⟩
        all_goals simp [hx, Sender.reset]
      · intro o ho
        rw [List.mem_singleton.mp ho]
        exact ⟨rfl, .inl rfl⟩

theorem keyNats_dataImages (cfg : Config) (stream : Bytes) {n : Nat} (hn : n < 2 ^ 32) :
    keyNats (dataImages cfg stream n) = List.range' 1 n := by
  simp only [keyNats, dataImages, List.map_map]
  rw [List.range'_eq_map_range]
  refine List.map_congr_left fun k hk => ?_
  have := List.mem_range.mp hk
  simp only [Function.comp]
  rw [ofNat_toNat_u32 (by omega)]
  omega

/-- The images of a stream, written into an empty `snd.pkt`. -/
theorem mapInsertAll_dataImages (cfg : Config) (stream : Bytes) {n : Nat} (hn : n < 2 ^ 32) :
    mapInsertAll ([] : UMap Bytes) (dataImages cfg stream n) = dataImages cfg stream n :=
  mapInsertAll_append (mapWf_of_keyNats_range' (keyNats_dataImages cfg stream hn)) (by simp)

/-- The sender once SND_SEND has loaded a stream, before LoopHead (43 R186, R187). -/
def loadedSender (cfg : Config) (x : Sender) (stream : Bytes) (n : Nat) : Sender :=
  { x with
    pkt := mapInsertAll x.pkt (dataImages cfg stream n)
    n := BitVec.ofNat 32 n
    loaded := true
    active := true }

theorem loadedSender_loaded {cfg : Config} {x : Sender} (now : Nat) (stream : Bytes) {n : Nat} (hn : NoStream x)
    (hN : n ≤ 2 ^ 32 - 3) (hb : x.base = 1) (hx : x.next = 1) :
    StreamLoaded cfg.crc (loadedSender cfg x stream n) now := by
  obtain ⟨-, -, -, h4, h5⟩ := hn
  have hk := keyNats_dataImages cfg stream (n := n) (by omega)
  have hins := mapInsertAll_dataImages cfg stream (n := n) (by omega)
  have hnn : (BitVec.ofNat 32 n).toNat = n := ofNat_toNat_u32 (by omega)
  unfold loadedSender
  refine ⟨rfl, by dsimp only; omega, ?_, ?_, ?_, ⟨?_, ?_, ?_, ?_⟩, ?_⟩
  · dsimp only; rw [h4, hins, hk, hnn]
  · dsimp only
    rw [h4, hins]
    intro e he
    obtain ⟨i, -, rfl⟩ := List.mem_map.mp he
    dsimp only
    congr 1
  · dsimp only; rw [hb]; decide
  · dsimp only; rw [hb, hx, h5]; rfl
  · dsimp only; rw [hb, hx]
  · dsimp only; rw [hb, hx]; omega
  · dsimp only; rw [hb, hx]; omega
  · dsimp only; rw [h5]; simp

theorem execSndSend_keeps {s : State} (stream : Bytes) (ht : 1 ≤ s.cfg.rxTimeout)
    (h : SenderOk s.cfg.crc s.snd s.now) : ∃ t, execSndSend stream s = .next t ∧ SndCmdKeeps s t := by
  unfold execSndSend
  simp only
  split
  · exact ⟨_, rfl, respond_sndKeeps _ _ h⟩
  · rename_i hc
    simp only [ne_eq, not_or, Decidable.not_not, Bool.not_eq_true] at hc
    split
    · exact ⟨_, rfl, respond_sndKeeps _ _ h⟩
    · rename_i hN
      obtain ⟨a, b, ⟨c, d, e⟩ | c⟩ := h.2.2.1 hc.1
      · have hl := loadedSender_loaded (cfg := s.cfg) s.now stream c (Nat.not_lt.mp hN) d e
        obtain ⟨t, h1, h2⟩ := loopHead_keeps (s := { respond .ok [] s with
          snd := loadedSender s.cfg s.snd stream (chunkCount stream.length s.cfg.maxPayload) }) ⟨ht, hc.1, a, b, rfl, hl⟩
        obtain ⟨l, hl, hl2⟩ := h2.outs
        refine ⟨t, congrArg answer h1, h2.cfg, h2.rcv, h2.now, h2.edge, h2.ok, .ok, [], l, ?_, hl2⟩
        rw [hl]
        simp
      · rw [c.1.1] at hc; cases hc.2

theorem execSndClose_keeps {s : State} (hcfg : s.cfg.Ok) (h : SenderOk s.cfg.crc s.snd s.now) :
    ∃ t, execSndClose s = .next t ∧ SndCmdKeeps s t := by
  unfold execSndClose
  simp only
  split
  · exact ⟨_, rfl, respond_sndKeeps _ _ h⟩
  · rename_i hc
    simp only [ne_eq, not_or, Decidable.not_not, Bool.not_eq_true] at hc
    obtain ⟨hcon, hk, hst⟩ := h.2.2.1 hc.1
    obtain ⟨a, hp⟩ := Option.isSome_iff_exists.mp hcon.1
    rcases hst with ⟨hn, hb, hx⟩ | ⟨hl, hb, hx⟩
    · simp only [respond_snd, hn.1, Bool.false_eq_true, if_false]
      rw [sendEnd_ok (a := a) (by exact hp) (by simp)]
      refine ⟨_, rfl, rfl, rfl, rfl, by rw [hc.1]; rfl, ?_, .ok, [], [.txSnd (endPacket s.cfg.crc 1) a], by simp, ?_⟩
      · refine SenderOk.of_closing rfl ⟨hcon, hk, ⟨rfl, by simp, ?_, ?_, ?_, ⟨?_, ?_, ?_, ?_⟩, ?_⟩, hn.2.1, ?_,
          hcfg.2.2.1, hcfg.2.2.2.1⟩
        all_goals simp [hn.2.2.2.1, hn.2.2.2.2, hb, hx, keyNats]
      · intro o ho
        rw [List.mem_singleton.mp ho]
        exact ⟨hp, .inr (.inr rfl)⟩
    · have hn1 := hl.2.1
      simp only [respond_snd, hl.1, if_true]
      rw [sendEnd_ok (a := a) (s := respond .ok [] s) hp (by show s.snd.n.toNat + 1 < _; omega)]
      refine ⟨_, rfl, rfl, rfl, rfl, by rw [hc.1]; rfl, ?_, .ok, [],
        [.txSnd (endPacket s.cfg.crc (BitVec.ofNat 32 (s.snd.n.toNat + 1))) a], by simp, ?_⟩
      · refine SenderOk.of_closing rfl ⟨hcon, hk, ⟨hl.1, hl.2⟩, hc.2, ?_, hcfg.2.2.1, hcfg.2.2.2.1⟩
        have : ¬ s.snd.active = true := by simp [hc.2]
        rw [hb] at this
        show s.snd.n.toNat < s.snd.base.toNat
        omega
      · intro o ho
        rw [List.mem_singleton.mp ho]
        exact ⟨hp, .inr (.inr rfl)⟩

/-! ### The receiver's commands -/

/-- What a receiver command keeps; it puts out one response. -/
structure RcvCmdKeeps (s t : State) : Prop where
  cfg  : t.cfg = s.cfg
  snd  : t.snd = s.snd
  now  : t.now = s.now
  edge : rcvEdge s.rcv.state t.rcv.state = true
  ok   : ReceiverOk t.cfg t.rcv
  out  : t.rcv.out = s.rcv.out
  nes  : t.rcv.nes = s.rcv.nes
  outs : ∃ c r, t.outputs = s.outputs ++ [.resp c r]

theorem respond_rcvKeeps {s : State} (c : Status) (r : List Value) (h : ReceiverOk s.cfg s.rcv) :
    RcvCmdKeeps s (respond c r s) :=
  ⟨rfl, rfl, rfl, rcvEdge_refl _ h.1, h, rfl, rfl, c, r, rfl⟩

theorem execRcvBind_keeps {s : State} (a : Addr) (h : ReceiverOk s.cfg s.rcv) :
    ∃ t, execRcvBind a s = .next t ∧ RcvCmdKeeps s t := by
  unfold execRcvBind
  split
  · exact ⟨_, rfl, respond_rcvKeeps _ _ h⟩
  · rename_i hc
    simp only [ne_eq, not_or, Decidable.not_not, Bool.not_eq_true] at hc
    refine ⟨_, rfl, rfl, rfl, rfl, rcvEdge_refl _ h.1, ?_, rfl, rfl, .ok, [], rfl⟩
    obtain ⟨h0, h1, -, -⟩ := h
    refine ⟨h0, fun hi => ?_, by simp [hc], by simp [hc]⟩
    obtain ⟨a1, a2, a3, a4, a5, a6, -, a8⟩ := h1 hi
    exact ⟨a1, a2, a3, a4, a5, a6, by simp [hc], a8⟩

theorem execRcvAccept_keeps {s : State} (w : U32) (h : ReceiverOk s.cfg s.rcv) :
    ∃ t, execRcvAccept w s = .next t ∧ RcvCmdKeeps s t := by
  unfold execRcvAccept
  split
  · exact ⟨_, rfl, respond_rcvKeeps _ _ h⟩
  · rename_i hc
    simp only [ne_eq, not_or, Decidable.not_not, Bool.not_eq_true] at hc
    split
    · exact ⟨_, rfl, respond_rcvKeeps _ _ h⟩
    · rename_i hw
      refine ⟨_, rfl, rfl, rfl, rfl, rcvEdge_refl _ h.1, ?_, rfl, rfl, .ok, [], rfl⟩
      obtain ⟨h0, h1, -, -⟩ := h
      refine ⟨h0, fun hi => ?_, by simp [hc], by simp [hc]⟩
      obtain ⟨a1, a2, a3, a4, a5, a6, -, -⟩ := h1 hi
      exact ⟨a1, a2, a3, a4, a5, a6, fun _ => ⟨Option.isSome_iff_ne_none.mpr hc.2.2.1, one_le_of_ne_zero hw⟩, by simp⟩

end Sys2Proof.Machine
end

