-- ==== Sys2Proof/Laws/Step.lean ====
section
/-! SUPPORT. What taking an input event can do to the state, and the ways a step can go, said once. -/

namespace Sys2Proof.Machine

/-! ### Taking an input event -/

/-- Taking an event changes the pending events and the channel only. -/
structure Fetched (s s1 : State) : Prop where
  cfg       : s1.cfg = s.cfg
  snd       : s1.snd = s.snd
  rcv       : s1.rcv = s.rcv
  now       : s1.now = s.now
  outputs   : s1.outputs = s.outputs
  freeCount : s1.freeCount = s.freeCount

theorem fetch_frame {s s1 : State} {ev : Input} (h : fetch s = some (ev, s1)) : Fetched s s1 := by
  unfold fetch at h
  split at h
  · cases h
  · rename_i e rest _
    simp only [Option.some.injEq] at h
    unfold resolveDelivery at h
    split at h
    · split at h
      · cases h; exact ⟨rfl, rfl, rfl, rfl, rfl, rfl⟩
      · cases h; exact ⟨rfl, rfl, rfl, rfl, rfl, rfl⟩
    · cases h; exact ⟨rfl, rfl, rfl, rfl, rfl, rfl⟩

/-- An event that is no TICK and no delivery is taken first. -/
theorem fetch_first {s : State} {a : Arrival} {rest : List Arrival} (h : s.inputs = a :: rest) (ht : a.ev ≠ .tick)
    (hd : ∀ k e, a.ev ≠ .channel (.deliver k e)) : fetch s = some (a.ev, { s with inputs := rest }) := by
  obtain ⟨m, ev⟩ := a
  have hp : pickInput s.inputs = some (ev, rest) := by rw [h, pickInput, if_neg ht]
  simp only [fetch, hp]
  unfold resolveDelivery
  split
  · rename_i k e
    exact absurd rfl (hd k e)
  · rfl

theorem fetch_command {s : State} {m : Nat} {w : U32} {ops : List Value} {rest : List Arrival}
    (h : s.inputs = ⟨m, .cmd w ops⟩ :: rest) : fetch s = some (.cmd w ops, { s with inputs := rest }) :=
  fetch_first h (by simp) (by simp)

theorem fetch_datagram {s : State} {m : Nat} {e : Engine} {b : Bytes} {src : Addr} {rest : List Arrival}
    (h : s.inputs = ⟨m, .rx e b src⟩ :: rest) : fetch s = some (.rx e b src, { s with inputs := rest }) :=
  fetch_first h (by simp) (by simp)

/-- A datagram of moment `t` behind events of that moment that bring none is the first one. -/
theorem firstDatagram_found {t : Nat} (before rest : List Arrival) (ev : Input)
    (hb : ∀ a ∈ before, a.moment = t ∧ isDatagram a.ev = false) (hd : isDatagram ev = true) :
    firstDatagram t (before ++ ⟨t, ev⟩ :: rest) = some (ev, before ++ rest) := by
  induction before with
  | nil => simp [firstDatagram, hd]
  | cons a l ih =>
    have ha := hb a (by simp)
    have hl := ih fun x hx => hb x (by simp [hx])
    simp [firstDatagram, ha.1, ha.2, hl]

/-- The run of events of moment `t` that bring none ends the search. -/
theorem firstDatagram_none {t : Nat} (now rest : List Arrival)
    (hb : ∀ a ∈ now, a.moment = t ∧ isDatagram a.ev = false) (hr : ∀ a ∈ rest.head?, a.moment ≠ t) :
    firstDatagram t (now ++ rest) = none := by
  induction now with
  | nil =>
    cases rest with
    | nil => rfl
    | cons x l =>
      simp only [List.head?_cons, Option.mem_def, Option.some.injEq, forall_eq'] at hr
      simp [firstDatagram, hr]
  | cons a l ih =>
    have ha := hb a (by simp)
    have hl := ih fun x hx => hb x (by simp [hx])
    simp [firstDatagram, ha.1, ha.2, hl]

/-! ### A step -/

theorem step_instr {s s1 : State} {ev : Input} {i : Instr} (h : fetch s = some (ev, s1)) (hd : decode ev = .instr i) :
    step s = exec i s1 := by simp [step, h, hd]

theorem step_other {s s1 : State} {ev : Input} {r : Reject} (h : fetch s = some (ev, s1))
    (hd : decode ev = .rejected r) : step s = otherEvent ev s1 := by simp [step, h, hd]

theorem step_empty {s : State} (h : fetch s = none) : step s = .next s := by simp [step, h]

/-- The ways a step can go: nothing pending, an instruction, or another event. -/
theorem step_ways (s : State) :
    (fetch s = none ∧ step s = .next s) ∨
    ∃ ev s1, fetch s = some (ev, s1) ∧
      ((∃ i, decode ev = .instr i ∧ step s = exec i s1) ∨
        ∃ r, decode ev = .rejected r ∧ step s = otherEvent ev s1) := by
  cases hf : fetch s with
  | none => exact .inl ⟨rfl, step_empty hf⟩
  | some x =>
    obtain ⟨ev, s1⟩ := x
    refine .inr ⟨ev, s1, rfl, ?_⟩
    cases hd : decode ev with
    | instr i => exact .inl ⟨i, rfl, step_instr hf hd⟩
    | rejected r => exact .inr ⟨r, rfl, step_other hf hd⟩

end Sys2Proof.Machine
end

