-- ==== Sys2Proof/Laws/Exec.lean ====
section
/-! SUPPORT. What an instruction can do, said once: from any state (`exec_way`) and from a state of the invariant
(`exec_keeps`). -/

namespace Sys2Proof.Machine

/-! ### From any state -/

/-- What an offered datagram can do: stay in the channel; be taken by the sender; be taken by the receiver, which may
change a register only where the packet is checksum-valid; be dropped as malformed. -/
inductive OfferWay (s t : State) : Prop where
  | left (e : Engine) (src : Addr) (b : Bytes) (h : t = leaveInChannel e src b s)
  | snd (a : Option U32) (r : sndReceptive s.snd = true) (h : sndTake a s = .ok t)
  | rcv (src : Addr) (p : Packet) (r : rcvReceptive s.rcv = true) (v : verify s.cfg.crc p = true ∨ t.rcv = s.rcv)
      (f : RcvFrame s t) (k : RcvEffect src p s t)
  | dropped (h : t = s)

theorem offerPacket_way {e : Engine} {src : Addr} {b : Bytes} {p : Packet} {rule : State → Eff} {s t : State}
    (hrule : ∀ t, rule s = .ok t → RcvFrame s t ∧ RcvEffect src p s t) (h : offerPacket e src b p rule s = .next t) :
    OfferWay s t := by
  unfold offerPacket at h
  split at h
  · rename_i hr
    cases e with
    | snd => exact .snd _ hr (answer_next h)
    | rcv =>
      have := answer_next h
      split at this
      · rename_i hv
        exact .rcv src p hr (.inl hv) (hrule _ this).1 (hrule _ this).2
      · simp only [Except.ok.injEq] at this
        subst this
        exact .rcv src p hr (.inr (rcvMismatch_rcv src s)) (rcvMismatch_effect src p s).1 (rcvMismatch_effect src p s).2
  · simp only [Host.Outcome.next.injEq] at h
    exact .left e src b h.symm

theorem offerMalformed_way {e : Engine} {src : Addr} {b : Bytes} {s t : State}
    (h : offerMalformed e src b s = .next t) : OfferWay s t := by
  unfold offerMalformed at h
  split at h
  · rename_i hr
    cases e with
    | snd => exact .snd _ hr (answer_next h)
    | rcv =>
      simp only [Host.Outcome.next.injEq] at h
      subst h
      exact .dropped rfl
  · simp only [Host.Outcome.next.injEq] at h
    exact .left e src b h.symm

/-- What a receiver command that is taken leaves alone: it is taken in Idle before the receiver listens. -/
structure RcvSetUp (s t : State) : Prop where
  snd       : t.snd = s.snd
  idle      : s.rcv.state = .idle
  listening : s.rcv.listening = false
  fault     : s.rcv.fault = none
  state     : t.rcv.state = s.rcv.state
  out       : t.rcv.out = s.rcv.out
  nes       : t.rcv.nes = s.rcv.nes

/-- What a command does: one response, then events of the sender; no change where the response is not OK. -/
structure CommandWay (s t : State) : Prop where
  cfg    : t.cfg = s.cfg
  now    : t.now = s.now
  inputs : t.inputs = s.inputs
  resp   : ∃ c r l, t.outputs = s.outputs ++ .resp c r :: l ∧ (∀ o ∈ l, senderEvent o = true) ∧
    (c ≠ .ok → l = [] ∧ t.snd = s.snd ∧ t.rcv = s.rcv ∧ t.channel = s.channel)
  rcv    : t.rcv = s.rcv ∨ RcvSetUp s t
  snd    : t.snd = s.snd ∨ s.snd.state = .idle ∨ (s.snd.state = .established ∧ t.snd.win = s.snd.win)
  wf     : Memory.wf s → Memory.wf t

theorem respond_way (c : Status) (r : List Value) (n : Nat) (s : State) :
    CommandWay s (respond c r { s with freeCount := n }) :=
  ⟨rfl, rfl, rfl, ⟨c, r, [], rfl, by simp, fun _ => ⟨rfl, rfl, rfl, rfl⟩⟩, .inl rfl, .inl rfl, id⟩

theorem execSndConnect_way {a : Addr} {w : U32} {s t : State} (h : execSndConnect a w s = .next t) :
    CommandWay s t := by
  unfold execSndConnect at h
  split at h
  · cases h; exact respond_way _ _ s.freeCount s
  · rename_i hi
    simp only [ne_eq, Decidable.not_not] at hi
    split at h
    · cases h; exact respond_way _ _ s.freeCount s
    · cases h
      exact ⟨rfl, rfl, rfl, ⟨.ok, [], [.txSnd (startPacket s.cfg.crc 0) a], by simp, by simp [senderEvent], by simp⟩,
        .inl rfl, .inr (.inl hi), id⟩

theorem execSndSend_way {b : Bytes} {s t : State} (h : execSndSend b s = .next t) : CommandWay s t := by
  unfold execSndSend at h
  simp only at h
  split at h
  · cases h; exact respond_way _ _ s.freeCount s
  · rename_i hi
    simp only [ne_eq, not_or, Decidable.not_not] at hi
    split at h
    · cases h; exact respond_way _ _ s.freeCount s
    · have f := loopHead_frame (answer_next h)
      obtain ⟨l, hl, hl2⟩ := f.outs
      refine ⟨f.cfg, f.now, f.inputs, ⟨.ok, [], l, by rw [hl]; simp, hl2, by simp⟩, .inl f.rcv,
        .inr (.inr ⟨hi.1, f.win⟩), fun w => ⟨?_, f.wf w.2.1, by rw [f.rcv]; exact w.2.2⟩⟩
      rw [f.pkt]
      exact mapWf_mapInsertAll w.1 _

theorem execSndClose_way {s t : State} (h : execSndClose s = .next t) : CommandWay s t := by
  have finish : ∀ x : Sender, x.win = s.snd.win → x.outstanding = s.snd.outstanding → x.pkt = s.snd.pkt →
      s.snd.state = .established → ∀ s3 : State, sendEnd { respond .ok [] s with snd := x } = .ok s3 →
      CommandWay s (beginWait { s3 with snd := { s3.snd with state := .closing, dlLeft := s.cfg.closeDeadline } }) := by
    intro x hw ho hk hs s3 h3
    obtain ⟨f, fs⟩ := sendEnd_frame h3
    obtain ⟨l, hl, hl2⟩ := f.outs
    refine ⟨f.cfg, f.now, f.inputs, ⟨.ok, [], l, by simp [hl], hl2, by simp⟩, .inl f.rcv,
      .inr (.inr ⟨hs, f.win.trans hw⟩), fun w => ⟨?_, f.wf (by simpa [ho] using w.2.1), ?_⟩⟩
    · simp only [beginWait_snd, fs, hk]; exact w.1
    · simp only [beginWait_rcv, f.rcv]; exact w.2.2
  unfold execSndClose at h
  simp only at h
  split at h
  · cases h; exact respond_way _ _ s.freeCount s
  · rename_i hi
    simp only [ne_eq, not_or, Decidable.not_not] at hi
    split at h
    · cases h
    · rename_i s3 hs
      cases h
      split at hs
      · exact finish s.snd rfl rfl rfl hi.1 s3 hs
      · exact finish { s.snd with loaded := true, n := 0 } rfl rfl rfl hi.1 s3 hs

theorem execRcvBind_way {a : Addr} {s t : State} (h : execRcvBind a s = .next t) : CommandWay s t := by
  unfold execRcvBind at h
  split at h
  · cases h; exact respond_way _ _ s.freeCount s
  · rename_i hi
    simp only [ne_eq, not_or, Decidable.not_not, Bool.not_eq_true] at hi
    cases h
    exact ⟨rfl, rfl, rfl, ⟨.ok, [], [], by simp, by simp, by simp⟩, .inr ⟨rfl, hi.1, hi.2.1, hi.2.2, rfl, rfl, rfl⟩, .inl rfl, id⟩

theorem execRcvAccept_way {w : U32} {s t : State} (h : execRcvAccept w s = .next t) : CommandWay s t := by
  unfold execRcvAccept at h
  split at h
  · cases h; exact respond_way _ _ s.freeCount s
  · rename_i hi
    simp only [ne_eq, not_or, Decidable.not_not, Bool.not_eq_true] at hi
    split at h
    · cases h; exact respond_way _ _ s.freeCount s
    · cases h
      exact ⟨rfl, rfl, rfl, ⟨.ok, [], [], by simp, by simp, by simp⟩,
        .inr ⟨rfl, hi.1, hi.2.1, hi.2.2.2, rfl, rfl, rfl⟩, .inl rfl, id⟩

/-- What an instruction can do. -/
theorem exec_way {i : Instr} {s t : State} (h : exec i s = .next t) :
    (isCommand i = true ∧ CommandWay s t) ∨ (isCommand i = false ∧ OfferWay s t) := by
  cases i with
  | codecEncode t q l c p => cases h; exact .inl ⟨rfl, respond_way _ _ s.freeCount s⟩
  | codecChecksum t q l c p => cases h; exact .inl ⟨rfl, respond_way _ _ s.freeCount s⟩
  | codecDecode b =>
    simp only [exec, execCodecDecode] at h
    split at h <;> (cases h; exact .inl ⟨rfl, respond_way _ _ s.freeCount s⟩)
  | codecVerify b =>
    simp only [exec, execCodecVerify] at h
    split at h <;> (cases h; exact .inl ⟨rfl, respond_way _ _ s.freeCount s⟩)
  | swInWindow q b n => cases h; exact .inl ⟨rfl, respond_way _ _ s.freeCount s⟩
  | swAdvance b m =>
    simp only [exec, execSwAdvance] at h
    split at h <;> (cases h; exact .inl ⟨rfl, respond_way _ _ s.freeCount s⟩)
  | sndConnect a w => exact .inl ⟨rfl, execSndConnect_way h⟩
  | sndSend b => exact .inl ⟨rfl, execSndSend_way h⟩
  | sndClose => exact .inl ⟨rfl, execSndClose_way h⟩
  | rcvBind a => exact .inl ⟨rfl, execRcvBind_way h⟩
  | rcvAccept w => exact .inl ⟨rfl, execRcvAccept_way h⟩
  | regRead k =>
    simp only [exec, execRegRead] at h
    split at h
    · cases h; exact .inl ⟨rfl, respond_way _ _ s.freeCount s⟩
    · cases h; exact .inl ⟨rfl, respond_way _ _ (s.freeCount + 1) s⟩
  | start e a p =>
    simp only [exec, execStart] at h
    refine .inr ⟨rfl, offerPacket_way (fun u hu => ?_) h⟩
    simp only [Except.ok.injEq] at hu
    subst hu
    exact rcvStart_effect a p.seq _ s
  | endPkt e a p => exact .inr ⟨rfl, offerPacket_way (fun u hu => rcvEnd_effect _ hu) h⟩
  | data e a p =>
    simp only [exec, execData] at h
    refine .inr ⟨rfl, offerPacket_way (fun u hu => ?_) h⟩
    simp only [Except.ok.injEq] at hu
    subst hu
    exact rcvData_effect a (k := bodyPacket typeData p) rfl s
  | ack e a p =>
    simp only [exec, execAck] at h
    refine .inr ⟨rfl, offerPacket_way (fun u hu => ?_) h⟩
    simp only [Except.ok.injEq] at hu
    subst hu
    exact ⟨.refl s, .same rfl (.inl rfl)⟩

/-! ### From a state of the invariant -/

/-- What an instruction does from a state of the invariant. -/
inductive ExecKeeps (s t : State) : Prop where
  | snd (k : SndKeeps s t)
  | sndCmd (k : SndCmdKeeps s t)
  | rcv (src : Addr) (p : Packet) (r : rcvReceptive s.rcv = true) (v : verify s.cfg.crc p = true ∨ t.rcv = s.rcv)
      (f : RcvFrame s t) (k : RcvEffect src p s t)
  | rcvCmd (k : RcvCmdKeeps s t)
  | none (k : t.cfg = s.cfg ∧ t.snd = s.snd ∧ t.rcv = s.rcv ∧ t.now = s.now)
      (o : t.outputs = s.outputs ∨ ∃ c r, t.outputs = s.outputs ++ [.resp c r])

theorem offerPacket_keeps {s : State} (e : Engine) (src : Addr) (b : Bytes) (p : Packet) (rule : State → Eff)
    (hi : CoreInv s)
    (hr : rcvReceptive s.rcv = true → ∃ t, rule s = .ok t ∧ RcvFrame s t ∧ RcvEffect src p s t) :
    ∃ t, offerPacket e src b p rule s = .next t ∧ ExecKeeps s t := by
  unfold offerPacket
  split
  · rename_i hrec
    cases e with
    | snd =>
      obtain ⟨t, h1, h2⟩ := sndTake_keeps (validAck s.cfg s.snd src p) hi.1.2.2.1 hi.2.1 hrec
      exact ⟨t, by simp only [h1]; rfl, .snd h2⟩
    | rcv =>
      simp only
      split
      · rename_i hv
        obtain ⟨t, h1, h2, h3⟩ := hr hrec
        exact ⟨t, by rw [h1]; rfl, .rcv src p hrec (.inl hv) h2 h3⟩
      · exact ⟨_, rfl, .rcv src p hrec (.inr (rcvMismatch_rcv src s)) (rcvMismatch_effect src p s).1
          (rcvMismatch_effect src p s).2⟩
  · exact ⟨_, rfl, .none ⟨rfl, rfl, rfl, rfl⟩ (.inl rfl)⟩

theorem offerMalformed_keeps {s : State} (e : Engine) (src : Addr) (b : Bytes) (hi : CoreInv s) :
    ∃ t, offerMalformed e src b s = .next t ∧ ExecKeeps s t := by
  unfold offerMalformed
  split
  · rename_i hrec
    cases e with
    | snd =>
      obtain ⟨t, h1, h2⟩ := sndTake_keeps none hi.1.2.2.1 hi.2.1 hrec
      exact ⟨t, by simp only [h1]; rfl, .snd h2⟩
    | rcv => exact ⟨_, rfl, .none ⟨rfl, rfl, rfl, rfl⟩ (.inl rfl)⟩
  · exact ⟨_, rfl, .none ⟨rfl, rfl, rfl, rfl⟩ (.inl rfl)⟩

/-- Every instruction completes from a state of the invariant. -/
theorem exec_keeps (i : Instr) {s : State} (hi : CoreInv s) : ∃ t, exec i s = .next t ∧ ExecKeeps s t := by
  have ⟨hc, hs, hr⟩ := hi
  have quiet : ∀ c r n, ExecKeeps s (respond c r { s with freeCount := n }) := fun c r n =>
    .none ⟨rfl, rfl, rfl, rfl⟩ (.inr ⟨c, r, rfl⟩)
  cases i with
  | codecEncode t q l c p => exact ⟨_, rfl, quiet _ _ s.freeCount⟩
  | codecChecksum t q l c p => exact ⟨_, rfl, quiet _ _ s.freeCount⟩
  | codecDecode b =>
    simp only [exec, execCodecDecode]
    split <;> exact ⟨_, rfl, quiet _ _ s.freeCount⟩
  | codecVerify b =>
    simp only [exec, execCodecVerify]
    split <;> exact ⟨_, rfl, quiet _ _ s.freeCount⟩
  | swInWindow q b n => exact ⟨_, rfl, quiet _ _ s.freeCount⟩
  | swAdvance b m =>
    simp only [exec, execSwAdvance]
    split <;> exact ⟨_, rfl, quiet _ _ s.freeCount⟩
  | sndConnect a w =>
    obtain ⟨t, h1, h2⟩ := execSndConnect_keeps a w hc.2.2.1 hs
    exact ⟨t, h1, .sndCmd h2⟩
  | sndSend b =>
    obtain ⟨t, h1, h2⟩ := execSndSend_keeps b hc.2.2.1 hs
    exact ⟨t, h1, .sndCmd h2⟩
  | sndClose =>
    obtain ⟨t, h1, h2⟩ := execSndClose_keeps hc hs
    exact ⟨t, h1, .sndCmd h2⟩
  | rcvBind a =>
    obtain ⟨t, h1, h2⟩ := execRcvBind_keeps a hr
    exact ⟨t, h1, .rcvCmd h2⟩
  | rcvAccept w =>
    obtain ⟨t, h1, h2⟩ := execRcvAccept_keeps w hr
    exact ⟨t, h1, .rcvCmd h2⟩
  | regRead k =>
    simp only [exec, execRegRead]
    split
    · exact ⟨_, rfl, quiet _ _ s.freeCount⟩
    · exact ⟨_, rfl, quiet _ _ (s.freeCount + 1)⟩
  | start e a p =>
    exact offerPacket_keeps e a _ _ (fun t => .ok (rcvStart a p.seq t)) hi fun _ =>
      ⟨rcvStart a p.seq s, rfl, rcvStart_effect a p.seq _ s⟩
  | endPkt e a p =>
    refine offerPacket_keeps e a _ _ _ hi fun _ => ?_
    obtain ⟨t, ht⟩ := rcvEnd_completes (src := a) (q := p.seq) hr
    exact ⟨t, ht, rcvEnd_effect _ ht⟩
  | data e a p =>
    exact offerPacket_keeps e a _ _ (fun t => .ok (rcvData a p.seq p.payload t)) hi fun _ =>
      ⟨rcvData a p.seq p.payload s, rfl, rcvData_effect a (k := bodyPacket typeData p) rfl s⟩
  | ack e a p =>
    exact offerPacket_keeps e a _ _ (fun t => .ok t) hi fun _ => ⟨s, rfl, .refl s, .same rfl (.inl rfl)⟩

theorem ExecKeeps.inv {s t : State} (hi : CoreInv s) (h : ExecKeeps s t) : CoreInv t := by
  have ⟨hc, hs, hr⟩ := hi
  cases h with
  | snd k => exact ⟨by rw [k.cfg]; exact hc, k.ok, by rw [k.cfg, k.rcv]; exact hr⟩
  | sndCmd k => exact ⟨by rw [k.cfg]; exact hc, k.ok, by rw [k.cfg, k.rcv]; exact hr⟩
  | rcv src p r v f k => exact ⟨by rw [f.cfg]; exact hc, by rw [f.cfg, f.snd, f.now]; exact hs, k.ok f.cfg hr r⟩
  | rcvCmd k => exact ⟨by rw [k.cfg]; exact hc, by rw [k.cfg, k.snd, k.now]; exact hs, k.ok⟩
  | none k o =>
    exact ⟨by rw [k.1]; exact hc, by rw [k.1, k.2.1, k.2.2.2]; exact hs, by rw [k.1, k.2.2.1]; exact hr⟩

theorem Fetched.inv {s s1 : State} (f : Fetched s s1) (h : CoreInv s) : CoreInv s1 := by
  unfold CoreInv at h ⊢
  rw [f.cfg, f.snd, f.rcv, f.now]
  exact h

end Sys2Proof.Machine
end

