-- ==== Sys2Proof/Laws/Datagram.lean ====
section
/-! SUPPORT. What a step does with a datagram, said once for every packet type and for malformed bytes: the packet it
decodes to is offered to the engine, and the receiver's rule is the one of the packet's type (30 R85, 44 R243). -/

namespace Sys2Proof.Machine

/-- The receiver's rule for a checksum-valid packet, by its type (44 R243); a reserved type has none (30 R85). -/
def rcvRule (src : Addr) (p : Packet) (s : State) : Eff :=
  if p.h.type = typeStart then .ok (rcvStart src p.h.seq s)
  else if p.h.type = typeEnd then rcvEnd src p.h.seq s
  else if p.h.type = typeData then .ok (rcvData src p.h.seq p.payload s)
  else .ok s

/-- The bytes of a decoded packet and what follows it are the datagram's (40 R116: decoded fields re-serialise to the
same bytes). -/
theorem packetBytes_of_decode {b : Bytes} {p : Packet} (h : decodePacket b = .packet p) :
    packetBytes p.h.type ⟨p.h.seq, p.h.length, p.h.checksum, p.payload, b.drop (16 + p.h.length.toNat)⟩ = b := by
  obtain ⟨h1, h2, h3, -⟩ := decodePacket_packet h
  have hs := serializeHeader_readHeader (b := b) (by omega)
  rw [← h2] at hs
  show serializeHeader p.h ++ p.payload ++ _ = b
  rw [hs, h3, slice, Nat.add_sub_cancel_left, List.append_assoc, ← List.drop_drop, List.take_append_drop,
    List.take_append_drop]

/-- Only what the rule does in the state at hand matters. -/
theorem offerPacket_congr {e : Engine} {src : Addr} {b : Bytes} {p : Packet} {rule rule' : State → Eff} {s : State}
    (h : rule s = rule' s) : offerPacket e src b p rule s = offerPacket e src b p rule' s := by
  simp only [offerPacket, h]

/-- The meaning of a packet type offers the packet that was decoded. -/
theorem offerPacket_decoded {e : Engine} {src : Addr} {b : Bytes} {p : Packet} {t : U32} {rule : State → Eff} {s : State}
    (hd : decodePacket b = .packet p) (ht : p.h.type = t) (hr : rule s = rcvRule src p s) :
    offerPacket e src
      (packetBytes t ⟨p.h.seq, p.h.length, p.h.checksum, p.payload, b.drop (16 + p.h.length.toNat)⟩)
      (bodyPacket t ⟨p.h.seq, p.h.length, p.h.checksum, p.payload, b.drop (16 + p.h.length.toNat)⟩) rule s =
    offerPacket e src b p (rcvRule src p) s := by
  subst ht
  rw [packetBytes_of_decode hd]
  exact offerPacket_congr hr

/-- A step that takes a datagram which decodes offers the packet. -/
theorem step_packet {s s1 : State} {e : Engine} {b : Bytes} {src : Addr} {p : Packet}
    (h : fetch s = some (.rx e b src, s1)) (hd : decodePacket b = .packet p) :
    step s = offerPacket e src b p (rcvRule src p) s1 := by
  have some_of : ∀ i, ofType e src p.h.type
      ⟨p.h.seq, p.h.length, p.h.checksum, p.payload, b.drop (16 + p.h.length.toNat)⟩ = some i →
      decode (.rx e b src) = .instr i := fun i hi => by simp only [decode, decodeDatagram, hd, hi]
  have none_of : ofType e src p.h.type
      ⟨p.h.seq, p.h.length, p.h.checksum, p.payload, b.drop (16 + p.h.length.toNat)⟩ = none →
      decode (.rx e b src) = .rejected .reservedType := fun hn => by simp only [decode, decodeDatagram, hd, hn]
  unfold ofType at some_of none_of
  by_cases h0 : p.h.type = typeStart
  · rw [step_instr h (some_of _ (if_pos h0))]
    exact offerPacket_decoded (rule := fun t => .ok (rcvStart src p.h.seq t)) hd h0 (by rw [rcvRule, if_pos h0])
  · by_cases h1 : p.h.type = typeEnd
    · rw [step_instr h (some_of _ (by rw [if_neg h0, if_pos h1]))]
      exact offerPacket_decoded (rule := fun t => rcvEnd src p.h.seq t) hd h1 (by rw [rcvRule, if_neg h0, if_pos h1])
    · by_cases h2 : p.h.type = typeData
      · rw [step_instr h (some_of _ (by rw [if_neg h0, if_neg h1, if_pos h2]))]
        exact offerPacket_decoded (rule := fun t => .ok (rcvData src p.h.seq p.payload t)) hd h2
          (by rw [rcvRule, if_neg h0, if_neg h1, if_pos h2])
      · have hr : rcvRule src p s1 = .ok s1 := by rw [rcvRule, if_neg h0, if_neg h1, if_neg h2]
        by_cases h3 : p.h.type = typeAck
        · rw [step_instr h (some_of _ (by rw [if_neg h0, if_neg h1, if_neg h2, if_pos h3]))]
          exact offerPacket_decoded (rule := fun t => .ok t) hd h3 hr.symm
        · rw [step_other h (none_of (by rw [if_neg h0, if_neg h1, if_neg h2, if_neg h3]))]
          simp only [otherEvent, offerOther, hd]
          exact offerPacket_congr hr.symm

/-- A step that takes a datagram on which `decode` raises FormatError. -/
theorem step_malformed {s s1 : State} {e : Engine} {b : Bytes} {src : Addr} (h : fetch s = some (.rx e b src, s1))
    (hd : ∀ p, decodePacket b ≠ .packet p) : step s = offerMalformed e src b s1 := by
  cases hb : decodePacket b with
  | packet p => exact absurd hb (hd p)
  | shortHeader =>
    rw [step_other (r := .shortHeader) h (by simp only [decode, decodeDatagram, hb])]
    simp only [otherEvent, offerOther, hb]
  | shortPayload =>
    rw [step_other (r := .shortPayload) h (by simp only [decode, decodeDatagram, hb])]
    simp only [otherEvent, offerOther, hb]

/-- What the receiver's rule can do. -/
theorem rcvRule_effect {src : Addr} {p : Packet} {s t : State} (h : rcvRule src p s = .ok t) :
    RcvFrame s t ∧ RcvEffect src p s t := by
  unfold rcvRule at h
  split at h
  · cases h; exact rcvStart_effect src p.h.seq p s
  · split at h
    · exact rcvEnd_effect p h
    · split at h
      · rename_i ty
        cases h
        exact rcvData_effect src ty s
      · cases h
        exact ⟨.refl s, .same rfl (.inl rfl)⟩

/-- From a state of the invariant the receiver's rule completes. -/
theorem rcvRule_completes (src : Addr) (p : Packet) {s : State} (h : ReceiverOk s.cfg s.rcv) :
    ∃ t, rcvRule src p s = .ok t := by
  unfold rcvRule
  split
  · exact ⟨_, rfl⟩
  · split
    · exact rcvEnd_completes h
    · split <;> exact ⟨_, rfl⟩

/-- A packet from an address that is not the bound peer does nothing at an Established receiver (44 R248, R249). -/
theorem rcvRule_stranger {src : Addr} {p : Packet} {s : State} (he : s.rcv.state = .established)
    (hp : s.rcv.peer ≠ some src) : rcvRule src p s = .ok s := by
  simp [rcvRule, rcvStart, rcvEnd, rcvData, he, hp]

end Sys2Proof.Machine
end

