-- ==== Sys2Proof/Laws/PerInstr.lean ====
section
/-! SUPPORT. One fact per instruction as syntax: its encoding. The family is listed in LAWS.json. -/

namespace Sys2Proof.Laws.EncodedForm

open Sys2Proof Sys2Proof.Machine

/-- A command is a command word of 30 R88, `rsv` 0, with its operands; a packet is a datagram of 30 R81 offered to its
engine from its source address. -/
def Statement (i : Instr) : Prop :=
  (isCommand i = true ∧ packetSource i = none ∧
    ∃ o ops, o ∈ Op.table ∧ encode i = .cmd (Op.word o) ops ∧ withOperands o ops = (if i.wf then some i else none)) ∨
  (isCommand i = false ∧ ∃ e src type p, packetSource i = some (e, src) ∧ encode i = .rx e (packetBytes type p) src ∧
    ofType e src type p = some i)

theorem codecEncode (t q l c : U32) (p : Bytes) : Statement (.codecEncode t q l c p) :=
  .inl ⟨rfl, rfl, .codecEncode, _, by decide, rfl, rfl⟩
theorem codecChecksum (t q l c : U32) (p : Bytes) : Statement (.codecChecksum t q l c p) :=
  .inl ⟨rfl, rfl, .codecChecksum, _, by decide, rfl, rfl⟩
theorem codecDecode (b : Bytes) : Statement (.codecDecode b) :=
  .inl ⟨rfl, rfl, .codecDecode, _, by decide, rfl, rfl⟩
theorem codecVerify (b : Bytes) : Statement (.codecVerify b) :=
  .inl ⟨rfl, rfl, .codecVerify, _, by decide, rfl, rfl⟩
theorem swInWindow (q b n : U32) : Statement (.swInWindow q b n) :=
  .inl ⟨rfl, rfl, .swInWindow, _, by decide, rfl, rfl⟩
theorem swAdvance (b : U32) (m : UMap Bytes) : Statement (.swAdvance b m) :=
  .inl ⟨rfl, rfl, .swAdvance, _, by decide, rfl, by simp [withOperands, mapOperand, Instr.wf]⟩
theorem sndConnect (a : Addr) (w : U32) : Statement (.sndConnect a w) :=
  .inl ⟨rfl, rfl, .sndConnect, _, by decide, rfl, rfl⟩
theorem sndSend (b : Bytes) : Statement (.sndSend b) := .inl ⟨rfl, rfl, .sndSend, _, by decide, rfl, rfl⟩
theorem sndClose : Statement .sndClose := .inl ⟨rfl, rfl, .sndClose, _, by decide, rfl, rfl⟩
theorem rcvBind (a : Addr) : Statement (.rcvBind a) := .inl ⟨rfl, rfl, .rcvBind, _, by decide, rfl, rfl⟩
theorem rcvAccept (w : U32) : Statement (.rcvAccept w) := .inl ⟨rfl, rfl, .rcvAccept, _, by decide, rfl, rfl⟩
theorem regRead (i : Byte) : Statement (.regRead i) := .inl ⟨rfl, rfl, .regRead, _, by decide, rfl, rfl⟩
theorem start (e : Engine) (src : Addr) (p : PacketBody) : Statement (.start e src p) :=
  .inr ⟨rfl, e, src, typeStart, p, rfl, rfl, rfl⟩
theorem endPkt (e : Engine) (src : Addr) (p : PacketBody) : Statement (.endPkt e src p) :=
  .inr ⟨rfl, e, src, typeEnd, p, rfl, rfl, rfl⟩
theorem data (e : Engine) (src : Addr) (p : PacketBody) : Statement (.data e src p) :=
  .inr ⟨rfl, e, src, typeData, p, rfl, rfl, rfl⟩
theorem ack (e : Engine) (src : Addr) (p : PacketBody) : Statement (.ack e src p) :=
  .inr ⟨rfl, e, src, typeAck, p, rfl, rfl, rfl⟩

end Sys2Proof.Laws.EncodedForm
end

