-- ==== Sys2Proof/Laws/Sent.lean ====
section
/-! SUPPORT. What a step transmits is in the channel after it, with the engine's own address as its source. -/

namespace Sys2Proof.Machine

/-- The datagram of an output event, for an instance whose sender has address `x` and whose receiver has address `y`. -/
def sentBy (x y : Addr) : Output → Option Datagram
  | .txSnd b a => some ⟨a, x, b⟩
  | .txRcv b a => some ⟨a, y, b⟩
  | .connected => none
  | .sendDone => none
  | .closed _ => none
  | .resp _ _ => none
  | .deliver _ _ => none
  | .fault _ => none

/-- From `s` to `t` the channel got exactly the datagrams of the new output events. -/
def Sent (x y : Addr) (s t : State) : Prop :=
  ∃ l, t.outputs = s.outputs ++ l ∧ t.channel = s.channel ++ l.filterMap (sentBy x y)

theorem Sent.refl (x y : Addr) (s : State) : Sent x y s s := ⟨[], by simp, by simp⟩

theorem Sent.trans {x y : Addr} {s t u : State} (h : Sent x y s t) (k : Sent x y t u) : Sent x y s u := by
  obtain ⟨l, hl, hc⟩ := h
  obtain ⟨m, hm, hd⟩ := k
  exact ⟨l ++ m, by rw [hm, hl, List.append_assoc], by rw [hd, hc, List.filterMap_append, List.append_assoc]⟩

/-- An event that is no transmission, and any change of registers. -/
theorem Sent.event {x y : Addr} {s t : State} (o : Output) (hn : sentBy x y o = none) (ho : t.outputs = s.outputs ++ [o])
    (hc : t.channel = s.channel) : Sent x y s t := ⟨[o], ho, by simp [hn, hc]⟩

/-- The same before something else. -/
theorem Sent.afterEvent {x y : Addr} {s u t : State} (k : Sent x y u t) (o : Output) (hn : sentBy x y o = none)
    (ho : u.outputs = s.outputs ++ [o]) (hc : u.channel = s.channel) : Sent x y s t := (Sent.event o hn ho hc).trans k

/-- Neither an event nor a transmission. -/
theorem Sent.quiet {x y : Addr} {s t : State} (ho : t.outputs = s.outputs) (hc : t.channel = s.channel) : Sent x y s t :=
  ⟨[], by simp [ho], by simp [hc]⟩

theorem sndTx_sent {b : Bytes} {s t : State} (y : Addr) (h : sndTx b s = .ok t) : Sent s.cfg.sndAddr y s t := by
  obtain ⟨a, -, rfl⟩ := sndTx_ok h
  exact ⟨[.txSnd b a], rfl, rfl⟩

theorem sendFresh_sent {q : Nat} {s t : State} (y : Addr) (h : sendFresh q s = .ok t) : Sent s.cfg.sndAddr y s t := by
  unfold sendFresh at h
  split at h
  · cases h
  · split at h
    · cases h
    · split at h
      · cases h
      · rename_i s' hs
        cases h
        exact (sndTx_sent y hs).trans (.quiet rfl rfl)

theorem resendOne_sent {q : Nat} {s t : State} (y : Addr) (h : resendOne q s = .ok t) : Sent s.cfg.sndAddr y s t := by
  unfold resendOne at h
  split at h
  · cases h
  · split at h
    · cases h
    · cases h
    · split at h
      · cases h
      · rename_i s' hs
        cases h
        exact (sndTx_sent y hs).trans (.quiet rfl rfl)

theorem forRange_sent {round : Nat → State → Eff} {x y : Addr}
    (hr : ∀ q s t, s.cfg.sndAddr = x → round q s = .ok t → Sent x y s t ∧ t.cfg.sndAddr = x) {c q : Nat} {s t : State}
    (hx : s.cfg.sndAddr = x) (h : forRange round c q s = .ok t) : Sent x y s t := by
  induction c generalizing q s with
  | zero => cases h; exact .refl x y _
  | succ c ih =>
    simp only [forRange] at h
    split at h
    · cases h
    · rename_i s' hs
      obtain ⟨k, hk⟩ := hr q s s' hx hs
      exact k.trans (ih hk h)

theorem loopHead_sent {s t : State} (y : Addr) (h : loopHead s = .ok t) : Sent s.cfg.sndAddr y s t := by
  unfold loopHead at h
  split at h
  · cases h
    exact .event .sendDone rfl rfl rfl
  · split at h
    · cases h
    · rename_i s' hs
      cases h
      unfold fillWindow at hs
      split at hs
      · cases hs
      · rename_i s2 h2
        split at hs
        · cases hs
        · cases hs
          exact (forRange_sent (fun q u v hu hv =>
            ⟨hu ▸ sendFresh_sent y hv, by rw [(sendFresh_frame hv).cfg, hu]⟩) rfl h2).trans (.quiet rfl rfl)

theorem sndTake_sent {a : Option U32} {s t : State} (y : Addr) (h : sndTake a s = .ok t) :
    Sent s.cfg.sndAddr y s t := by
  unfold sndTake at h
  split at h
  · cases h
    split
    · exact .event .connected rfl rfl rfl
    · exact .quiet rfl rfl
  · split at h
    · split at h
      · have k := loopHead_sent y (show loopHead _ = .ok t from h)
        exact (Sent.quiet rfl rfl).trans k
      · exact loopHead_sent y h
    · exact loopHead_sent y h
  · cases h
    split
    · exact .event (.closed true) rfl rfl rfl
    · exact .quiet rfl rfl
  · cases h; exact .refl _ y s
  · cases h; exact .refl _ y s

theorem sendEnd_sent {s t : State} (y : Addr) (h : sendEnd s = .ok t) : Sent s.cfg.sndAddr y s t := by
  unfold sendEnd at h
  split at h
  · cases h
  · exact sndTx_sent y h

theorem waitExpiry_sent {s t : State} (y : Addr) (h : waitExpiry s = .ok t) : Sent s.cfg.sndAddr y s t := by
  unfold waitExpiry at h
  split at h
  · split at h
    · cases h
    · rename_i s' hs
      cases h
      exact (sndTx_sent y hs).trans (.quiet rfl rfl)
  · split at h
    · cases h
    · rename_i s' hs
      have f := forRange_frame (fun q u v => resendOne_frame) hs
      refine (forRange_sent (fun q u v hu hv =>
        ⟨hu ▸ resendOne_sent y hv, by rw [(resendOne_frame hv).cfg, hu]⟩) rfl hs).trans ?_
      rw [← f.cfg]
      exact loopHead_sent y h
  · split at h
    · cases h
    · rename_i s' hs
      cases h
      exact (sendEnd_sent y hs).trans (.quiet rfl rfl)
  · cases h; exact .refl _ y s
  · cases h; exact .refl _ y s

theorem tickWait_sent {s t : State} (y : Addr) (h : tickWait s = .ok t) : Sent s.cfg.sndAddr y s t := by
  unfold tickWait at h
  split at h
  · cases h
  · simp only at h
    split at h
    · have k := waitExpiry_sent y h
      exact (Sent.quiet rfl rfl).trans k
    · cases h; exact .quiet rfl rfl

theorem tick_sent {s t : State} (y : Addr) (h : tick s = .ok t) : Sent s.cfg.sndAddr y s t := by
  unfold tick at h
  simp only at h
  split at h
  · split at h
    · split at h
      · cases h
      · split at h
        · cases h; exact .event (.closed false) rfl rfl rfl
        · have k := tickWait_sent y h
          exact (Sent.quiet rfl rfl).trans k
    · have k := tickWait_sent y h
      exact (Sent.quiet rfl rfl).trans k
  · cases h; exact .quiet rfl rfl

/-! ### The receiver -/

theorem rcvAck_sent {s t : State} (x src : Addr) (q : U32) (ho : t.outputs = s.outputs) (hc : t.channel = s.channel) :
    Sent x (engineAddr .rcv t) s (rcvAck src q t) :=
  ⟨[.txRcv (ackPacket t.cfg.crc q) src], by simp [rcvAck, transmit, putDatagram, emit, ho],
    by simp [rcvAck, transmit, putDatagram, emit, hc, sentBy]⟩

theorem rcvMismatch_sent (x src : Addr) (s : State) : Sent x (engineAddr .rcv s) s (rcvMismatch src s) := by
  unfold rcvMismatch
  split
  · exact rcvAck_sent x src _ rfl rfl
  · exact .refl _ _ s

theorem rcvStart_sent (x src : Addr) (q : U32) (s : State) : Sent x (engineAddr .rcv s) s (rcvStart src q s) := by
  unfold rcvStart
  split
  · split
    · exact rcvAck_sent (t := { s with rcv := { s.rcv with peer := some src, nes := 1, state := .established } })
        x src 1 rfl rfl
    · exact .refl _ _ s
  · split
    · exact rcvAck_sent x src _ rfl rfl
    · exact .refl _ _ s
  · exact .refl _ _ s
  · exact .refl _ _ s
  · exact .refl _ _ s

theorem rcvData_sent (x src : Addr) (q : U32) (payload : Bytes) (s : State) :
    Sent x (engineAddr .rcv s) s (rcvData src q payload s) := by
  unfold rcvData
  split
  · split
    · exact rcvAck_sent x src _ rfl rfl
    · split
      · unfold rcvAdmit
        simp only
        split
        · exact .event (.fault .seqOverflow) rfl rfl rfl
        · rename_i nes' buf' out' _
          split
          · exact .event (.fault .outOverflow) rfl rfl rfl
          · exact rcvAck_sent (t := { s with rcv := { s.rcv with nes := nes', buf := buf', out := out' } })
              x src nes' rfl rfl
      · exact .refl _ _ s
  · exact .refl _ _ s

theorem rcvEnd_sent (x src : Addr) (q : U32) {s t : State} (h : rcvEnd src q s = .ok t) :
    Sent x (engineAddr .rcv s) s t := by
  unfold rcvEnd at h
  split at h
  · unfold rcvFinish at h
    split at h
    · cases h
    · cases h
      exact (rcvAck_sent x src _ rfl rfl).trans (.event (.deliver s.rcv.out src) rfl rfl rfl)
  · cases h; exact .refl _ _ s

/-! ### An instruction and a step -/

/-- What a step puts out is in the channel after it. A datagram that is not taken is put back there too. -/
def Sends (x y : Addr) (s t : State) : Prop :=
  ∃ l, t.outputs = s.outputs ++ l ∧ ∀ o ∈ l, ∀ d, sentBy x y o = some d → d ∈ t.channel

theorem Sent.sends {x y : Addr} {s t : State} (h : Sent x y s t) : Sends x y s t := by
  obtain ⟨l, ho, hc⟩ := h
  refine ⟨l, ho, fun o h d hd => ?_⟩
  rw [hc]
  exact List.mem_append_right _ (List.mem_filterMap.mpr ⟨o, h, hd⟩)

theorem Sends.silent {x y : Addr} {s t : State} (h : t.outputs = s.outputs) : Sends x y s t :=
  ⟨[], by simp [h], by simp⟩

theorem offerPacket_sends {e : Engine} {src : Addr} {b : Bytes} {p : Packet} {rule : State → Eff} {s t : State}
    (hrule : ∀ t, rule s = .ok t → Sent s.cfg.sndAddr (engineAddr .rcv s) s t)
    (h : offerPacket e src b p rule s = .next t) : Sends s.cfg.sndAddr (engineAddr .rcv s) s t := by
  unfold offerPacket at h
  split at h
  · cases e with
    | snd => exact (sndTake_sent _ (answer_next h)).sends
    | rcv =>
      have := answer_next h
      split at this
      · exact (hrule t this).sends
      · cases this; exact (rcvMismatch_sent _ src s).sends
  · cases h; exact .silent rfl

theorem offerMalformed_sends {e : Engine} {src : Addr} {b : Bytes} {s t : State}
    (h : offerMalformed e src b s = .next t) : Sends s.cfg.sndAddr (engineAddr .rcv s) s t := by
  unfold offerMalformed at h
  split at h
  · cases e with
    | snd => exact (sndTake_sent _ (answer_next h)).sends
    | rcv => cases h; exact .silent rfl
  · cases h; exact .silent rfl

theorem respond_sends (x y : Addr) (c : Status) (r : List Value) {s u t : State} (ho : u.outputs = s.outputs)
    (h : Host.Outcome.next (respond c r u) = (Host.Outcome.next t : Res)) : Sends x y s t := by
  cases h
  exact ⟨[.resp c r], by simp [respond, emit, ho], by simp [sentBy]⟩

theorem execSndConnect_sends {a : Addr} {w : U32} {s t : State} (y : Addr) (h : execSndConnect a w s = .next t) :
    Sends s.cfg.sndAddr y s t := by
  unfold execSndConnect at h
  split at h
  · exact respond_sends _ _ _ _ rfl h
  · split at h
    · exact respond_sends _ _ _ _ rfl h
    · cases h
      exact Sent.sends ⟨[.resp .ok [], .txSnd (startPacket s.cfg.crc 0) a],
        by simp [beginWait, transmit, putDatagram, emit, respond],
        rfl⟩

theorem execSndSend_sends {b : Bytes} {s t : State} (y : Addr) (h : execSndSend b s = .next t) :
    Sends s.cfg.sndAddr y s t := by
  unfold execSndSend at h
  simp only at h
  split at h
  · exact respond_sends _ _ _ _ rfl h
  · split at h
    · exact respond_sends _ _ _ _ rfl h
    · have k := loopHead_sent y (answer_next h)
      exact (k.afterEvent (s := s) (.resp .ok []) rfl rfl rfl).sends

theorem execSndClose_sends {s t : State} (y : Addr) (h : execSndClose s = .next t) : Sends s.cfg.sndAddr y s t := by
  unfold execSndClose at h
  simp only at h
  split at h
  · exact respond_sends _ _ _ _ rfl h
  · split at h
    · cases h
    · rename_i s3 hs
      cases h
      split at hs
      · have k := sendEnd_sent y hs
        exact ((k.trans (.quiet rfl rfl)).afterEvent (s := s) (.resp .ok []) rfl rfl rfl).sends
      · have k := sendEnd_sent y hs
        exact ((k.trans (.quiet rfl rfl)).afterEvent (s := s) (.resp .ok []) rfl rfl rfl).sends

theorem exec_sends {i : Instr} {s t : State} (h : exec i s = .next t) :
    Sends s.cfg.sndAddr (engineAddr .rcv s) s t := by
  cases i with
  | codecEncode ty q l c p => exact respond_sends _ _ _ _ rfl h
  | codecChecksum ty q l c p => exact respond_sends _ _ _ _ rfl h
  | codecDecode b =>
    simp only [exec, execCodecDecode] at h
    split at h <;> exact respond_sends _ _ _ _ rfl h
  | codecVerify b =>
    simp only [exec, execCodecVerify] at h
    split at h <;> exact respond_sends _ _ _ _ rfl h
  | swInWindow q b n => exact respond_sends _ _ _ _ rfl h
  | swAdvance b m =>
    simp only [exec, execSwAdvance] at h
    split at h <;> exact respond_sends _ _ _ _ rfl h
  | sndConnect a w => exact execSndConnect_sends _ h
  | sndSend b => exact execSndSend_sends _ h
  | sndClose => exact execSndClose_sends _ h
  | rcvBind a =>
    simp only [exec, execRcvBind] at h
    split at h
    · exact respond_sends _ _ _ _ rfl h
    · cases h; exact Sent.sends ⟨[.resp .ok []], rfl, (List.append_nil _).symm⟩
  | rcvAccept w =>
    simp only [exec, execRcvAccept] at h
    split at h
    · exact respond_sends _ _ _ _ rfl h
    · split at h
      · exact respond_sends _ _ _ _ rfl h
      · cases h; exact Sent.sends ⟨[.resp .ok []], rfl, (List.append_nil _).symm⟩
  | regRead k =>
    simp only [exec, execRegRead] at h
    split at h
    · exact respond_sends _ _ _ _ rfl h
    · exact respond_sends (u := { s with freeCount := s.freeCount + 1 }) _ _ _ _ rfl h
  | start e src p =>
    simp only [exec, execStart] at h
    exact offerPacket_sends (fun t k => by cases k; exact rcvStart_sent _ src p.seq s) h
  | endPkt e src p => exact offerPacket_sends (fun t k => rcvEnd_sent _ src p.seq k) h
  | data e src p =>
    simp only [exec, execData] at h
    exact offerPacket_sends (fun t k => by cases k; exact rcvData_sent _ src p.seq p.payload s) h
  | ack e src p =>
    simp only [exec, execAck] at h
    exact offerPacket_sends (fun t k => by cases k; exact .refl _ _ s) h

theorem otherEvent_sends {ev : Input} {s t : State} (h : otherEvent ev s = .next t) :
    Sends s.cfg.sndAddr (engineAddr .rcv s) s t := by
  cases ev with
  | cmd w ops => exact respond_sends _ _ _ _ rfl h
  | tick => exact (tick_sent _ (answer_next h)).sends
  | reset g => cases h; cases g <;> exact .silent rfl
  | channel a =>
    cases h
    refine .silent ?_
    cases a with
    | drop i => rfl
    | duplicate i => simp only [channelAct]; split <;> rfl
    | alter i b => rfl
    | deliver i e => rfl
  | rx e b src =>
    simp only [otherEvent, offerOther] at h
    split at h
    · exact offerPacket_sends (fun t k => by cases k; exact .refl _ _ s) h
    · exact offerMalformed_sends h
    · exact offerMalformed_sends h

end Sys2Proof.Machine
end

