-- ==== Sys2Proof/Laws/StepWay.lean ====
section
/-! SUPPORT. What a step can do, said once, from any state: one case per kind of input event. -/

namespace Sys2Proof.Machine

/-- A command word decodes to a command. -/
theorem isCommand_of_decode {w : U32} {ops : List Value} {i : Instr} (h : decode (.cmd w ops) = .instr i) :
    isCommand i = true := by
  have of_operands : ∀ o, withOperands o ops = some i → isCommand i = true := by
    intro o ho
    cases o with
    | swAdvance =>
      simp only [withOperands] at ho
      split at ho
      · unfold mapOperand at ho
        split at ho <;> cases ho
        rfl
      · cases ho
    | _ =>
      simp only [withOperands] at ho
      split at ho <;> cases ho
      rfl
  simp only [decode, decodeCommand] at h
  split at h
  · cases h
  · split at h
    · cases h
    · split at h
      · cases h
      · rename_i j hj
        cases h
        exact of_operands _ hj

/-- What a step from `s` to `t` can be. -/
inductive StepWay (s t : State) : Prop where
  | none (h : t = s)
  | cmd (s1 : State) (w : U32) (ops : List Value) (hf : fetch s = some (.cmd w ops, s1)) (k : CommandWay s1 t)
  | left (s1 : State) (e : Engine) (b : Bytes) (src : Addr) (hf : fetch s = some (.rx e b src, s1))
      (r : receptive e s1 = false) (h : t = leaveInChannel e src b s1)
  | snd (s1 : State) (b : Bytes) (src : Addr) (a : Option U32) (hf : fetch s = some (.rx .snd b src, s1))
      (r : sndReceptive s1.snd = true) (h : sndTake a s1 = .ok t)
  | rcv (s1 : State) (b : Bytes) (src : Addr) (p : Packet) (hf : fetch s = some (.rx .rcv b src, s1))
      (hd : decodePacket b = .packet p) (r : rcvReceptive s1.rcv = true)
      (v : verify s1.cfg.crc p = true ∨ t.rcv = s1.rcv) (f : RcvFrame s1 t) (k : RcvEffect src p s1 t)
  | malformed (s1 : State) (b : Bytes) (src : Addr) (hf : fetch s = some (.rx .rcv b src, s1))
      (hd : ∀ p, decodePacket b ≠ .packet p) (r : rcvReceptive s1.rcv = true) (h : t = s1)
  | tick (s1 : State) (hf : fetch s = some (.tick, s1)) (h : tick s1 = .ok t)
  | reset (s1 : State) (g : Target) (hf : fetch s = some (.reset g, s1)) (h : t = resetTarget g s1)
  | channel (s1 : State) (a : ChannelAct) (hf : fetch s = some (.channel a, s1)) (h : t = channelAct a s1)

/-- A step that takes a datagram an engine does not take leaves it in the channel. -/
theorem step_left {s s1 : State} {e : Engine} {b : Bytes} {src : Addr} (hf : fetch s = some (.rx e b src, s1))
    (r : receptive e s1 = false) : step s = .next (leaveInChannel e src b s1) := by
  by_cases hd : ∃ p, decodePacket b = .packet p
  · obtain ⟨p, hd⟩ := hd
    rw [step_packet hf hd]
    simp [offerPacket, r]
  · rw [step_malformed hf fun p hp => hd ⟨p, hp⟩]
    simp [offerMalformed, r]

theorem step_datagram_way {s s1 t : State} {e : Engine} {b : Bytes} {src : Addr}
    (hf : fetch s = some (.rx e b src, s1)) (h : step s = .next t) : StepWay s t := by
  cases r : receptive e s1 with
  | false =>
    rw [step_left hf r] at h
    cases h
    exact .left s1 e b src hf r rfl
  | true =>
    by_cases hd : ∃ p, decodePacket b = .packet p
    · obtain ⟨p, hd⟩ := hd
      rw [step_packet hf hd] at h
      unfold offerPacket at h
      rw [if_pos r] at h
      cases e with
      | snd => exact .snd s1 b src _ hf r (answer_next h)
      | rcv =>
        have := answer_next h
        split at this
        · rename_i hv
          exact .rcv s1 b src p hf hd r (.inl hv) (rcvRule_effect this).1 (rcvRule_effect this).2
        · cases this
          exact .rcv s1 b src p hf hd r (.inr (rcvMismatch_rcv src s1)) (rcvMismatch_effect src p s1).1
            (rcvMismatch_effect src p s1).2
    · have hd' : ∀ p, decodePacket b ≠ .packet p := fun p hp => hd ⟨p, hp⟩
      rw [step_malformed hf hd'] at h
      unfold offerMalformed at h
      rw [if_pos r] at h
      cases e with
      | snd => exact .snd s1 b src _ hf r (answer_next h)
      | rcv => cases h; exact .malformed s1 b src hf hd' r rfl

/-- Every step that completes is one of the ways. -/
theorem step_way {s t : State} (h : step s = .next t) : StepWay s t := by
  rcases step_ways s with ⟨-, h2⟩ | ⟨ev, s1, hf, ⟨i, hd, h2⟩ | ⟨r, hd, h2⟩⟩
  · rw [h2] at h
    cases h
    exact .none rfl
  · cases ev with
    | cmd w ops =>
      rw [h2] at h
      rcases exec_way h with ⟨-, k⟩ | ⟨hc, -⟩
      · exact .cmd s1 w ops hf k
      · rw [isCommand_of_decode hd] at hc
        cases hc
    | rx e b src => exact step_datagram_way hf h
    | tick => cases hd
    | reset g => cases hd
    | channel a => cases hd
  · cases ev with
    | cmd w ops =>
      rw [h2] at h
      cases h
      exact .cmd s1 w ops hf (respond_way _ _ s1.freeCount s1)
    | rx e b src => exact step_datagram_way hf h
    | tick => rw [h2] at h; exact .tick s1 hf (answer_next h)
    | reset g => rw [h2] at h; cases h; exact .reset s1 g hf rfl
    | channel a => rw [h2] at h; cases h; exact .channel s1 a hf rfl

/-- The channel's acts touch the channel only. -/
theorem channelAct_frame (a : ChannelAct) (s : State) :
    ∃ l, channelAct a s = { s with channel := l } := by
  cases a with
  | drop i => exact ⟨_, rfl⟩
  | duplicate i =>
    simp only [channelAct]
    split
    · exact ⟨s.channel, rfl⟩
    · exact ⟨_, rfl⟩
  | alter i b => exact ⟨_, rfl⟩
  | deliver i e => exact ⟨s.channel, rfl⟩

end Sys2Proof.Machine
end

