-- ==== Sys2Proof/Tests/Slice0.lean ====
section
/-! SUPPORT. Tests. The expected results are those of 95_test_vectors.md (the vector or program step is named in each
comment) or are written out from the encoding tables of 30_encoding.md. At the end: for every statement with
hypotheses, a state and operands that meet them. -/

namespace Sys2Proof.Tests

open Sys2Proof Sys2Proof.Machine

set_option Elab.async false

/-! ## Helpers -/

/-- The addresses of 95 §0: the sender's own (A), the receiver's (R) and a third party's (B). -/
def adrA : Addr := ⟨1⟩
def adrR : Addr := ⟨0⟩
def adrB : Addr := ⟨2⟩

/-- The state a meaning answers; reset where it stops. -/
def nextOf : Res → State
  | .next t => t
  | .fault _ => State.reset
  | .refused _ => State.reset

/-- Whether a meaning answers the state `t`. -/
def answers (r : Res) (t : State) : Bool :=
  match r with
  | .next u => decide (u = t)
  | .fault _ => false
  | .refused _ => false

theorem eq_of_answers {r : Res} {t : State} (h : answers r t = true) : r = .next t := by
  unfold answers at h
  split at h
  · rw [of_decide_eq_true h]
  · cases h
  · cases h

/-- Whether a meaning answers a next state. -/
def completes (r : Res) : Bool := answers r (nextOf r)

theorem eq_of_completes {r : Res} (h : completes r = true) : r = .next (nextOf r) := eq_of_answers h

set_option synthInstance.maxSize 2000 in
/-- Whether the invariant holds in a state of an instance with the default P_CRC. -/
def invHolds (s : State) : Bool :=
  decide (s.cfg.crc = .isoHdlc ∧ 1 ≤ s.cfg.maxPayload ∧ s.cfg.maxPayload ≤ 2 ^ 32 - 1 ∧ 1 ≤ s.cfg.rxTimeout ∧
    1 ≤ s.cfg.closeDeadline ∧ SenderOk s.cfg.crc s.snd s.now ∧ ReceiverOk s.cfg s.rcv)

set_option synthInstance.maxSize 2000 in
theorem inv_of_holds {s : State} (h : invHolds s = true) : CoreInv s := by
  obtain ⟨hc, h1, h2, h3, h4, h5, h6⟩ := of_decide_eq_true h
  exact ⟨⟨h1, h2, h3, h4, fun k hk => by rw [hc] at hk; cases hk⟩, h5, h6⟩

/-- What the step from `s` on the event `ev` puts out, from an empty log. -/
def outputsOn (ev : Input) (s : State) : List Output := (nextOf (step { s with inputs := [⟨0, ev⟩], outputs := [] })).outputs

/-- The state after the step from `s` on the event `ev`. -/
def after (ev : Input) (s : State) : State := nextOf (step { s with inputs := [⟨0, ev⟩] })

/-- A packet without a payload. -/
def bare (seq checksum : U32) : PacketBody := ⟨seq, 0, checksum, [], []⟩

/-- The packets ACK(1), ACK(2), ACK(3), ACK(4), ACK(5) and START(0) (V-P11 to V-P15, V-P1). -/
def ack1 : PacketBody := bare 1 0x460A33D8
def ack2 : PacketBody := bare 2 0x7F870F1D
def ack3 : PacketBody := bare 3 0x68FC1B5E
def ack4 : PacketBody := bare 4 0x0C9D7697
def ack5 : PacketBody := bare 5 0x1BE662D4
def start0 : PacketBody := bare 0 0xECBB4B55

/-- DATA(1, "a"), DATA(2, "b"), DATA(3, "c") (V-P23 to V-P25). -/
def dataA : PacketBody := ⟨1, 1, 0x36AADC45, [0x61], []⟩
def dataB : PacketBody := ⟨2, 1, 0x449436FC, [0x62], []⟩
def dataC : PacketBody := ⟨3, 1, 0xDC516D54, [0x63], []⟩

/-- END(1) (V-P4). -/
def end1 : PacketBody := bare 1 0x26568693

/-- Program P3 after its steps 1, 3, 4, 9 and 10 (no TICK): a sender with W = 2 and the stream "abcdefghij". -/
def handshaking : State := nextOf (exec (.sndConnect adrR 2) State.reset)
def connected : State := nextOf (exec (.ack .snd adrR ack1) handshaking)
def sending : State :=
  nextOf (exec (.sndSend [0x61, 0x62, 0x63, 0x64, 0x65, 0x66, 0x67, 0x68, 0x69, 0x6A]) connected)
def sent : State := nextOf (exec (.ack .snd adrR ack4) sending)
def closing : State := nextOf (exec .sndClose sent)
def sndClosed : State := nextOf (exec (.ack .snd adrR ack5) closing)

/-- A receiver with W = 4: after RCV_BIND(R), RCV_ACCEPT(4), START(0) from A, and END(1) from A. -/
def bound : State := nextOf (exec (.rcvBind adrR) State.reset)
def listening : State := nextOf (exec (.rcvAccept 4) bound)
def established : State := nextOf (exec (.start .rcv adrA start0) listening)
def rcvClosed : State := nextOf (exec (.endPkt .rcv adrA end1) established)

/-- Vector V-F1 before its event: capacity 2, buffer {2: "b"}. -/
def small : State :=
  { established with
    cfg := { established.cfg with outCapacity := some 2 }
    rcv := { established.rcv with buf := [(2, [0x62])] } }

/-- DATA(1, "aa"), its checksum by the model. -/
def dataAA : PacketBody := ⟨1, 2, computeChecksum .isoHdlc ⟨2, 1, 2, 0⟩ [0x61, 0x61], [0x61, 0x61], []⟩

/-- Vector V-F1 after its event. -/
def faulted : State := nextOf (exec (.data .rcv adrA dataAA) small)

/-! ## Well-formedness -/

theorem test_wf_refuses_unordered_map : Instr.wf (.swAdvance 1 [(3, [0x63]), (1, [0x61])]) = false := by decide

theorem test_wf_refuses_repeated_key : Instr.wf (.swAdvance 1 [(1, [0x63]), (1, [0x61])]) = false := by decide

theorem test_wf_refuses_start_length : Instr.wf (.start .rcv adrA ⟨0, 1, 0, [], []⟩) = false := by decide

theorem test_wf_refuses_end_length : Instr.wf (.endPkt .rcv adrA ⟨0, 0, 0, [0x61], []⟩) = false := by decide

theorem test_wf_refuses_data_length : Instr.wf (.data .snd adrA ⟨0, 2, 0, [0x61], []⟩) = false := by decide

theorem test_wf_refuses_ack_length : Instr.wf (.ack .snd adrA ⟨0, 0xFFFFFFFF, 0, [], []⟩) = false := by decide

theorem test_wf_accepts : Instr.wf (.swAdvance 1 [(1, [0x61]), (3, [0x63])]) = true ∧
    Instr.wf (.data .rcv adrA dataA) = true := by decide

/-! ## Decoding: a word of every constructor, written out from 30 R87, R88, R81 and R82 -/

theorem test_decode_codecEncode :
    decode (.cmd 0x00000001#32 [.u32 2, .u32 1, .u32 5, .u32 7, .bytes [0x61]]) = .instr (.codecEncode 2 1 5 7 [0x61]) := by
  decide

theorem test_decode_codecChecksum :
    decode (.cmd 0x00000002#32 [.u32 2, .u32 3, .u32 1, .u32 9, .bytes [0x63]]) = .instr (.codecChecksum 2 3 1 9 [0x63]) := by
  decide

theorem test_decode_codecDecode : decode (.cmd 0x00000003#32 [.bytes [1, 2]]) = .instr (.codecDecode [1, 2]) := by decide

theorem test_decode_codecVerify : decode (.cmd 0x00000004#32 [.bytes [1, 2]]) = .instr (.codecVerify [1, 2]) := by decide

theorem test_decode_swInWindow :
    decode (.cmd 0x00000010#32 [.u32 4, .u32 1, .u32 3]) = .instr (.swInWindow 4 1 3) := by decide

theorem test_decode_swAdvance :
    decode (.cmd 0x00000011#32 [.u32 1, .map [(1, [0x61]), (3, [0x63])]]) =
      .instr (.swAdvance 1 [(1, [0x61]), (3, [0x63])]) := by decide

theorem test_decode_sndConnect : decode (.cmd 0x00000020#32 [.addr adrR, .u32 4]) = .instr (.sndConnect adrR 4) := by
  decide

theorem test_decode_sndSend : decode (.cmd 0x00000021#32 [.bytes [0x68]]) = .instr (.sndSend [0x68]) := by decide

theorem test_decode_sndClose : decode (.cmd 0x00000022#32 []) = .instr .sndClose := by decide

theorem test_decode_rcvBind : decode (.cmd 0x00000030#32 [.addr adrR]) = .instr (.rcvBind adrR) := by decide

theorem test_decode_rcvAccept : decode (.cmd 0x00000031#32 [.u32 4]) = .instr (.rcvAccept 4) := by decide

theorem test_decode_regRead : decode (.cmd 0x00000040#32 [.u8 0x0C]) = .instr (.regRead 0x0C) := by decide

/-- V-P1. -/
theorem test_decode_start :
    decode (.rx .rcv [0, 0, 0, 0, 0, 0, 0, 0, 0, 0, 0, 0, 0xEC, 0xBB, 0x4B, 0x55] adrA) =
      .instr (.start .rcv adrA start0) := by decide

/-- V-P7. -/
theorem test_decode_end :
    decode (.rx .rcv [0, 0, 0, 1, 0, 0, 0, 4, 0, 0, 0, 0, 0x6C, 0xC1, 0xC3, 0xDC] adrA) =
      .instr (.endPkt .rcv adrA (bare 4 0x6CC1C3DC)) := by decide

/-- V-P24. -/
theorem test_decode_data :
    decode (.rx .rcv [0, 0, 0, 2, 0, 0, 0, 2, 0, 0, 0, 1, 0x44, 0x94, 0x36, 0xFC, 0x62] adrA) =
      .instr (.data .rcv adrA dataB) := by decide

/-- V-P39: an ACK with a payload. -/
theorem test_decode_ack :
    decode (.rx .snd [0, 0, 0, 3, 0, 0, 0, 2, 0, 0, 0, 2, 0xDC, 0x95, 0x04, 0x82, 0x7A, 0x7A] adrR) =
      .instr (.ack .snd adrR ⟨2, 2, 0xDC950482, [0x7A, 0x7A], []⟩) := by decide

/-- V-F6 to V-F8, and V-P36, V-C10, V-C14. -/
theorem test_decode_rejects :
    decode (.cmd 0x00000120#32 [.addr adrR, .u32 4]) = .rejected .rsvNonzero ∧
    decode (.cmd 0x00000020#32 [.addr adrR]) = .rejected .wrongOperands ∧
    decode (.rx .rcv [0, 0, 0, 4, 0, 0, 0, 0, 0, 0, 0, 0, 0x2C, 0x02, 0x21, 0xC3] adrA) = .rejected .reservedType ∧
    decode (.rx .rcv (List.replicate 15 0) adrA) = .rejected .shortHeader ∧
    decode (.rx .rcv [0, 0, 0, 2, 0, 0, 0, 1, 0, 0, 0, 5, 0, 0, 0, 0, 0x61, 0x62] adrA) = .rejected .shortPayload := by
  decide +kernel

/-- The reserved opcodes at the edges of the ranges of 30 R89. -/
theorem test_reserved_opcodes :
    [0x00#8, 0x05#8, 0x0F#8, 0x12#8, 0x1F#8, 0x23#8, 0x2F#8, 0x32#8, 0x3F#8, 0x41#8, 0xFF#8].map Op.ofCode =
      List.replicate 11 none := by decide +kernel

/-- The words of spec/opcode_table.json. -/
theorem test_decode_table_words :
    decodeTableWord 32 0x40 = some (.regRead 0) ∧ decodeTableWord 32 0x22 = some .sndClose ∧
    decodeTableWord 32 0 = some (.start .rcv ⟨0⟩ (bare 0 0)) ∧ decodeTableWord 32 5 = none := by decide

/-! ## The codec (95 §2.1, §2.2) -/

/-- V-C1. -/
theorem test_crc_check_value :
    crc32 [0x31, 0x32, 0x33, 0x34, 0x35, 0x36, 0x37, 0x38, 0x39] = 0xCBF43926 := by decide +kernel

/-- V-P28. -/
theorem test_packet_image :
    dataPacket .isoHdlc 1 [0x68, 0x65, 0x6C, 0x6C] =
      [0, 0, 0, 2, 0, 0, 0, 1, 0, 0, 0, 4, 0x66, 0x51, 0x5C, 0x3C, 0x68, 0x65, 0x6C, 0x6C] := by decide +kernel

/-- V-C9: encoded as given. -/
theorem test_codecEncode :
    outputsOn (encode (.codecEncode 2 1 5 0 [0x61])) State.reset =
      [.resp .ok [.bytes [0, 0, 0, 2, 0, 0, 0, 1, 0, 0, 0, 5, 0, 0, 0, 0, 0x61]]] := by decide +kernel

/-- V-C30 and V-C7. -/
theorem test_codecChecksum :
    outputsOn (encode (.codecChecksum 2 3 1 0x12345678 [0x63])) State.reset = [.resp .ok [.u32 0xDC516D54]] ∧
    outputsOn (encode (.codecChecksum 2 1 5 0 [0x61])) State.reset = [.resp .ok [.u32 0xAD3B9E53]] := by decide +kernel

/-- V-C31, V-C32 and V-C26. -/
theorem test_codecDecode :
    outputsOn (encode (.codecDecode [0, 0, 0, 2, 0, 0, 0, 2, 0, 0, 0, 1, 0x44, 0x94, 0x36, 0xFC, 0x62])) State.reset =
      [.resp .ok [.u32 2, .u32 2, .u32 1, .u32 0x449436FC, .bytes [0x62]]] ∧
    outputsOn (encode (.codecDecode (List.replicate 15 0))) State.reset = [.resp .format []] ∧
    outputsOn (encode (.codecDecode [0, 0, 0, 2, 0, 0, 0, 1, 0x80, 0, 0, 1, 0x36, 0xAA, 0xDC, 0x45, 0x61])) State.reset =
      [.resp .format []] := by decide +kernel

/-- V-C33 and V-C34. -/
theorem test_codecVerify :
    outputsOn (encode (.codecVerify [0, 0, 0, 2, 0, 0, 0, 1, 0, 0, 0, 1, 0x36, 0xAA, 0xDC, 0x45, 0x60])) State.reset =
      [.resp .ok [.bool false]] ∧
    outputsOn (encode (.codecVerify [0, 0, 0, 3, 0, 0, 0, 2, 0, 0, 0, 2, 0xDC, 0x95, 0x04, 0x82, 0x7A, 0x7A]))
      State.reset = [.resp .ok [.bool true]] := by decide +kernel

/-! ## Window arithmetic and registers (95 §2.3, §2.6) -/

/-- V-W6, V-W7 and V-W17. -/
theorem test_swInWindow :
    outputsOn (encode (.swInWindow 0xFFFFFFFF 0xFFFFFFF0 0x20)) State.reset = [.resp .ok [.bool true]] ∧
    outputsOn (encode (.swInWindow 5 0xFFFFFFF0 0x20)) State.reset = [.resp .ok [.bool false]] ∧
    outputsOn (encode (.swInWindow 4 1 3)) State.reset = [.resp .ok [.bool false]] := by decide +kernel

/-- V-W12, V-W14 and V-W16. -/
theorem test_swAdvance :
    outputsOn (encode (.swAdvance 1 [(1, [0x61]), (2, [0x62]), (3, [0x63]), (5, [0x65])])) State.reset =
      [.resp .ok [.u32 4, .bytes [0x61, 0x62, 0x63], .map [(5, [0x65])]]] ∧
    outputsOn (encode (.swAdvance 0xFFFFFFFD [(0xFFFFFFFD, [0x78])])) State.reset =
      [.resp .ok [.u32 0xFFFFFFFE, .bytes [0x78], .map []]] ∧
    outputsOn (encode (.swAdvance 0xFFFFFFFD [(0xFFFFFFFD, [0x78]), (0xFFFFFFFE, [0x79])])) State.reset =
      [.resp .arg []] := by decide +kernel

/-- V-RCV22 (RCV_STATUS 0x74, here after END(1)), V-F1 (0x5DA) and P3 (SND_STATUS 0x54, SND_NEXT). -/
theorem test_regRead :
    outputsOn (encode (.regRead 0x08)) rcvClosed = [.resp .ok [.u32 0x74]] ∧
    outputsOn (encode (.regRead 0x08)) faulted = [.resp .ok [.u32 0x5DA]] ∧
    outputsOn (encode (.regRead 0x00)) { closing with snd := { closing.snd with state := .closed } } =
      [.resp .ok [.u32 0x54]] ∧
    outputsOn (encode (.regRead 0x02)) sending = [.resp .ok [.u32 3]] := by decide +kernel

/-! ## The sender (95 program P3) -/

/-- P3 step 1, and E_STATE in Closed (V-S24). -/
theorem test_sndConnect :
    outputsOn (encode (.sndConnect adrR 2)) State.reset =
      [.resp .ok [], .txSnd [0, 0, 0, 0, 0, 0, 0, 0, 0, 0, 0, 0, 0xEC, 0xBB, 0x4B, 0x55] adrR] ∧
    outputsOn (encode (.sndConnect adrR 4)) sndClosed = [.resp .state []] := by decide +kernel

/-- P3 step 4. -/
theorem test_sndSend :
    outputsOn (encode (.sndSend [0x61, 0x62, 0x63, 0x64, 0x65, 0x66, 0x67, 0x68, 0x69, 0x6A])) connected =
      [.resp .ok [],
        .txSnd [0, 0, 0, 2, 0, 0, 0, 1, 0, 0, 0, 4, 0x97, 0x55, 0x91, 0xCE, 0x61, 0x62, 0x63, 0x64] adrR,
        .txSnd [0, 0, 0, 2, 0, 0, 0, 2, 0, 0, 0, 4, 0xCF, 0x2E, 0x4B, 0xA4, 0x65, 0x66, 0x67, 0x68] adrR] ∧
    sending.snd.n = 3 ∧ sending.snd.next = 3 ∧ sending.snd.waitLeft = 5 := by decide +kernel

/-- P3 step 10. -/
theorem test_sndClose :
    outputsOn (encode .sndClose) sent =
      [.resp .ok [], .txSnd [0, 0, 0, 1, 0, 0, 0, 4, 0, 0, 0, 0, 0x6C, 0xC1, 0xC3, 0xDC] adrR] ∧
    closing.snd.dlLeft = 8 ∧ closing.snd.waitLeft = 5 := by decide +kernel

/-- P3 steps 3, 8 and 9. -/
theorem test_ack :
    outputsOn (encode (.ack .snd adrR ack1)) handshaking = [.connected] ∧
    outputsOn (encode (.ack .snd adrR ack2)) sending =
      [.txSnd [0, 0, 0, 2, 0, 0, 0, 3, 0, 0, 0, 2, 0xD8, 0xB8, 0x51, 0x5C, 0x69, 0x6A] adrR] ∧
    outputsOn (encode (.ack .snd adrR ack4)) sending = [.sendDone] ∧
    outputsOn (encode (.ack .snd adrR ack5)) closing = [.closed true] := by decide +kernel

/-- P3 step 7: go-back-N. -/
theorem test_go_back_n :
    outputsOn .tick { sending with snd := { sending.snd with waitLeft := 1 } } =
      [.txSnd [0, 0, 0, 2, 0, 0, 0, 1, 0, 0, 0, 4, 0x97, 0x55, 0x91, 0xCE, 0x61, 0x62, 0x63, 0x64] adrR,
        .txSnd [0, 0, 0, 2, 0, 0, 0, 2, 0, 0, 0, 4, 0xCF, 0x2E, 0x4B, 0xA4, 0x65, 0x66, 0x67, 0x68] adrR] := by
  decide +kernel

/-- V-S22: the deadline before the wait, on one TICK. -/
theorem test_deadline_first :
    outputsOn .tick { closing with snd := { closing.snd with waitLeft := 1, dlLeft := 1 } } = [.closed false] := by
  decide +kernel

/-- V-S23: an ACK and a TICK together, the ACK is taken first. -/
theorem test_ack_before_tick :
    (nextOf (step { closing with inputs := [⟨0, .tick⟩, ⟨0, encode (.ack .snd adrR ack5)⟩], outputs := [] })).outputs =
      [.closed true] := by decide +kernel

/-! ## The receiver (95 §2.5, §2.6) -/

/-- V-RCV28. -/
theorem test_rcvBind :
    outputsOn (encode (.rcvBind adrB)) bound = [.resp .ok []] ∧
    (after (encode (.rcvBind adrB)) bound).rcv.localAddr = some adrB := by decide +kernel

/-- V-RCV26, V-RCV27 and the status 0x48 of 95 §2.5. -/
theorem test_rcvAccept :
    outputsOn (encode (.rcvAccept 4)) State.reset = [.resp .state []] ∧
    outputsOn (encode (.rcvAccept 0)) bound = [.resp .arg []] ∧ rcvStatus listening.rcv = 0x48 := by decide +kernel

/-- V-RCV1 and V-RCV16, and P1 step 4. -/
theorem test_start :
    outputsOn (.rx .rcv (startPacket .isoHdlc 5) adrA) listening = [] ∧
    outputsOn (encode (.start .rcv adrB start0)) established = [] ∧
    outputsOn (encode (.start .rcv adrA start0)) listening =
      [.txRcv [0, 0, 0, 3, 0, 0, 0, 1, 0, 0, 0, 0, 0x46, 0x0A, 0x33, 0xD8] adrA] := by decide +kernel

/-- P2 steps 5 and 6: DATA 3 is buffered, DATA 1 is drained. -/
theorem test_data :
    outputsOn (encode (.data .rcv adrA dataC)) established =
      [.txRcv [0, 0, 0, 3, 0, 0, 0, 1, 0, 0, 0, 0, 0x46, 0x0A, 0x33, 0xD8] adrA] ∧
    outputsOn (encode (.data .rcv adrA dataA)) (after (encode (.data .rcv adrA dataC)) established) =
      [.txRcv [0, 0, 0, 3, 0, 0, 0, 2, 0, 0, 0, 0, 0x7F, 0x87, 0x0F, 0x1D] adrA] := by decide +kernel

/-- V-F1: the fault undoes the step's writes. -/
theorem test_fault :
    outputsOn (encode (.data .rcv adrA dataAA)) small = [.fault .outOverflow] ∧
    faulted.rcv = { small.rcv with fault := some .outOverflow } := by decide +kernel

/-- V-RCV12 (END(3) where 1 is expected), and R253 for END(1). -/
theorem test_end :
    outputsOn (encode (.endPkt .rcv adrA (bare 3 0x08A0AE15))) established = [] ∧
    outputsOn (encode (.endPkt .rcv adrA end1)) established =
      [.txRcv [0, 0, 0, 3, 0, 0, 0, 2, 0, 0, 0, 0, 0x7F, 0x87, 0x0F, 0x1D] adrA, .deliver [] adrA] := by decide +kernel

/-- V-RCV17 (a flipped bit: the hint) and V-RCV15 (the same from B: silence). -/
theorem test_hint :
    outputsOn (encode (.data .rcv adrA { dataB with payload := [0x63] })) established =
      [.txRcv [0, 0, 0, 3, 0, 0, 0, 1, 0, 0, 0, 0, 0x46, 0x0A, 0x33, 0xD8] adrA] ∧
    outputsOn (encode (.data .rcv adrB { dataB with payload := [0x63] })) established = [] := by decide +kernel

/-! ## The interface of the host -/

/-- A table word runs as the first instruction after reset. -/
theorem test_withFetchWord :
    answers (step (State.reset.withFetchWord 32 0x20)) { State.reset with outputs := [.resp .arg []] } = true ∧
    answers (step (State.reset.withFetchWord 32 0x40)) { State.reset with outputs := [.resp .ok [.u32 0]] } = true := by
  decide +kernel

theorem test_reset_memory : Memory.wf State.reset := by decide

theorem test_reset_inv : CoreInv State.reset := inv_of_holds (by decide +kernel)

/-! ## Witnesses: for each statement with hypotheses, a state and operands that meet them, clause by clause -/

/-- A state with a pending event. -/
def pending (ev : Input) (s : State) : State := { s with inputs := [⟨0, ev⟩] }

theorem fetch_pending (ev : Input) (s : State) (ht : ev ≠ .tick) (hd : ∀ k e, ev ≠ .channel (.deliver k e)) :
    fetch (pending ev s) = some (ev, { pending ev s with inputs := [] }) :=
  fetch_first (a := ⟨0, ev⟩) rfl ht hd

theorem fetch_tick (s : State) : fetch (pending .tick s) = some (.tick, { pending .tick s with inputs := [] }) := rfl

/-- A state with a datagram pending, and the same datagram in transit with its delivery pending. -/
theorem fetch_offered (e : Engine) (b : Bytes) (src : Addr) (s : State) :
    fetch (pending (.rx e b src) s) = some (.rx e b src, { s with inputs := [] }) := rfl

def delivering (e : Engine) (b : Bytes) (src : Addr) (s : State) : State :=
  { s with inputs := [⟨0, .channel (.deliver 0 e)⟩], channel := [⟨adrR, src, b⟩] }

theorem fetch_delivering (e : Engine) (b : Bytes) (src : Addr) (s : State) :
    fetch (delivering e b src s) = some (.rx e b src, { s with inputs := [], channel := [] }) := rfl

theorem witness_DecodeOfEncode : Instr.wf (.data .rcv adrA { dataA with trailing := [0, 1] }) = true := by decide

theorem witness_EncodeOfDecode : decode (.cmd 0x22#32 []) = .instr .sndClose := by decide

/-- `rsv` not 0, a reserved opcode, and one operand too few. -/
theorem witness_IllegalCommandChangesNothing :
    (pending (.cmd 0x120#32 [.addr adrR, .u32 4]) State.reset).inputs = ⟨0, .cmd 0x120#32 [.addr adrR, .u32 4]⟩ :: [] ∧
    256 ≤ (0x120#32).toNat ∧ 256 ≤ (0x100#32).toNat ∧
    (0xFF#32).toNat ∉ [0x01, 0x02, 0x03, 0x04, 0x10, 0x11, 0x20, 0x21, 0x22, 0x30, 0x31, 0x40] ∧
    ∀ i : Instr, i.wf = true → encode i ≠ .cmd 0x20#32 [.addr adrR] := by
  refine ⟨rfl, by decide, by decide, by decide, fun i _ h => ?_⟩
  cases i <;> simp [encode] at h
  exact absurd h.1 (by decide)

/-- Two datagrams in transit; a delivery of the second; nothing pending. -/
def busy : State := { established with channel := [⟨adrA, adrR, [1]⟩, ⟨adrR, adrA, packetBytes typeData dataA⟩] }

theorem witness_StepRunsTheDecodedInstruction :
    (∃ s1, fetch (pending (.cmd 0x22#32 []) sent) = some (.cmd 0x22#32 [], s1)) ∧
    decode (.cmd 0x22#32 []) = .instr .sndClose ∧
    (⟨0, .cmd 0x22#32 []⟩ : Arrival).ev ≠ .tick ∧
    (∀ k e, (⟨0, .cmd 0x22#32 []⟩ : Arrival).ev ≠ .channel (.deliver k e)) ∧
    (pending (.channel (.deliver 1 .rcv)) busy).inputs = ⟨0, .channel (.deliver 1 .rcv)⟩ :: [] ∧
    busy.channel[1]? = some ⟨adrR, adrA, packetBytes typeData dataA⟩ ∧ State.reset.inputs = [] :=
  ⟨⟨_, fetch_pending _ _ (by simp) (by simp)⟩, by decide, by simp, by simp, rfl, rfl, rfl⟩

/-- A command and a datagram in the moment of the TICK; a delivery there of a place that holds a datagram and of one that
does not; and a datagram of a later moment. -/
theorem witness_DatagramBeforeTickOfItsMoment :
    ([⟨3, .tick⟩, ⟨3, .cmd 0 []⟩, ⟨3, .rx .snd [] adrR⟩] : List Arrival) =
      ⟨3, .tick⟩ :: [⟨3, .cmd 0 []⟩] ++ ⟨3, .rx .snd [] adrR⟩ :: [] ∧
    ([⟨3, .tick⟩, ⟨3, .cmd 0 []⟩, ⟨3, .channel (.deliver 1 .rcv)⟩] : List Arrival) =
      ⟨3, .tick⟩ :: [⟨3, .cmd 0 []⟩] ++ ⟨3, .channel (.deliver 1 .rcv)⟩ :: [] ∧
    busy.channel[1]? = some ⟨adrR, adrA, packetBytes typeData dataA⟩ ∧ busy.channel[2]? = none ∧
    (∀ a ∈ [(⟨3, .cmd 0 []⟩ : Arrival)], a.moment = 3 ∧ isDatagram a.ev = false) ∧
    (∀ a ∈ [(⟨4, .rx .snd [] adrR⟩ : Arrival)].head?, a.moment ≠ 3) :=
  ⟨rfl, rfl, rfl, rfl, by decide, by decide⟩

theorem witness_ChannelMayLoseCopyAlter :
    busy.channel = [⟨adrA, adrR, [1]⟩] ++ ⟨adrR, adrA, packetBytes typeData dataA⟩ :: [] ∧
    [(⟨adrA, adrR, [1]⟩ : Datagram)].length = 1 ∧
    (pending (.channel (.drop 1)) busy).inputs = ⟨0, .channel (.drop 1)⟩ :: [] ∧
    (pending (.channel (.duplicate 1)) busy).inputs = ⟨0, .channel (.duplicate 1)⟩ :: [] ∧
    (pending (.channel (.alter 1 [])) busy).inputs = ⟨0, .channel (.alter 1 [])⟩ :: [] := ⟨rfl, rfl, rfl, rfl, rfl⟩

theorem witness_ResetEvent :
    ∀ t : Target, (pending (.reset t) faulted).inputs = ⟨0, .reset t⟩ :: [] := fun _ => rfl

/-- 15 bytes; 16 bytes that state a payload of 1; 17 bytes that state a payload of 1. -/
theorem witness_CodecDecodeResponds :
    (List.replicate 15 (0 : Byte)).length < 16 ∧
    (serializeHeader ⟨2, 1, 1, 0⟩).length < 16 + (rd32 (serializeHeader ⟨2, 1, 1, 0⟩) 8).toNat ∧
    16 + (rd32 (serializeHeader ⟨2, 1, 1, 0⟩ ++ [0x61]) 8).toNat ≤ (serializeHeader ⟨2, 1, 1, 0⟩ ++ [0x61]).length := by
  decide

/-- The same bytes as for CODEC_DECODE, and a stated length of 2^32 - 1 (V-C13). -/
theorem witness_CodecVerifyResponds :
    (List.replicate 15 (0 : Byte)).length < 16 ∧
    (serializeHeader ⟨2, 1, 0xFFFFFFFF, 0⟩ ++ [0x61, 0x62, 0x63, 0x64]).length <
      16 + (rd32 (serializeHeader ⟨2, 1, 0xFFFFFFFF, 0⟩ ++ [0x61, 0x62, 0x63, 0x64]) 8).toNat ∧
    16 + (rd32 (List.replicate 16 0) 8).toNat ≤ (List.replicate 16 (0 : Byte)).length := by decide

/-- V-P23: the checksum and the bytes of DATA(1, "a"). -/
theorem witness_ChecksumThenEncodeVerifies :
    [(0x61 : Byte)].length < 2 ^ 32 ∧
    exec (.codecChecksum 2 1 (BitVec.ofNat 32 [(0x61 : Byte)].length) 0 [0x61]) State.reset =
      .next { State.reset with outputs := State.reset.outputs ++ [.resp .ok [.u32 0x36AADC45]] } ∧
    exec (.codecEncode 2 1 (BitVec.ofNat 32 [(0x61 : Byte)].length) 0x36AADC45 [0x61]) State.reset =
      .next { State.reset with outputs := State.reset.outputs ++ [.resp .ok [.bytes
        [0, 0, 0, 2, 0, 0, 0, 1, 0, 0, 0, 1, 0x36, 0xAA, 0xDC, 0x45, 0x61]]] } :=
  ⟨by decide, eq_of_answers (by decide +kernel), eq_of_answers (by decide +kernel)⟩

/-- The last bit of `seq_num`, the first of `checksum`, and the last of a payload of one byte. -/
theorem witness_SingleBitFlipFailsVerify :
    Config.reference.Ok ∧
    ∀ k ∈ [63, 96, 135], [(0x61 : Byte)].length < 2 ^ 32 ∧ k < 8 * (16 + [(0x61 : Byte)].length) ∧ ¬ (64 ≤ k ∧ k < 96) :=
  ⟨⟨by decide, by decide, by decide, by decide, fun k h => by cases h⟩, by decide⟩

/-- No number drained at the top of u32; one number drained that ends at 2^32 - 2; and the overflow. -/
theorem witness_AdvanceDrainsTheRun :
    (MapWf ([] : UMap Bytes) ∧ (0xFFFFFFFF#32).toNat + 0 < 2 ^ 32 ∧
      mapHas ([] : UMap Bytes) (BitVec.ofNat 32 ((0xFFFFFFFF#32).toNat + 0)) = false) ∧
    (MapWf [(0xFFFFFFFD#32, [(0x78 : Byte)])] ∧ (0xFFFFFFFD#32).toNat + 1 ≤ 2 ^ 32 - 2 ∧
      (∀ k, k < 1 → mapHas [(0xFFFFFFFD#32, [(0x78 : Byte)])] (BitVec.ofNat 32 ((0xFFFFFFFD#32).toNat + k)) = true) ∧
      mapHas [(0xFFFFFFFD#32, [(0x78 : Byte)])] (BitVec.ofNat 32 ((0xFFFFFFFD#32).toNat + 1)) = false) ∧
    (MapWf [(0xFFFFFFFE#32, [(0x78 : Byte)])] ∧ mapHas [(0xFFFFFFFE#32, [(0x78 : Byte)])] 0xFFFFFFFE#32 = true ∧
      ∀ q : U32, (0xFFFFFFFE#32).toNat ≤ q.toNat → q.toNat ≤ 2 ^ 32 - 2 →
        mapHas [(0xFFFFFFFE#32, [(0x78 : Byte)])] q = true) := by
  refine ⟨by decide, by decide, by decide, by decide, fun q h1 h2 => ?_⟩
  have : q = 0xFFFFFFFE#32 := u32_eq_of_toNat (Nat.le_antisymm h2 h1)
  subst this
  decide

theorem witness_RegReadResponds :
    ((0x0C : Byte), (BitVec.ofNat 32 established.rcv.out.length)) ∈
      [((0x0C : Byte), BitVec.ofNat 32 established.rcv.out.length)] ∧
    ∀ k ∈ [(0x06 : Byte), 0x07, 0x0D, 0xFF], k = 0x06 ∨ k = 0x07 ∨ 0x0D ≤ k.toNat := ⟨by simp, by decide⟩

theorem witness_SndConnectOpens :
    State.reset.snd.state = .idle ∧ (1 : U32) ≠ 0 ∧ (0 : U32) = 0 ∧ sndClosed.snd.state ≠ .idle := by decide +kernel

theorem connected_inv : CoreInv connected := inv_of_holds (by decide +kernel)
theorem sending_inv : CoreInv sending := inv_of_holds (by decide +kernel)
theorem closing_inv : CoreInv closing := inv_of_holds (by decide +kernel)
theorem established_inv : CoreInv established := inv_of_holds (by decide +kernel)

/-- No chunk; one full chunk; three chunks, more than the window. -/
theorem witness_SndSendLoadsAndSends :
    CoreInv connected ∧ connected.snd.state = .established ∧ connected.snd.loaded = false ∧
    connected.snd.peer = some adrR ∧
    ∀ c ∈ [(([] : Bytes), 0, 0), ([1, 2, 3, 4], 1, 1), ([1, 2, 3, 4, 5, 6, 7, 8, 9], 3, 2)],
      c.1.length ≤ c.2.1 * connected.cfg.maxPayload ∧
      c.2.1 * connected.cfg.maxPayload < c.1.length + connected.cfg.maxPayload ∧
      c.2.1 ≤ 2 ^ 32 - 3 ∧ c.2.2 = min connected.snd.win.toNat c.2.1 :=
  ⟨connected_inv, by decide +kernel, by decide +kernel, by decide +kernel, by decide +kernel⟩

/-- A connected sender whose chunks are one byte long. -/
def oneByteChunks : State := { connected with cfg := { connected.cfg with maxPayload := 1 } }

/-- The clauses of the refusals: outside Established, a stream loaded, a stream too long. -/
theorem witness_SndSendLoadsAndSends_refused :
    State.reset.snd.state ≠ .established ∧ sending.snd.loaded = true ∧
    oneByteChunks.snd.state = .established ∧ oneByteChunks.snd.loaded = false ∧ 1 ≤ oneByteChunks.cfg.maxPayload ∧
    (2 ^ 32 - 3) * oneByteChunks.cfg.maxPayload < (List.replicate (2 ^ 32 - 2) (0 : Byte)).length := by
  refine ⟨by decide, by decide +kernel, by decide +kernel, by decide +kernel, by decide +kernel, ?_⟩
  rw [List.length_replicate]
  show (2 ^ 32 - 3) * 1 < 2 ^ 32 - 2
  decide

theorem witness_SndCloseSendsEnd :
    (sent.snd.state = .established ∧ sent.snd.active = false ∧ sent.snd.peer = some adrR ∧
      (3 : U32) = (if sent.snd.loaded then sent.snd.n else 0) ∧ (3 : U32).toNat + 1 < 2 ^ 32) ∧
    (connected.snd.active = false ∧ (0 : U32) = (if connected.snd.loaded then connected.snd.n else 0)) ∧
    State.reset.snd.state ≠ .established ∧ sending.snd.active = true := by decide +kernel

theorem witness_AckOneEstablishes :
    handshaking.snd.state = .handshaking ∧ AckCounts handshaking adrR ack1 ∧ ack1.seq = 1 := by decide +kernel

/-- ACK(2) is just above `base`, ACK(3) is N, ACK(4) just above N. -/
theorem witness_CumulativeAckAdvancesWindow :
    CoreInv sending ∧ sending.snd.state = .established ∧ sending.snd.active = true ∧ sending.snd.peer = some adrR ∧
    ∀ c ∈ [(ack2, 3, 4, false), (ack3, 3, 4, false), (ack4, 4, 4, true)],
      AckCounts sending adrR c.1 ∧ sending.snd.base.toNat < c.1.seq.toNat ∧
      c.2.1 = max sending.snd.next.toNat c.1.seq.toNat ∧
      c.2.2.1 = min (c.1.seq.toNat + sending.snd.win.toNat) (sending.snd.n.toNat + 1) ∧
      (c.2.2.2 = true ↔ sending.snd.n.toNat < c.1.seq.toNat) :=
  ⟨sending_inv, by decide +kernel, by decide +kernel, by decide +kernel, by decide +kernel⟩

theorem witness_AckOfEndCloses :
    closing.snd.state = .closing ∧ AckCounts closing adrR ack5 ∧ ack5.seq.toNat = closing.snd.n.toNat + 2 := by
  decide +kernel

/-- An ACK that does not count, and an ACK that each state does not look for. -/
theorem witness_OtherDatagramsRestartTheWait :
    CoreInv sending ∧ CoreInv closing ∧ CoreInv handshaking ∧ sndReceptive sending.snd = true ∧
    sndReceptive closing.snd = true ∧ sndReceptive handshaking.snd = true ∧
    ¬ AckCounts sending adrR (bare 2 0) ∧
    (handshaking.snd.state = .handshaking ∧ ack2.seq ≠ 1) ∧
    (sending.snd.state = .established ∧ ack1.seq.toNat ≤ sending.snd.base.toNat) ∧
    (closing.snd.state = .closing ∧ ack4.seq.toNat ≠ closing.snd.n.toNat + 2) :=
  ⟨sending_inv, closing_inv, inv_of_holds (by decide +kernel), by decide +kernel, by decide +kernel, by decide +kernel,
    by decide +kernel, by decide +kernel, by decide +kernel, by decide +kernel⟩

theorem witness_UntakenPacketsStayInTheChannel :
    packetSource (.ack .snd adrR ack1) = some (.snd, adrR) ∧
    ¬ (connected.snd.state = .handshaking ∨ (connected.snd.state = .established ∧ connected.snd.active = true) ∨
      connected.snd.state = .closing) ∧
    packetSource (.data .rcv adrA dataA) = some (.rcv, adrA) ∧
    ¬ (faulted.rcv.listening = true ∧ faulted.rcv.fault = none ∧
      (faulted.rcv.state = .idle ∨ faulted.rcv.state = .established)) := by decide +kernel

/-- Both engines, receptive and not, offered 15 bytes; and a delivery of them from the channel. -/
theorem witness_FormatErrorIsSilent :
    (∃ s1, fetch (pending (.rx .snd (List.replicate 15 0) adrR) sending) =
      some (.rx .snd (List.replicate 15 0) adrR, s1) ∧ CoreInv s1 ∧ receptive .snd s1 = true) ∧
    (∃ s1, fetch (delivering .rcv (List.replicate 15 0) adrA established) =
      some (.rx .rcv (List.replicate 15 0) adrA, s1) ∧ CoreInv s1 ∧ receptive .rcv s1 = true) ∧
    receptive .snd connected = false ∧ receptive .rcv rcvClosed = false ∧ (List.replicate 15 (0 : Byte)).length < 16 :=
  ⟨⟨_, fetch_offered .., inv_of_holds (by decide +kernel), by decide +kernel⟩,
    ⟨_, fetch_delivering .., inv_of_holds (by decide +kernel), by decide +kernel⟩,
    by decide +kernel, by decide +kernel, by decide⟩

/-- V-P36, offered and delivered, and the same with a wrong checksum. -/
theorem witness_ReservedTypesAreIgnored :
    let b : Bytes := [0, 0, 0, 4, 0, 0, 0, 0, 0, 0, 0, 0, 0x2C, 0x02, 0x21, 0xC3]
    (∃ s1, fetch (pending (.rx .snd b adrR) sending) = some (.rx .snd b adrR, s1) ∧ CoreInv s1 ∧
      receptive .snd s1 = true) ∧
    (∃ s1, fetch (delivering .rcv b adrA established) = some (.rx .rcv b adrA, s1) ∧ CoreInv s1 ∧
      receptive .rcv s1 = true ∧ s1.rcv.peer = some adrA) ∧
    decodePacket b = .packet ⟨⟨4, 0, 0, 0x2C0221C3⟩, []⟩ ∧
    4 ≤ (4 : U32).toNat ∧ verify .isoHdlc ⟨⟨4, 0, 0, 0x2C0221C3⟩, []⟩ = true ∧
    verify .isoHdlc ⟨⟨4, 0, 0, 0x2C0221C2⟩, []⟩ = false :=
  ⟨⟨_, fetch_offered .., inv_of_holds (by decide +kernel), by decide +kernel⟩,
    ⟨_, fetch_delivering .., inv_of_holds (by decide +kernel), by decide +kernel, by decide +kernel⟩,
    by decide +kernel, by decide, by decide +kernel, by decide +kernel⟩

theorem witness_TickCounts :
    fetch (pending .tick connected) = some (.tick, { pending .tick connected with inputs := [] }) ∧
    sndReceptive connected.snd = false ∧ sndReceptive sending.snd = true ∧ 2 ≤ sending.snd.waitLeft ∧
    sndReceptive closing.snd = true ∧ 2 ≤ closing.snd.waitLeft ∧ 2 ≤ closing.snd.dlLeft :=
  ⟨rfl, by decide +kernel, by decide +kernel, by decide +kernel, by decide +kernel, by decide +kernel, by decide +kernel⟩

/-- A sender whose timers stand at `w` and `d`. -/
def withTimers (w d : Nat) (s : State) : State := { s with snd := { s.snd with waitLeft := w, dlLeft := d } }

theorem witness_HandshakeRetriesStart :
    (∃ s1, fetch (pending .tick (withTimers 1 0 handshaking)) = some (.tick, s1) ∧ s1.snd.state = .handshaking ∧
      s1.snd.waitLeft = 1 ∧ s1.snd.peer = some adrR) :=
  ⟨_, fetch_tick _, by decide +kernel, by decide +kernel, by decide +kernel⟩

theorem witness_GoBackNResendsTheWindow :
    (∃ s1, CoreInv s1 ∧ fetch (pending .tick (withTimers 1 0 sending)) = some (.tick, s1) ∧
      s1.snd.state = .established ∧ s1.snd.active = true ∧ s1.snd.waitLeft = 1 ∧ s1.snd.peer = some adrR) :=
  ⟨_, inv_of_holds (by decide +kernel), fetch_tick _, by decide +kernel, by decide +kernel, by decide +kernel,
    by decide +kernel⟩

/-- The wait alone expires; the deadline alone; both. -/
theorem witness_ClosingTimers :
    ∀ c ∈ [(1, 2), (2, 1), (1, 1)],
      (withTimers c.1 c.2 closing).snd.state = .closing ∧ (withTimers c.1 c.2 closing).snd.peer = some adrR ∧
      (withTimers c.1 c.2 closing).snd.n.toNat + 1 < 2 ^ 32 ∧
      fetch (pending .tick (withTimers c.1 c.2 closing)) =
        some (.tick, { pending .tick (withTimers c.1 c.2 closing) with inputs := [] }) := by
  intro c hc
  refine ⟨?_, ?_, ?_, fetch_tick _⟩ <;> (revert c; decide +kernel)

/-- Closing with a deadline as long as the wait (95 L1.9). -/
def shortDeadline : State :=
  pending .tick { withTimers 5 5 closing with cfg := { closing.cfg with closeDeadline := 5 } }

theorem witness_EndSentOnceWhenDeadlineIsShort :
    CoreInv shortDeadline ∧ shortDeadline.cfg.closeDeadline ≤ shortDeadline.cfg.rxTimeout ∧
    (shortDeadline.snd.state = .closing ∧ shortDeadline.snd.dlLeft ≤ shortDeadline.snd.waitLeft ∧
      shortDeadline.snd.dlLeft ≤ shortDeadline.cfg.closeDeadline) ∧
    step shortDeadline = .next (nextOf (step shortDeadline)) ∧
    fetch shortDeadline = some (.tick, { shortDeadline with inputs := [] }) :=
  ⟨inv_of_holds (by decide +kernel), by decide +kernel, by decide +kernel, eq_of_completes (by decide +kernel), rfl⟩

theorem witness_RcvBindRecordsTheAddress :
    (State.reset.rcv.state = .idle ∧ State.reset.rcv.listening = false ∧ State.reset.rcv.fault = none) ∧
    rcvClosed.rcv.state ≠ .idle ∧ listening.rcv.listening = true ∧ faulted.rcv.fault ≠ none := by decide +kernel

theorem witness_RcvAcceptListens :
    (bound.rcv.state = .idle ∧ bound.rcv.listening = false ∧ bound.rcv.localAddr.isSome = true ∧
      bound.rcv.fault = none ∧ (1 : U32) ≠ 0) ∧
    State.reset.rcv.localAddr = none ∧ listening.rcv.listening = true ∧ rcvClosed.rcv.state ≠ .idle ∧
    faulted.rcv.fault ≠ none := by decide +kernel

/-- START(1), V-P2. -/
def start1 : PacketBody := bare 1 0xFBC05F16

theorem witness_StartAtTheReceiver :
    rcvReceptive listening.rcv = true ∧ listening.rcv.state = .idle ∧
    verify listening.cfg.crc (bodyPacket typeStart start0) = true ∧ start0.seq = 0 ∧
    verify listening.cfg.crc (bodyPacket typeStart start1) = true ∧ start1.seq ≠ 0 ∧
    rcvReceptive established.rcv = true ∧ established.rcv.state = .established ∧
    established.rcv.peer = some adrA ∧ established.rcv.peer ≠ some adrB := by decide +kernel

/-- Receiver registers for the clauses about DATA: the next expected number and the window. -/
def receiving (nes win : U32) (buf : UMap Bytes) (s : State) : State :=
  { s with rcv := { s.rcv with nes := nes, win := win, buf := buf } }

/-- In Idle; from another address; below the window; at its upper edge; at its first and last number; a drain that
leaves u32; and one that passes the capacity, or reaches it. -/
theorem witness_DataAtTheReceiver :
    (rcvReceptive listening.rcv = true ∧ listening.rcv.state = .idle) ∧
    (rcvReceptive established.rcv = true ∧ established.rcv.state = .established ∧
      established.rcv.peer = some adrA ∧ established.rcv.peer ≠ some adrB) ∧
    (∀ p ∈ [dataA, dataB, dataC], verify established.cfg.crc (bodyPacket typeData p) = true) ∧
    dataA.seq.toNat < (receiving 2 1 [] established).rcv.nes.toNat ∧
    (receiving 2 1 [] established).rcv.nes.toNat + (receiving 2 1 [] established).rcv.win.toNat ≤ dataC.seq.toNat ∧
    ((receiving 2 2 [] established).rcv.nes.toNat ≤ dataB.seq.toNat ∧
      dataC.seq.toNat < (receiving 2 2 [] established).rcv.nes.toNat + (receiving 2 2 [] established).rcv.win.toNat) ∧
    advance 0xFFFFFFFE (mapInsert [] 0xFFFFFFFE [0x78]) [] = none ∧
    advance 2 (mapInsert [] 3 [0x63]) [] = some (2, [(3, [0x63])], []) ∧
    (small.cfg.outCapacity = some 2 ∧ 2 < [(0x61 : Byte), 0x61, 0x62].length ∧ [(0x61 : Byte), 0x61].length ≤ 2) := by
  decide +kernel

/-- A receiver that expects 2^32 - 3, the last number before the end of the range, and the packet for it. -/
def lastNumber : State := receiving 0xFFFFFFFD 4 [] established
def dataLast : PacketBody := ⟨0xFFFFFFFD, 1, computeChecksum .isoHdlc ⟨2, 0xFFFFFFFD, 1, 0⟩ [0x78], [0x78], []⟩

theorem witness_NextDataGoesStraightToTheOutput :
    CoreInv lastNumber ∧ lastNumber.rcv.state = .established ∧ lastNumber.rcv.fault = none ∧
    lastNumber.rcv.peer = some adrA ∧ verify lastNumber.cfg.crc (bodyPacket typeData dataLast) = true ∧
    lastNumber.rcv.buf = [] ∧ dataLast.seq = lastNumber.rcv.nes ∧ lastNumber.rcv.nes.toNat < 2 ^ 32 - 2 ∧
    lastNumber.cfg.outCapacity = none :=
  ⟨inv_of_holds (by decide +kernel), by decide +kernel, by decide +kernel, by decide +kernel, by decide +kernel,
    by decide +kernel, by decide +kernel, by decide +kernel, by decide +kernel⟩

theorem witness_EndAtTheReceiver :
    rcvReceptive established.rcv = true ∧ verify established.cfg.crc (bodyPacket typeEnd end1) = true ∧
    (established.rcv.state = .established ∧ established.rcv.peer = some adrA ∧ end1.seq = established.rcv.nes ∧
      established.rcv.nes.toNat + 1 < 2 ^ 32) ∧
    (rcvReceptive listening.rcv = true ∧ listening.rcv.state = .idle) ∧ established.rcv.peer ≠ some adrB ∧
    end1.seq ≠ (receiving 2 4 [] established).rcv.nes := by decide +kernel

theorem witness_AckAtTheReceiverIsDropped :
    rcvReceptive listening.rcv = true ∧ rcvReceptive established.rcv = true ∧
    verify established.cfg.crc (bodyPacket typeAck ack1) = true := by decide +kernel

/-- DATA and a reserved type with a checksum of 0, offered and delivered, from the bound peer, from another address and
in Idle. -/
theorem witness_ChecksumMismatchAtTheReceiver :
    let d := serializeHeader ⟨2, 1, 0, 0⟩
    let r := serializeHeader ⟨4, 1, 0, 0⟩
    decodePacket d = .packet ⟨⟨2, 1, 0, 0⟩, []⟩ ∧ verify established.cfg.crc ⟨⟨2, 1, 0, 0⟩, []⟩ = false ∧
    decodePacket r = .packet ⟨⟨4, 1, 0, 0⟩, []⟩ ∧ verify established.cfg.crc ⟨⟨4, 1, 0, 0⟩, []⟩ = false ∧
    (∃ s1, fetch (pending (.rx .rcv d adrA) established) = some (.rx .rcv d adrA, s1) ∧
      rcvReceptive s1.rcv = true ∧ s1.rcv.state = .established ∧ s1.rcv.peer = some adrA) ∧
    (∃ s1, fetch (delivering .rcv r adrB established) = some (.rx .rcv r adrB, s1) ∧
      rcvReceptive s1.rcv = true ∧ s1.rcv.peer ≠ some adrB) ∧
    (∃ s1, fetch (pending (.rx .rcv d adrA) listening) = some (.rx .rcv d adrA, s1) ∧
      rcvReceptive s1.rcv = true ∧ s1.rcv.state ≠ .established) :=
  ⟨by decide, by decide +kernel, by decide, by decide +kernel,
    ⟨_, fetch_offered .., by decide +kernel, by decide +kernel, by decide +kernel⟩,
    ⟨_, fetch_delivering .., by decide +kernel, by decide +kernel⟩,
    ⟨_, fetch_offered .., by decide +kernel, by decide +kernel⟩⟩

/-- A faulted receiver is offered DATA(3, "c") (V-F2). -/
theorem witness_FaultedReceiverIsStuck :
    let s := pending (encode (.data .rcv adrA dataC)) faulted
    s.rcv.fault ≠ none ∧ takesRcvReset s = false ∧ step s = .next (nextOf (step s)) :=
  ⟨by decide +kernel, by decide +kernel, eq_of_completes (by decide +kernel)⟩

/-- The TICK that runs go-back-N. -/
def resending : State := pending .tick (withTimers 1 0 sending)

theorem resending_inv : CoreInv resending := inv_of_holds (by decide +kernel)

theorem resending_step : step resending = .next (nextOf (step resending)) := eq_of_completes (by decide +kernel)

theorem witness_StepKeepsInvariant : CoreInv resending ∧ step resending = .next (nextOf (step resending)) :=
  ⟨resending_inv, resending_step⟩

theorem witness_StepKeepsMapsCanonical : Memory.wf resending ∧ step resending = .next (nextOf (step resending)) :=
  ⟨by decide +kernel, resending_step⟩

theorem witness_StepNeverStops : CoreInv resending := resending_inv

/-- SND_CLOSE takes the edge from Established to Closing. -/
theorem witness_SenderTransitionGraph :
    CoreInv (pending (encode .sndClose) sent) ∧
    step (pending (encode .sndClose) sent) = .next (nextOf (step (pending (encode .sndClose) sent))) :=
  ⟨inv_of_holds (by decide +kernel), eq_of_completes (by decide +kernel)⟩

/-- END takes the edge from Established to Closed. -/
def finishing : State := pending (encode (.endPkt .rcv adrA end1)) established

theorem finishing_inv : CoreInv finishing := inv_of_holds (by decide +kernel)

theorem finishing_step : step finishing = .next (nextOf (step finishing)) := eq_of_completes (by decide +kernel)

theorem witness_ReceiverTransitionGraph : CoreInv finishing ∧ step finishing = .next (nextOf (step finishing)) :=
  ⟨finishing_inv, finishing_step⟩

theorem witness_EnginesShareNoState :
    (forSender (.ack .snd adrR ack4) = true ∧
      exec (.ack .snd adrR ack4) sending = .next (nextOf (exec (.ack .snd adrR ack4) sending))) ∧
    (forReceiver (.data .rcv adrA dataA) = true ∧
      exec (.data .rcv adrA dataA) established = .next (nextOf (exec (.data .rcv adrA dataA) established))) ∧
    exec (.ack .snd adrR ack4) { sending with rcv := established.rcv } =
      .next (nextOf (exec (.ack .snd adrR ack4) { sending with rcv := established.rcv })) ∧
    exec (.data .rcv adrA dataA) { established with snd := sending.snd } =
      .next (nextOf (exec (.data .rcv adrA dataA) { established with snd := sending.snd })) ∧
    fetch resending = some (.tick, { resending with inputs := [] }) :=
  ⟨⟨rfl, eq_of_completes (by decide +kernel)⟩, ⟨rfl, eq_of_completes (by decide +kernel)⟩,
    eq_of_completes (by decide +kernel), eq_of_completes (by decide +kernel), rfl⟩

theorem witness_OneResponsePerCommand :
    let s := pending (.cmd 0x21#32 [.bytes [0x61]]) connected
    s.inputs = ⟨0, .cmd 0x21#32 [.bytes [0x61]]⟩ :: [] ∧ step s = .next (nextOf (step s)) :=
  ⟨rfl, eq_of_completes (by decide +kernel)⟩

theorem witness_PureCommandsFrame :
    let i : Instr := .swAdvance 1 [(1, [0x61])]
    isCommand i = true ∧ forSender i = false ∧ forReceiver i = false ∧ exec i sending = .next (nextOf (exec i sending)) :=
  ⟨rfl, rfl, rfl, eq_of_completes (by decide +kernel)⟩

theorem witness_ParametersFixedOutputsAppended : step resending = .next (nextOf (step resending)) := resending_step

/-- The commands that open a connection write the windows. -/
theorem witness_WindowFixedForTheConnection :
    (let s := pending (encode (.sndConnect adrR 4)) State.reset
     step s = .next (nextOf (step s)) ∧ (nextOf (step s)).snd.win ≠ s.snd.win) ∧
    (let s := pending (encode (.rcvAccept 4)) bound
     step s = .next (nextOf (step s)) ∧ (nextOf (step s)).rcv.win ≠ s.rcv.win) :=
  ⟨⟨eq_of_completes (by decide +kernel), by decide +kernel⟩, ⟨eq_of_completes (by decide +kernel), by decide +kernel⟩⟩

/-- V-S24 and V-RCV24. -/
theorem witness_ClosedIsTerminal :
    (let s := pending (encode (.sndConnect adrR 4)) sndClosed
     step s = .next (nextOf (step s)) ∧ s.snd.state = .closed ∧ takesSndReset s = false) ∧
    (let s := pending (encode (.rcvBind adrR)) rcvClosed
     step s = .next (nextOf (step s)) ∧ s.rcv.state = .closed ∧ takesRcvReset s = false) :=
  ⟨⟨eq_of_completes (by decide +kernel), by decide +kernel, by decide +kernel⟩,
    ⟨eq_of_completes (by decide +kernel), by decide +kernel, by decide +kernel⟩⟩

/-- DATA from B, offered to a receiver bound to A, delivered to it, and offered to a faulted one. -/
theorem witness_SinglePeerAdmission :
    let b := packetBytes typeData dataA
    (∃ s1, fetch (pending (.rx .rcv b adrB) established) = some (.rx .rcv b adrB, s1) ∧
      s1.rcv.state = .established ∧ s1.rcv.peer = some adrA ∧ rcvReceptive s1.rcv = true) ∧
    (∃ s1, fetch (delivering .rcv b adrB established) = some (.rx .rcv b adrB, s1) ∧
      s1.rcv.state = .established ∧ s1.rcv.peer = some adrA ∧ rcvReceptive s1.rcv = true) ∧
    (∃ s1, fetch (pending (.rx .rcv b adrB) faulted) = some (.rx .rcv b adrB, s1) ∧
      s1.rcv.state = .established ∧ s1.rcv.peer = some adrA ∧ rcvReceptive s1.rcv = false) ∧ adrB ≠ adrA :=
  ⟨⟨_, fetch_offered .., by decide +kernel, by decide +kernel, by decide +kernel⟩,
    ⟨_, fetch_delivering .., by decide +kernel, by decide +kernel, by decide +kernel⟩,
    ⟨_, fetch_offered .., by decide +kernel, by decide +kernel, by decide +kernel⟩, by decide⟩

/-- DATA(1, "a") below the next expected number 2; DATA(3, "c") in the buffer. -/
theorem witness_DuplicateDataIsIdempotent :
    let s := receiving 2 4 [(3, [0x63])] established
    CoreInv s ∧ s.rcv.state = .established ∧ s.rcv.fault = none ∧ s.rcv.peer = some adrA ∧
    verify s.cfg.crc (bodyPacket typeData dataA) = true ∧ verify s.cfg.crc (bodyPacket typeData dataC) = true ∧
    dataA.seq.toNat < s.rcv.nes.toNat ∧ mapHas s.rcv.buf dataC.seq = true :=
  ⟨inv_of_holds (by decide +kernel), by decide +kernel, by decide +kernel, by decide +kernel, by decide +kernel,
    by decide +kernel, by decide +kernel, by decide +kernel⟩

/-- P2 step 7: DATA(2, "b") drains 2 and 3. -/
theorem witness_OutputGrowsInSequenceOrder :
    let s := pending (encode (.data .rcv adrA dataB)) (receiving 2 4 [(3, [0x63])] established)
    CoreInv s ∧ step s = .next (nextOf (step s)) ∧ takesRcvReset s = false ∧
    (nextOf (step s)).rcv.out = [0x62, 0x63] :=
  ⟨inv_of_holds (by decide +kernel), eq_of_completes (by decide +kernel), by decide +kernel, by decide +kernel⟩

theorem witness_DeliveryOnlyAtClose :
    CoreInv finishing ∧ step finishing = .next (nextOf (step finishing)) ∧
    .deliver [] adrA ∈ (nextOf (step finishing)).outputs.drop finishing.outputs.length ∧
    finishing.rcv.state = .established ∧ (nextOf (step finishing)).rcv.state = .closed :=
  ⟨finishing_inv, finishing_step, by decide +kernel, by decide +kernel, by decide +kernel⟩

theorem witness_SenderTransmitsOnlyItsPackets :
    CoreInv resending ∧ step resending = .next (nextOf (step resending)) ∧
    .txSnd [0, 0, 0, 2, 0, 0, 0, 1, 0, 0, 0, 4, 0x97, 0x55, 0x91, 0xCE, 0x61, 0x62, 0x63, 0x64] adrR ∈
      (nextOf (step resending)).outputs.drop resending.outputs.length :=
  ⟨resending_inv, resending_step, by decide +kernel⟩

/-- A sender's transmission and a receiver's; a datagram that a sender without a stream does not take, and one that a
faulted receiver does not. -/
theorem witness_TransmissionsCarryTheEnginesAddress :
    step resending = .next (nextOf (step resending)) ∧
    .txSnd [0, 0, 0, 2, 0, 0, 0, 1, 0, 0, 0, 4, 0x97, 0x55, 0x91, 0xCE, 0x61, 0x62, 0x63, 0x64] adrR ∈
      (nextOf (step resending)).outputs.drop resending.outputs.length ∧
    step finishing = .next (nextOf (step finishing)) ∧
    .txRcv (ackPacket .isoHdlc 2) adrA ∈ (nextOf (step finishing)).outputs.drop finishing.outputs.length ∧
    (∃ s1, fetch (delivering .snd [1] adrR connected) = some (.rx .snd [1] adrR, s1) ∧
      sndReceptive s1.snd = false) ∧
    (∃ s1, fetch (pending (.rx .rcv [1] adrA) faulted) = some (.rx .rcv [1] adrA, s1) ∧
      rcvReceptive s1.rcv = false) :=
  ⟨resending_step, by decide +kernel, finishing_step, by decide +kernel,
    ⟨_, fetch_delivering .., by decide +kernel⟩, ⟨_, fetch_offered .., by decide +kernel⟩⟩

end Sys2Proof.Tests
end

section
/-! PROOFS. The statements of 00_scope.md: what every step keeps of the maps, the parameters and the outputs; what it
transmits; which event it runs. -/

namespace Sys2Proof.Machine

/-! ### The maps stay canonical -/

theorem Fetched.memory_wf {s s1 : State} (f : Fetched s s1) (w : Memory.wf s) : Memory.wf s1 := by
  unfold Memory.wf
  rw [f.snd, f.rcv]
  exact w

theorem SndFrame.memory_wf {s t : State} (f : SndFrame s t) (w : Memory.wf s) : Memory.wf t := by
  obtain ⟨hpkt, hout, hbuf⟩ := w
  exact ⟨by rw [f.pkt]; exact hpkt, f.wf hout, by rw [f.rcv]; exact hbuf⟩

theorem RcvEffect.memory_wf {src : Addr} {p : Packet} {s t : State} (k : RcvEffect src p s t) (f : RcvFrame s t)
    (w : Memory.wf s) : Memory.wf t := by
  obtain ⟨hpkt, hout, hbuf⟩ := w
  exact ⟨by rw [f.snd]; exact hpkt, by rw [f.snd]; exact hout, k.wf hbuf⟩

theorem resetTarget_memory_wf (g : Target) {s : State} (w : Memory.wf s) : Memory.wf (resetTarget g s) := by
  obtain ⟨hpkt, hout, hbuf⟩ := w
  cases g with
  | snd => exact ⟨mapWf_nil, mapWf_nil, hbuf⟩
  | rcv => exact ⟨hpkt, hout, mapWf_nil⟩
  | all => exact ⟨mapWf_nil, mapWf_nil, mapWf_nil⟩

theorem channelAct_memory_wf (a : ChannelAct) {s : State} (w : Memory.wf s) : Memory.wf (channelAct a s) := by
  obtain ⟨l, hl⟩ := channelAct_frame a s
  rw [hl]
  exact w

theorem leaveInChannel_memory_wf (e : Engine) (src : Addr) (b : Bytes) {s : State} (w : Memory.wf s) :
    Memory.wf (leaveInChannel e src b s) := w

theorem tick_memory_wf {s t : State} (h : tick s = .ok t) (w : Memory.wf s) : Memory.wf t :=
  (tick_frame h).memory_wf (s := { s with now := s.now + 1 }) w

/-- Settles O44: whatever a step does, taking its event touches no map, and each way it can go writes the maps only by
operations that keep the keys rising. -/
theorem stepKeepsMapsCanonical : Obligations.StepKeepsMapsCanonical := by
  intro s t w h
  have fetched : ∀ {ev s1}, fetch s = some (ev, s1) → Memory.wf s1 := fun hf => (fetch_frame hf).memory_wf w
  cases step_way h with
  | none h => rw [h]; exact w
  | cmd s1 _ _ hf k => exact k.wf (fetched hf)
  | left s1 e b src hf r h => rw [h]; exact leaveInChannel_memory_wf e src b (fetched hf)
  | snd s1 b src a hf r h => exact (sndTake_frame h).memory_wf (fetched hf)
  | rcv s1 b src p hf hd r v f k => exact k.memory_wf f (fetched hf)
  | malformed s1 b src hf hd r h => rw [h]; exact fetched hf
  | tick s1 hf h => exact tick_memory_wf h (fetched hf)
  | reset s1 g hf h => rw [h]; exact resetTarget_memory_wf g (fetched hf)
  | channel s1 a hf h => rw [h]; exact channelAct_memory_wf a (fetched hf)

/-! ### Parameters and outputs -/

@[simp] theorem resetTarget_cfg (g : Target) (s : State) : (resetTarget g s).cfg = s.cfg := by cases g <;> rfl

@[simp] theorem channelAct_cfg (a : ChannelAct) (s : State) : (channelAct a s).cfg = s.cfg := by
  obtain ⟨l, hl⟩ := channelAct_frame a s
  rw [hl]

theorem step_cfg {s t : State} (h : step s = .next t) : t.cfg = s.cfg := by
  cases step_way h with
  | none h => rw [h]
  | cmd s1 _ _ hf k => rw [k.cfg, (fetch_frame hf).cfg]
  | left s1 e b src hf r h => rw [h, leaveInChannel_cfg, (fetch_frame hf).cfg]
  | snd s1 b src a hf r h => rw [(sndTake_frame h).cfg, (fetch_frame hf).cfg]
  | rcv s1 b src p hf hd r v f k => rw [f.cfg, (fetch_frame hf).cfg]
  | malformed s1 b src hf hd r h => rw [h, (fetch_frame hf).cfg]
  | tick s1 hf h => exact (tick_frame h).cfg.trans (fetch_frame hf).cfg
  | reset s1 g hf h => rw [h, resetTarget_cfg, (fetch_frame hf).cfg]
  | channel s1 a hf h => rw [h, channelAct_cfg, (fetch_frame hf).cfg]

/-- Taking the event puts out nothing and changes no address, so what follows it says what the whole step sends. -/
theorem Fetched.sends {s s1 t : State} (f : Fetched s s1) (k : Sends s1.cfg.sndAddr (engineAddr .rcv s1) s1 t) :
    Sends s.cfg.sndAddr (engineAddr .rcv s) s t := by
  simpa only [Sends, engineAddr_rcv, f.cfg, f.rcv, f.outputs] using k

theorem step_sends {s t : State} (h : step s = .next t) : Sends s.cfg.sndAddr (engineAddr .rcv s) s t := by
  rcases step_ways s with ⟨-, hs⟩ | ⟨ev, s1, hf, ⟨i, -, hs⟩ | ⟨r, -, hs⟩⟩
  · rw [hs] at h
    cases h
    exact .silent rfl
  · exact (fetch_frame hf).sends (exec_sends (hs ▸ h))
  · exact (fetch_frame hf).sends (otherEvent_sends (hs ▸ h))

/-- Settles O51, from what every step does to the parameters (`step_cfg`) and to the outputs (`step_sends`). -/
theorem parametersFixedOutputsAppended : Obligations.ParametersFixedOutputsAppended := by
  intro s t h
  obtain ⟨l, hl, -⟩ := step_sends h
  exact ⟨step_cfg h, l, hl⟩

/-! ### Transmissions -/

/-- Settles O59: the datagrams of the events that a step appends are in the channel, and a datagram that is not taken
is put back addressed to its engine. -/
theorem transmissionsCarryTheEnginesAddress : Obligations.TransmissionsCarryTheEnginesAddress := by
  refine ⟨fun s t b a h => ?_, fun s s1 b src => ⟨fun hf r => step_left hf r, fun hf r => step_left hf r⟩⟩
  obtain ⟨l, hl, hsent⟩ := step_sends h
  rw [hl, List.drop_left]
  exact ⟨fun ho => hsent _ ho _ rfl, fun ho => hsent _ ho _ rfl⟩

/-! ### The event that a step runs -/

/-- A delivery at the front takes its datagram out of the channel and offers it. -/
theorem fetch_delivery {s : State} {m k : Nat} {e : Engine} {d : Datagram} {rest : List Arrival}
    (h : s.inputs = ⟨m, .channel (.deliver k e)⟩ :: rest) (hd : s.channel[k]? = some d) :
    fetch s = some (.rx e d.bytes d.src, { s with inputs := rest, channel := s.channel.eraseIdx k }) := by
  have hp : pickInput s.inputs = some (.channel (.deliver k e), rest) := by rw [h, pickInput, if_neg (by simp)]
  simp only [fetch, hp, resolveDelivery, hd]

theorem fetch_nil {s : State} (h : s.inputs = []) : fetch s = none := by simp only [fetch, h, pickInput]

/-- Settles O5: one law of `step` or `fetch` for each of its four clauses. -/
theorem stepRunsTheDecodedInstruction : Obligations.StepRunsTheDecodedInstruction :=
  ⟨fun _ _ _ _ hf hd => step_instr hf hd, fun _ _ _ h ht hd => fetch_first h ht hd,
    fun _ _ _ _ _ _ h hd => fetch_delivery h hd, fun _ h => step_empty (fetch_nil h)⟩

end Sys2Proof.Machine
end

section
/-! PROOFS. The statements of 10_state.md: the invariant of the core, what a step does to the receiver's registers and
to the output stream, the window sizes, the status registers, and that the engines share no state. -/

namespace Sys2Proof.Machine

/-! ### The invariant -/

theorem senderOk_reset (crc : Crc) (now : Nat) : SenderOk crc Sender.reset now := by simp [SenderOk, Sender.reset]

theorem receiverOk_reset (cfg : Config) : ReceiverOk cfg Receiver.reset := by simp [ReceiverOk, Receiver.reset]

theorem resetTarget_inv (g : Target) {s : State} (hi : CoreInv s) : CoreInv (resetTarget g s) := by
  obtain ⟨hc, hs, hr⟩ := hi
  cases g with
  | snd => exact ⟨hc, senderOk_reset _ _, hr⟩
  | rcv => exact ⟨hc, hs, receiverOk_reset _⟩
  | all => exact ⟨hc, senderOk_reset _ _, receiverOk_reset _⟩

theorem channelAct_inv (a : ChannelAct) {s : State} (hi : CoreInv s) : CoreInv (channelAct a s) := by
  obtain ⟨l, hl⟩ := channelAct_frame a s
  rw [hl]
  exact hi

theorem tick_inv {s : State} (hi : CoreInv s) : ∃ t, tick s = .ok t ∧ CoreInv t := by
  obtain ⟨hc, hs, hr⟩ := hi
  have ⟨_, _, timeout, _⟩ := hc
  obtain ⟨t, ht, k⟩ := tick_keeps timeout hs
  exact ⟨t, ht, by rw [k.cfg]; exact hc, k.ok, by rw [k.cfg, k.rcv]; exact hr⟩

theorem offerOther_inv (e : Engine) (b : Bytes) (src : Addr) {s : State} (hi : CoreInv s) :
    ∃ t, offerOther e src b s = .next t ∧ CoreInv t := by
  have keeps : ∃ t, offerOther e src b s = .next t ∧ ExecKeeps s t := by
    unfold offerOther
    split
    · exact offerPacket_keeps e src b _ _ hi fun _ => ⟨s, rfl, .refl s, .same rfl (.inl rfl)⟩
    · exact offerMalformed_keeps e src b hi
    · exact offerMalformed_keeps e src b hi
  obtain ⟨t, ht, k⟩ := keeps
  exact ⟨t, ht, k.inv hi⟩

/-- Every event that is no instruction completes and keeps the invariant. -/
theorem otherEvent_inv (ev : Input) {s : State} (hi : CoreInv s) : ∃ t, otherEvent ev s = .next t ∧ CoreInv t := by
  cases ev with
  | cmd w ops => exact ⟨_, rfl, hi⟩
  | rx e b src => exact offerOther_inv e b src hi
  | tick =>
    obtain ⟨t, ht, hti⟩ := tick_inv hi
    exact ⟨t, congrArg answer ht, hti⟩
  | reset g => exact ⟨_, rfl, resetTarget_inv g hi⟩
  | channel a => exact ⟨_, rfl, channelAct_inv a hi⟩

/-- From a state of the invariant every step completes and keeps it. -/
theorem step_inv {s : State} (hi : CoreInv s) : ∃ t, step s = .next t ∧ CoreInv t := by
  rcases step_ways s with ⟨-, hs⟩ | ⟨ev, s1, hf, ⟨i, -, hs⟩ | ⟨r, -, hs⟩⟩
  · exact ⟨s, hs, hi⟩
  · have hi1 := (fetch_frame hf).inv hi
    obtain ⟨t, ht, k⟩ := exec_keeps i hi1
    exact ⟨t, hs.trans ht, k.inv hi1⟩
  · rw [hs]
    exact otherEvent_inv ev ((fetch_frame hf).inv hi)

/-- Settles O43: taking the event keeps the invariant, and so does each instruction and each other event; a step has
one answer. -/
theorem stepKeepsInvariant : Obligations.StepKeepsInvariant := by
  intro s t hi h
  obtain ⟨u, hu, hui⟩ := step_inv hi
  cases hu.symm.trans h
  exact hui

/-! ### What a step does to the receiver -/

/-- The new outputs hold no event of the receiver's rules. -/
def RcvSilent (s t : State) : Prop := ∃ l, t.outputs = s.outputs ++ l ∧ ∀ o ∈ l, receiverEvent o = false

theorem RcvSilent.of_same {s t : State} (h : t.outputs = s.outputs) : RcvSilent s t := ⟨[], by simp [h], by simp⟩

theorem RcvSilent.not_receiverEvent {s t : State} (h : RcvSilent s t) {o : Output}
    (ho : o ∈ t.outputs.drop s.outputs.length) : receiverEvent o = false := by
  obtain ⟨l, hl, hq⟩ := h
  rw [hl, List.drop_left] at ho
  exact hq o ho

theorem receiverEvent_of_senderEvent {o : Output} : senderEvent o = true → receiverEvent o = false := by
  cases o <;> simp [senderEvent, receiverEvent]

theorem SndFrame.rcvSilent {s t : State} (f : SndFrame s t) : RcvSilent s t := by
  obtain ⟨l, hl, hq⟩ := f.outs
  exact ⟨l, hl, fun o ho => receiverEvent_of_senderEvent (hq o ho)⟩

theorem CommandWay.rcvSilent {s t : State} (k : CommandWay s t) : RcvSilent s t := by
  obtain ⟨c, r, l, hl, hq, -⟩ := k.resp
  refine ⟨.resp c r :: l, hl, fun o ho => ?_⟩
  rcases List.mem_cons.mp ho with rfl | ho
  · rfl
  · exact receiverEvent_of_senderEvent (hq o ho)

/-- What a step does to the receiver: nothing; a command before it listens; a reset; or a datagram that it takes. -/
inductive RcvStep (s t : State) : Prop where
  | kept (r : t.rcv = s.rcv) (q : RcvSilent s t)
  | setUp (idle : s.rcv.state = .idle) (listening : s.rcv.listening = false) (fault : s.rcv.fault = none)
      (state : t.rcv.state = s.rcv.state) (out : t.rcv.out = s.rcv.out) (nes : t.rcv.nes = s.rcv.nes)
      (q : RcvSilent s t)
  | reset (h : takesRcvReset s = true) (r : t.rcv = Receiver.reset) (q : RcvSilent s t)
  | took (s1 : State) (b : Bytes) (src : Addr) (p : Packet) (hf : fetch s = some (.rx .rcv b src, s1))
      (hd : decodePacket b = .packet p) (r : rcvReceptive s.rcv = true)
      (v : verify s.cfg.crc p = true ∨ t.rcv = s.rcv) (k : RcvEffect src p s t)

/-- Taking the event changes nothing that the receiver's part of a step is about. -/
theorem Fetched.rcvSilent {s s1 t : State} (f : Fetched s s1) (q : RcvSilent s1 t) : RcvSilent s t := by
  simpa only [RcvSilent, f.outputs] using q

theorem Fetched.rcvEffect {s s1 t : State} {src : Addr} {p : Packet} (f : Fetched s s1) (k : RcvEffect src p s1 t) :
    RcvEffect src p s t := by
  cases k with
  | same r o => exact .same (f.rcv ▸ r) (f.outputs ▸ o)
  | bound i r o => exact .bound (f.rcv ▸ i) (f.rcv ▸ r) (f.outputs ▸ o)
  | raised c e p h r o => exact .raised c (f.rcv ▸ e) (f.rcv ▸ p) h (f.rcv ▸ r) (f.outputs ▸ o)
  | admitted ty nes' buf' out' e p w d c r o =>
    rw [f.rcv] at e p w d r
    rw [f.cfg] at c o
    rw [f.outputs] at o
    exact .admitted ty nes' buf' out' e p w d c r o
  | finished e p r o =>
    rw [f.rcv] at e p r o
    rw [f.cfg, f.outputs] at o
    exact .finished e p r o

theorem RcvStep.of_kept {s s1 t : State} (f : Fetched s s1) (r : t.rcv = s1.rcv) (q : RcvSilent s1 t) : RcvStep s t :=
  .kept (r.trans f.rcv) (f.rcvSilent q)

theorem resetTarget_rcvStep {s s1 : State} {g : Target} (hf : fetch s = some (.reset g, s1)) :
    RcvStep s (resetTarget g s1) := by
  have f := fetch_frame hf
  cases g with
  | snd => exact .of_kept f rfl (.of_same rfl)
  | rcv => exact .reset (by simp [takesRcvReset, hf]) rfl (f.rcvSilent (.of_same rfl))
  | all => exact .reset (by simp [takesRcvReset, hf]) rfl (f.rcvSilent (.of_same rfl))

theorem CommandWay.rcvStep {s s1 t : State} (f : Fetched s s1) (k : CommandWay s1 t) : RcvStep s t := by
  rcases k.rcv with r | ⟨-, idle, listening, fault, state, out, nes⟩
  · exact .of_kept f r k.rcvSilent
  · rw [f.rcv] at idle listening fault state out nes
    exact .setUp idle listening fault state out nes (f.rcvSilent k.rcvSilent)

/-- Every step that completes does one of these to the receiver. -/
theorem step_rcv {s t : State} (h : step s = .next t) : RcvStep s t := by
  cases step_way h with
  | none h => rw [h]; exact .kept rfl (.of_same rfl)
  | cmd s1 w ops hf k => exact k.rcvStep (fetch_frame hf)
  | left s1 e b src hf r h => rw [h]; exact .of_kept (fetch_frame hf) rfl (.of_same rfl)
  | snd s1 b src a hf r h => exact .of_kept (fetch_frame hf) (sndTake_frame h).rcv (sndTake_frame h).rcvSilent
  | rcv s1 b src p hf hd r v f k =>
    have fetched := fetch_frame hf
    rw [fetched.rcv] at r v
    rw [fetched.cfg] at v
    exact .took s1 b src p hf hd r v (fetched.rcvEffect k)
  | malformed s1 b src hf hd r h => rw [h]; exact .of_kept (fetch_frame hf) rfl (.of_same rfl)
  | tick s1 hf h => exact .of_kept (fetch_frame hf) (tick_frame h).rcv (tick_frame h).rcvSilent
  | reset s1 g hf h => rw [h]; exact resetTarget_rcvStep hf
  | channel s1 a hf h =>
    obtain ⟨l, hl⟩ := channelAct_frame a s1
    rw [h, hl]
    exact .of_kept (fetch_frame hf) rfl (.of_same rfl)

/-! ### A faulted receiver -/

theorem not_faulted_of_receptive {x : Receiver} (h : rcvReceptive x = true) : x.fault = none := by
  simp only [rcvReceptive, Bool.and_eq_true, decide_eq_true_eq] at h
  exact h.1.2

/-- Settles O41: of what a step can do to the receiver (`step_rcv`), a command asks for no fault, and so does taking a
datagram; a reset is ruled out. -/
theorem faultedReceiverIsStuck : Obligations.FaultedReceiverIsStuck := by
  intro s t hfault hreset h
  cases step_rcv h with
  | kept r q =>
    refine ⟨r, fun o ho => ⟨fun b a e => ?_, fun b a e => ?_⟩⟩
    all_goals
      subst e
      cases q.not_receiverEvent ho
  | setUp _ _ fault _ _ _ _ => exact absurd fault hfault
  | reset h => rw [h] at hreset; cases hreset
  | took s1 b src p hf hd r v k => exact absurd (not_faulted_of_receptive r) hfault

/-! ### The window sizes -/

/-- What a step does to the sender's window size. -/
theorem step_snd_win {s t : State} (h : step s = .next t) :
    t.snd.win = s.snd.win ∨ takesSndReset s = true ∨ s.snd.state = .idle := by
  cases step_way h with
  | none h => rw [h]; exact .inl rfl
  | cmd s1 w ops hf k =>
    rw [← (fetch_frame hf).snd]
    rcases k.snd with e | idle | ⟨-, win⟩
    · rw [e]; exact .inl rfl
    · exact .inr (.inr idle)
    · exact .inl win
  | left s1 e b src hf r h => rw [h, leaveInChannel_snd, (fetch_frame hf).snd]; exact .inl rfl
  | snd s1 b src a hf r h => rw [(sndTake_frame h).win, (fetch_frame hf).snd]; exact .inl rfl
  | rcv s1 b src p hf hd r v f k => rw [f.snd, (fetch_frame hf).snd]; exact .inl rfl
  | malformed s1 b src hf hd r h => rw [h, (fetch_frame hf).snd]; exact .inl rfl
  | tick s1 hf h => rw [(tick_frame h).win, (fetch_frame hf).snd]; exact .inl rfl
  | reset s1 g hf h =>
    cases g with
    | snd => exact .inr (.inl (by simp [takesSndReset, hf]))
    | rcv => rw [h, ← (fetch_frame hf).snd]; exact .inl rfl
    | all => exact .inr (.inl (by simp [takesSndReset, hf]))
  | channel s1 a hf h =>
    obtain ⟨l, hl⟩ := channelAct_frame a s1
    rw [h, hl, ← (fetch_frame hf).snd]
    exact .inl rfl

theorem step_rcv_win {s t : State} (h : step s = .next t) :
    t.rcv.win = s.rcv.win ∨ takesRcvReset s = true ∨ (s.rcv.state = .idle ∧ s.rcv.listening = false) := by
  cases step_rcv h with
  | kept r q => rw [r]; exact .inl rfl
  | setUp idle listening _ _ _ _ _ => exact .inr (.inr ⟨idle, listening⟩)
  | reset h => exact .inr (.inl h)
  | took s1 b src p hf hd r v k => exact .inl k.win

/-- Settles O52: each engine's window size on its own. -/
theorem windowFixedForTheConnection : Obligations.WindowFixedForTheConnection :=
  fun _ _ h => ⟨step_snd_win h, step_rcv_win h⟩

/-! ### The output stream -/

/-- Settles O56: of what a step can do to the receiver, only DATA that is admitted moves the output, and it drains the
buffer (`Drained`) with the packet in it. -/
theorem outputGrowsInSequenceOrder : Obligations.OutputGrowsInSequenceOrder := by
  intro s t _ h hreset
  cases step_rcv h with
  | kept r q => rw [r]; exact .inl ⟨rfl, .inl rfl⟩
  | setUp _ _ _ _ out nes _ => exact .inl ⟨out, .inl nes⟩
  | reset h => rw [h] at hreset; cases hreset
  | took s1 b src p hf hd _ v k =>
    cases k with
    | same r o => rw [r]; exact .inl ⟨rfl, .inl rfl⟩
    | bound idle r o => rw [r]; exact .inl ⟨rfl, .inr ⟨idle, rfl⟩⟩
    | raised c e peer f r o => rw [r]; exact .inl ⟨rfl, .inl rfl⟩
    | finished e peer r o => rw [r]; exact .inl ⟨rfl, .inl rfl⟩
    | admitted ty nes' buf' out' e peer w d c r o =>
      rcases v with v | same
      · rw [r]
        refine .inr ⟨s1, b, src, p, buffered s.rcv.buf p.h.seq p.payload, hf, hd, ty, v, e, peer, w.1, w.2, rfl, d.le,
          fun k hlo hhi => Option.isSome_iff_exists.mpr (d.present k hlo hhi), ?_, d.payloads⟩
        rw [mapHas, d.stops]
        rfl
      · rw [same]; exact .inl ⟨rfl, .inl rfl⟩

/-! ### The delivery -/

/-- A taken datagram delivers only where it finishes. -/
theorem RcvEffect.closes_of_deliver {src : Addr} {p : Packet} {s t : State} (k : RcvEffect src p s t) {stream : Bytes}
    {a : Addr} (h : .deliver stream a ∈ t.outputs.drop s.outputs.length) :
    s.rcv.state = .established ∧ t.rcv.state = .closed := by
  have absent : ∀ l, t.outputs = s.outputs ++ l → .deliver stream a ∉ l → False := fun l hl hn => by
    rw [hl, List.drop_left] at h
    exact hn h
  cases k with
  | same r o =>
    rcases o with o | ⟨b, o⟩
    · exact (absent [] (by simp [o]) (by simp)).elim
    · exact (absent _ o (by simp)).elim
  | bound idle r o =>
    obtain ⟨b, o⟩ := o
    exact (absent _ o (by simp)).elim
  | raised c e peer f r o => exact (absent _ o (by simp)).elim
  | admitted ty nes' buf' out' e peer w d c r o => exact (absent _ o (by simp)).elim
  | finished e peer r o => exact ⟨e, by rw [r]⟩

theorem step_closes_of_deliver {s t : State} (h : step s = .next t) {stream : Bytes} {a : Addr}
    (hd : .deliver stream a ∈ t.outputs.drop s.outputs.length) :
    s.rcv.state = .established ∧ t.rcv.state = .closed := by
  have loud : ¬ RcvSilent s t := fun q => nomatch q.not_receiverEvent hd
  cases step_rcv h with
  | kept _ q => exact absurd q loud
  | setUp _ _ _ _ _ _ q => exact absurd q loud
  | reset _ _ q => exact absurd q loud
  | took s1 b src p hf _ r v k => exact k.closes_of_deliver hd

/-- The step from Established to Closed is the one that takes END with the expected number (44 R253). -/
theorem step_finishes {s t : State} (h : step s = .next t) (he : s.rcv.state = .established)
    (hc : t.rcv.state = .closed) :
    t.rcv.delivered = true ∧ ∃ a, s.rcv.peer = some a ∧ t.outputs = s.outputs ++
      [.txRcv (ackPacket s.cfg.crc (BitVec.ofNat 32 (s.rcv.nes.toNat + 1))) a, .deliver s.rcv.out a] := by
  have moved : t.rcv.state ≠ s.rcv.state := by rw [hc, he]; decide
  cases step_rcv h with
  | kept r q => exact absurd (by rw [r]) moved
  | setUp _ _ _ state _ _ _ => exact absurd state moved
  | reset _ r q => rw [r] at hc; cases hc
  | took s1 b src p hf hd r v k =>
    cases k with
    | same r o => exact absurd (by rw [r]) moved
    | bound idle r o => rw [he] at idle; cases idle
    | raised c e peer f r o => exact absurd (by rw [r]) moved
    | admitted ty nes' buf' out' e peer w d c r o => exact absurd (by rw [r]) moved
    | finished e peer r o => exact ⟨by rw [r], src, peer, o⟩

/-- Settles O57. -/
theorem deliveryOnlyAtClose : Obligations.DeliveryOnlyAtClose :=
  fun _ _ _ h => ⟨fun _ _ hd => step_closes_of_deliver h hd, fun he hc => step_finishes h he hc⟩

/-! ### The status registers -/

theorem flagAt_eq (b : Bool) (i : Nat) : flagAt b i = b.toNat * 2 ^ i := by cases b <;> simp [flagAt]

theorem connCode_le (c : ConnState) : connCode c ≤ 4 := by cases c <;> decide

theorem faultCode_le (f : Option Cause) : faultCode f ≤ 6 := by
  cases f with
  | none => decide
  | some c => cases c <;> decide

theorem connCode_mem (c : ConnState) : (c, connCode c) ∈ [(ConnState.idle, 0), (.handshaking, 1), (.established, 2),
    (.closing, 3), (.closed, 4)] := by cases c <;> decide

theorem faultCode_mem (f : Option Cause) : (f, faultCode f) ∈ [(none, 0), (some Cause.formatError, 1),
    (some .checksumMismatch, 2), (some .timeout, 3), (some .handshakeFailed, 4), (some .outOverflow, 5),
    (some .seqOverflow, 6)] := by
  cases f with
  | none => decide
  | some c => cases c <;> decide

/-- A flag of a register, from its place in the number. -/
theorem getLsbD_eq_of_toNat {v : U32} {i : Nat} {b : Bool} (h : v.toNat / 2 ^ i % 2 = b.toNat) : v.getLsbD i = b := by
  rw [← BitVec.testBit_toNat, Nat.testBit_eq_decide_div_mod_eq, h]
  cases b <;> rfl

/-- A field of a register, from its place in the number. -/
theorem extractLsb'_toNat_eq (v : U32) (i n : Nat) : (v.extractLsb' i n).toNat = v.toNat / 2 ^ i % 2 ^ n := by
  rw [BitVec.extractLsb'_toNat, Nat.shiftRight_eq_div_pow]

theorem sndStatus_toNat (x : Sender) : (sndStatus x).toNat = connCode x.state + 8 * x.active.toNat +
    16 * x.loaded.toNat + 32 * x.closeAcked.toNat + 64 * x.peer.isSome.toNat := by
  have := connCode_le x.state
  have := x.active.toNat_le
  have := x.loaded.toNat_le
  have := x.closeAcked.toNat_le
  have := x.peer.isSome.toNat_le
  simp only [sndStatus, flagAt_eq, BitVec.toNat_ofNat]
  omega

theorem rcvStatus_toNat (x : Receiver) : (rcvStatus x).toNat = connCode x.state + 8 * x.listening.toNat +
    16 * x.peer.isSome.toNat + 32 * x.delivered.toNat + 64 * x.localAddr.isSome.toNat + 128 * x.fault.isSome.toNat +
    256 * faultCode x.fault := by
  have := connCode_le x.state
  have := faultCode_le x.fault
  have := x.listening.toNat_le
  have := x.peer.isSome.toNat_le
  have := x.delivered.toNat_le
  have := x.localAddr.isSome.toNat_le
  have := x.fault.isSome.toNat_le
  simp only [rcvStatus, flagAt_eq, BitVec.toNat_ofNat]
  omega

/-- SND_STATUS, field by field (10 R45). -/
theorem sndStatus_fields (x : Sender) :
    ((sndStatus x).extractLsb' 0 3).toNat = connCode x.state ∧ (sndStatus x).getLsbD 3 = x.active ∧
    (sndStatus x).getLsbD 4 = x.loaded ∧ (sndStatus x).getLsbD 5 = x.closeAcked ∧
    (sndStatus x).getLsbD 6 = x.peer.isSome ∧ (sndStatus x).extractLsb' 7 25 = 0 := by
  have hv := sndStatus_toNat x
  have := connCode_le x.state
  have := x.active.toNat_le
  have := x.loaded.toNat_le
  have := x.closeAcked.toNat_le
  have := x.peer.isSome.toNat_le
  refine ⟨?_, getLsbD_eq_of_toNat ?_, getLsbD_eq_of_toNat ?_, getLsbD_eq_of_toNat ?_, getLsbD_eq_of_toNat ?_,
    BitVec.eq_of_toNat_eq ?_⟩
  all_goals simp only [extractLsb'_toNat_eq, hv, BitVec.ofNat_eq_ofNat, BitVec.toNat_ofNat]
  all_goals omega

/-- RCV_STATUS, field by field (10 R45). -/
theorem rcvStatus_fields (x : Receiver) :
    ((rcvStatus x).extractLsb' 0 3).toNat = connCode x.state ∧ (rcvStatus x).getLsbD 3 = x.listening ∧
    (rcvStatus x).getLsbD 4 = x.peer.isSome ∧ (rcvStatus x).getLsbD 5 = x.delivered ∧
    (rcvStatus x).getLsbD 6 = x.localAddr.isSome ∧ (rcvStatus x).getLsbD 7 = x.fault.isSome ∧
    ((rcvStatus x).extractLsb' 8 3).toNat = faultCode x.fault ∧ (rcvStatus x).extractLsb' 11 21 = 0 := by
  have hv := rcvStatus_toNat x
  have := connCode_le x.state
  have := faultCode_le x.fault
  have := x.listening.toNat_le
  have := x.peer.isSome.toNat_le
  have := x.delivered.toNat_le
  have := x.localAddr.isSome.toNat_le
  have := x.fault.isSome.toNat_le
  refine ⟨?_, getLsbD_eq_of_toNat ?_, getLsbD_eq_of_toNat ?_, getLsbD_eq_of_toNat ?_, getLsbD_eq_of_toNat ?_,
    getLsbD_eq_of_toNat ?_, ?_, BitVec.eq_of_toNat_eq ?_⟩
  all_goals simp only [extractLsb'_toNat_eq, hv, BitVec.ofNat_eq_ofNat, BitVec.toNat_ofNat]
  all_goals omega

theorem execRegRead_some {s : State} {k : Byte} {v : U32} (h : regValue s k = some v) :
    exec (.regRead k) s = .next { s with outputs := s.outputs ++ [.resp .ok [.u32 v]] } := by
  simp only [exec, execRegRead, h]
  rfl

theorem execRegRead_none {s : State} {k : Byte} (h : regValue s k = none) :
    exec (.regRead k) s = .next { s with
      outputs := s.outputs ++ [.resp .arg (Config.freeResults s.freeCount)], freeCount := s.freeCount + 1 } := by
  simp only [exec, execRegRead, h]
  rfl

/-- The registers and counts of 10 R45 that are no status words. -/
theorem regValue_mapped (s : State) : ∀ e ∈ [((0x01 : Byte), s.snd.base), (0x02, s.snd.next), (0x03, s.snd.n),
    (0x04, s.snd.win), (0x05, BitVec.ofNat 32 s.snd.outstanding.length), (0x09, s.rcv.nes), (0x0A, s.rcv.win),
    (0x0B, BitVec.ofNat 32 s.rcv.buf.length), (0x0C, BitVec.ofNat 32 s.rcv.out.length)],
    regValue s e.1 = some e.2 := by
  simp [regValue, mapCount]

/-- The indices that 10 R45 gives no register. -/
theorem regValue_reserved (s : State) {k : Byte} (h : k = 0x06 ∨ k = 0x07 ∨ 0x0D ≤ k.toNat) : regValue s k = none := by
  have mapped : ∀ j ∈ [(0x00 : Byte), 0x01, 0x02, 0x03, 0x04, 0x05, 0x08, 0x09, 0x0A, 0x0B, 0x0C],
      ¬ (j = 0x06 ∨ j = 0x07 ∨ 0x0D ≤ j.toNat) := by decide
  have hk : k ∉ [(0x00 : Byte), 0x01, 0x02, 0x03, 0x04, 0x05, 0x08, 0x09, 0x0A, 0x0B, 0x0C] := fun hm => mapped k hm h
  simp only [List.mem_cons, List.not_mem_nil, or_false, not_or] at hk
  simp only [regValue, hk, if_false]

/-- Settles O17: the two status words field by field, the other registers of the map, and the reserved indices. -/
theorem regReadResponds : Obligations.RegReadResponds := by
  intro s
  refine ⟨⟨sndStatus s.snd, execRegRead_some rfl, ?_⟩, ⟨rcvStatus s.rcv, execRegRead_some rfl, ?_⟩,
    fun k v h => execRegRead_some (regValue_mapped s (k, v) h),
    fun k h => ⟨_, _, execRegRead_none (regValue_reserved s h)⟩⟩
  · obtain ⟨code, rest⟩ := sndStatus_fields s.snd
    exact ⟨by rw [code]; exact connCode_mem _, rest⟩
  · obtain ⟨code, listening, peer, delivered, addr, faulted, cause, top⟩ := rcvStatus_fields s.rcv
    exact ⟨by rw [code]; exact connCode_mem _, listening, peer, delivered, addr, faulted,
      by rw [cause]; exact faultCode_mem _, top⟩

/-! ### The engines share no state

Two runs of one operation from states that an engine cannot tell apart: where both complete, the engine cannot tell
their ends apart either. -/

/-- Where both operations complete, their ends are related. -/
def EndsRelated (R : State → State → Prop) (x x' : Eff) : Prop := ∀ t t', x = .ok t → x' = .ok t' → R t t'

/-- The same of what an instruction answers. -/
def AnswersRelated (R : State → State → Prop) (x x' : Res) : Prop := ∀ t t', x = .next t → x' = .next t' → R t t'

section

variable {R : State → State → Prop}

theorem EndsRelated.ok {t t' : State} (h : R t t') : EndsRelated R (.ok t) (.ok t') := by
  intro _ _ e e'
  cases e
  cases e'
  exact h

theorem EndsRelated.error (r : Fault) (x' : Eff) : EndsRelated R (.error r) x' := fun _ _ e => nomatch e

/-- An operation that goes on from where another ends. -/
theorem EndsRelated.bind {x x' : Eff} {f f' : State → Eff} :
    EndsRelated R x x' → (∀ u u', R u u' → EndsRelated R (f u) (f' u')) →
    EndsRelated R (match x with | .error r => .error r | .ok u => f u)
      (match x' with | .error r => .error r | .ok u => f' u) := by
  intro h k
  cases x with
  | error r => exact .error r _
  | ok u =>
    cases x' with
    | error r => exact fun _ _ _ e' => nomatch e'
    | ok u' => exact k u u' (h u u' rfl rfl)

theorem AnswersRelated.next {t t' : State} (h : R t t') : AnswersRelated R (.next t) (.next t') := by
  intro _ _ e e'
  cases e
  cases e'
  exact h

theorem EndsRelated.answer {x x' : Eff} (h : EndsRelated R x x') : AnswersRelated R (answer x) (answer x') :=
  fun t t' e e' => h t t' (answer_next e) (answer_next e')

/-- An answer that finishes what an operation leaves. -/
theorem EndsRelated.answerWith {x x' : Eff} {f f' : State → State} :
    EndsRelated R x x' → (∀ u u', R u u' → R (f u) (f' u')) →
    AnswersRelated R (match x with | .error r => .fault r | .ok u => .next (f u))
      (match x' with | .error r => .fault r | .ok u => .next (f' u)) := by
  intro h k
  cases x with
  | error r => exact fun _ _ e => nomatch e
  | ok u =>
    cases x' with
    | error r => exact fun _ _ _ e' => nomatch e'
    | ok u' => exact .next (k u u' (h u u' rfl rfl))

end

/-- A packet instruction offers its packet, and the receiver's rule is the one of its type (44 R243). -/
theorem exec_packet {i : Instr} {e : Engine} {src : Addr} (h : packetSource i = some (e, src)) :
    ∃ b p, ∀ s, exec i s = offerPacket e src b p (rcvRule src p) s := by
  cases i with
  | start e' src' p =>
    cases h
    exact ⟨_, bodyPacket typeStart p, fun s =>
      offerPacket_congr (rule := fun t => .ok (rcvStart src p.seq t)) rfl⟩
  | endPkt e' src' p =>
    cases h
    exact ⟨_, bodyPacket typeEnd p, fun s => offerPacket_congr (rule := fun t => rcvEnd src p.seq t) rfl⟩
  | data e' src' p =>
    cases h
    exact ⟨_, bodyPacket typeData p, fun s =>
      offerPacket_congr (rule := fun t => .ok (rcvData src p.seq p.payload t)) rfl⟩
  | ack e' src' p =>
    cases h
    exact ⟨_, bodyPacket typeAck p, fun s => offerPacket_congr (rule := fun t => .ok t) rfl⟩
  | _ => cases h

/-! #### The sender -/

/-- Two states that the sender cannot tell apart. -/
structure SameSender (s s' : State) : Prop where
  cfg : s.cfg = s'.cfg
  snd : s.snd = s'.snd
  now : s.now = s'.now

theorem sndTx_same (b : Bytes) {s s' : State} (h : SameSender s s') :
    EndsRelated SameSender (sndTx b s) (sndTx b s') := by
  intro t t' e e'
  obtain ⟨a, -, rfl⟩ := sndTx_ok e
  obtain ⟨a', -, rfl⟩ := sndTx_ok e'
  exact ⟨h.cfg, h.snd, h.now⟩

theorem beginWait_same {s s' : State} (h : SameSender s s') : SameSender (beginWait s) (beginWait s') :=
  ⟨h.cfg, by rw [beginWait_snd, beginWait_snd, h.snd, h.cfg], h.now⟩

theorem sendFresh_same (q : Nat) {s s' : State} (h : SameSender s s') :
    EndsRelated SameSender (sendFresh q s) (sendFresh q s') := by
  unfold sendFresh
  rw [h.snd]
  split
  · exact .error _ _
  · split
    · exact .error _ _
    · exact (sndTx_same _ h).bind fun u u' k => .ok ⟨k.cfg, by simp only [k.snd, k.now], k.now⟩

theorem forRange_same {round : Nat → State → Eff}
    (hr : ∀ q s s', SameSender s s' → EndsRelated SameSender (round q s) (round q s')) (c q : Nat) {s s' : State}
    (h : SameSender s s') : EndsRelated SameSender (forRange round c q s) (forRange round c q s') := by
  induction c generalizing q s s' with
  | zero => exact .ok h
  | succ c ih => exact (hr q s s' h).bind fun u u' k => ih (q + 1) k

theorem fillWindow_same {s s' : State} (h : SameSender s s') :
    EndsRelated SameSender (fillWindow s) (fillWindow s') := by
  unfold fillWindow
  rw [h.snd]
  refine (forRange_same (fun q s s' => sendFresh_same q) _ _ h).bind fun u u' k => ?_
  split
  · exact .error _ _
  · exact .ok ⟨k.cfg, by rw [k.snd], k.now⟩

theorem loopHead_same {s s' : State} (h : SameSender s s') : EndsRelated SameSender (loopHead s) (loopHead s') := by
  unfold loopHead
  rw [h.snd]
  split
  · exact .ok ⟨h.cfg, rfl, h.now⟩
  · exact (fillWindow_same h).bind fun u u' k => .ok (beginWait_same k)

theorem sndTake_same (a : Option U32) {s s' : State} (h : SameSender s s') :
    EndsRelated SameSender (sndTake a s) (sndTake a s') := by
  unfold sndTake
  rw [h.snd]
  cases s'.snd.state with
  | idle => exact .ok h
  | closed => exact .ok h
  | handshaking =>
    dsimp only
    split
    · exact .ok ⟨h.cfg, by rw [sndConnected_snd, sndConnected_snd, h.snd], h.now⟩
    · exact .ok (beginWait_same h)
  | closing =>
    dsimp only
    split
    · exact .ok ⟨h.cfg, by rw [sndCloseAcked_snd, sndCloseAcked_snd, h.snd], h.now⟩
    · exact .ok (beginWait_same h)
  | established =>
    cases a with
    | none => exact loopHead_same h
    | some x =>
      dsimp only
      split
      · exact loopHead_same ⟨h.cfg, by rw [h.snd], h.now⟩
      · exact loopHead_same h

theorem sendEnd_same {s s' : State} (h : SameSender s s') : EndsRelated SameSender (sendEnd s) (sendEnd s') := by
  unfold sendEnd
  rw [h.snd, h.cfg]
  split
  · exact .error _ _
  · exact sndTx_same _ h

theorem execSndConnect_same (a : Addr) (w : U32) {s s' : State} (h : SameSender s s') :
    AnswersRelated SameSender (execSndConnect a w s) (execSndConnect a w s') := by
  unfold execSndConnect
  rw [h.snd]
  split
  · exact .next ⟨h.cfg, h.snd, h.now⟩
  · split
    · exact .next ⟨h.cfg, h.snd, h.now⟩
    · refine .next (beginWait_same ⟨h.cfg, ?_, h.now⟩)
      simp only [transmit_snd, respond_snd, h.snd]

theorem execSndSend_same (b : Bytes) {s s' : State} (h : SameSender s s') :
    AnswersRelated SameSender (execSndSend b s) (execSndSend b s') := by
  unfold execSndSend
  rw [h.snd, h.cfg]
  dsimp only
  split
  · exact .next ⟨h.cfg, h.snd, h.now⟩
  · split
    · exact .next ⟨h.cfg, h.snd, h.now⟩
    · refine EndsRelated.answer (loopHead_same ?_)
      exact ⟨h.cfg, by simp only [respond_snd, h.snd], h.now⟩

theorem execSndClose_same {s s' : State} (h : SameSender s s') :
    AnswersRelated SameSender (execSndClose s) (execSndClose s') := by
  unfold execSndClose
  rw [h.snd, h.cfg]
  split
  · exact .next ⟨h.cfg, h.snd, h.now⟩
  · refine EndsRelated.answerWith (sendEnd_same ?_) fun u u' k =>
      beginWait_same ⟨k.cfg, by simp only [k.snd], k.now⟩
    rw [respond_snd, respond_snd, h.snd]
    split
    · exact ⟨h.cfg, h.snd, h.now⟩
    · exact ⟨h.cfg, rfl, h.now⟩

/-- A datagram offered to the sender. -/
theorem offerPacket_snd_same (src : Addr) (b : Bytes) (p : Packet) (rule : State → Eff) {s s' : State}
    (h : SameSender s s') :
    AnswersRelated SameSender (offerPacket .snd src b p rule s) (offerPacket .snd src b p rule s') := by
  unfold offerPacket receptive
  dsimp only
  rw [h.snd, h.cfg]
  split
  · exact (sndTake_same _ h).answer
  · exact .next ⟨h.cfg, h.snd, h.now⟩

/-- The instructions for the sender: its three commands, and a packet that is offered to it. -/
theorem forSender_cases {i : Instr} (hi : forSender i = true) :
    (∃ a w, i = .sndConnect a w) ∨ (∃ b, i = .sndSend b) ∨ i = .sndClose ∨ ∃ src, packetSource i = some (.snd, src) := by
  have packet : ∀ {e : Engine} {src : Addr}, (e == .snd) = true → ∃ a, some (e, src) = some (.snd, a) :=
    fun {_ src} he => ⟨src, congrArg (fun x => some (x, src)) (eq_of_beq he)⟩
  cases i with
  | sndConnect a w => exact .inl ⟨a, w, rfl⟩
  | sndSend b => exact .inr (.inl ⟨b, rfl⟩)
  | sndClose => exact .inr (.inr (.inl rfl))
  | start e src p => exact .inr (.inr (.inr (packet hi)))
  | endPkt e src p => exact .inr (.inr (.inr (packet hi)))
  | data e src p => exact .inr (.inr (.inr (packet hi)))
  | ack e src p => exact .inr (.inr (.inr (packet hi)))
  | _ => cases hi

theorem exec_forSender_same {i : Instr} (hi : forSender i = true) {s s' : State} (h : SameSender s s') :
    AnswersRelated SameSender (exec i s) (exec i s') := by
  rcases forSender_cases hi with ⟨a, w, rfl⟩ | ⟨b, rfl⟩ | rfl | ⟨src, hp⟩
  · exact execSndConnect_same a w h
  · exact execSndSend_same b h
  · exact execSndClose_same h
  · obtain ⟨b, p, hx⟩ := exec_packet hp
    rw [hx, hx]
    exact offerPacket_snd_same src b p _ h

theorem execSndConnect_rcv {a : Addr} {w : U32} {s t : State} (h : execSndConnect a w s = .next t) :
    t.rcv = s.rcv := by
  unfold execSndConnect at h
  split at h
  · cases h; rfl
  · split at h
    · cases h; rfl
    · cases h; rfl

theorem execSndSend_rcv {b : Bytes} {s t : State} (h : execSndSend b s = .next t) : t.rcv = s.rcv := by
  unfold execSndSend at h
  dsimp only at h
  split at h
  · cases h; rfl
  · split at h
    · cases h; rfl
    · exact (loopHead_frame (answer_next h)).rcv

theorem execSndClose_rcv {s t : State} (h : execSndClose s = .next t) : t.rcv = s.rcv := by
  unfold execSndClose at h
  dsimp only at h
  split at h
  · cases h; rfl
  · split at h
    · cases h
    · rename_i s3 hs
      cases h
      refine (sendEnd_frame hs).1.rcv.trans ?_
      split <;> rfl

theorem offerPacket_snd_frame {src : Addr} {b : Bytes} {p : Packet} {rule : State → Eff} {s t : State}
    (h : offerPacket .snd src b p rule s = .next t) : t.rcv = s.rcv ∧ t.now = s.now := by
  unfold offerPacket at h
  split at h
  · have f := sndTake_frame (answer_next h)
    exact ⟨f.rcv, f.now⟩
  · cases h
    exact ⟨rfl, rfl⟩

/-- An instruction for the sender leaves the receiver and the time alone. -/
theorem exec_forSender_frame {i : Instr} (hi : forSender i = true) {s t : State} (h : exec i s = .next t) :
    t.rcv = s.rcv ∧ t.now = s.now := by
  rcases forSender_cases hi with ⟨a, w, rfl⟩ | ⟨b, rfl⟩ | rfl | ⟨src, hp⟩
  · exact ⟨execSndConnect_rcv h, (execSndConnect_way h).now⟩
  · exact ⟨execSndSend_rcv h, (execSndSend_way h).now⟩
  · exact ⟨execSndClose_rcv h, (execSndClose_way h).now⟩
  · obtain ⟨b, p, hx⟩ := exec_packet hp
    rw [hx] at h
    exact offerPacket_snd_frame h

/-! #### The receiver -/

/-- Two states that the receiver cannot tell apart. -/
structure SameReceiver (s s' : State) : Prop where
  cfg : s.cfg = s'.cfg
  rcv : s.rcv = s'.rcv

theorem rcvAck_same (src : Addr) (q : U32) {s s' : State} (h : SameReceiver s s') :
    SameReceiver (rcvAck src q s) (rcvAck src q s') := ⟨h.cfg, h.rcv⟩

theorem rcvMismatch_same (src : Addr) {s s' : State} (h : SameReceiver s s') :
    SameReceiver (rcvMismatch src s) (rcvMismatch src s') := by
  unfold rcvMismatch
  rw [h.rcv]
  split
  · exact rcvAck_same src _ h
  · exact h

theorem rcvStart_same (src : Addr) (q : U32) {s s' : State} (h : SameReceiver s s') :
    SameReceiver (rcvStart src q s) (rcvStart src q s') := by
  unfold rcvStart
  rw [h.rcv]
  cases s'.rcv.state with
  | idle =>
    dsimp only
    split
    · exact rcvAck_same src 1 ⟨h.cfg, rfl⟩
    · exact h
  | established =>
    dsimp only
    split
    · exact rcvAck_same src 1 h
    · exact h
  | handshaking => exact h
  | closing => exact h
  | closed => exact h

theorem rcvAdmit_same (src : Addr) (q : U32) (payload : Bytes) {s s' : State} (h : SameReceiver s s') :
    SameReceiver (rcvAdmit src q payload s) (rcvAdmit src q payload s') := by
  unfold rcvAdmit
  rw [h.rcv, h.cfg]
  dsimp only
  split
  · exact ⟨rfl, rfl⟩
  · split
    · exact ⟨rfl, rfl⟩
    · exact rcvAck_same src _ ⟨rfl, rfl⟩

theorem rcvData_same (src : Addr) (q : U32) (payload : Bytes) {s s' : State} (h : SameReceiver s s') :
    SameReceiver (rcvData src q payload s) (rcvData src q payload s') := by
  unfold rcvData
  rw [h.rcv]
  split
  · split
    · exact rcvAck_same src _ h
    · split
      · exact rcvAdmit_same src q payload h
      · exact h
  · exact h

theorem rcvEnd_same (src : Addr) (q : U32) {s s' : State} (h : SameReceiver s s') :
    EndsRelated SameReceiver (rcvEnd src q s) (rcvEnd src q s') := by
  unfold rcvEnd rcvFinish
  rw [h.rcv]
  split
  · split
    · exact .error _ _
    · exact .ok ⟨h.cfg, by simp only [emit_rcv, rcvAck_rcv, h.rcv]⟩
  · exact .ok h

theorem rcvRule_same (src : Addr) (p : Packet) {s s' : State} (h : SameReceiver s s') :
    EndsRelated SameReceiver (rcvRule src p s) (rcvRule src p s') := by
  unfold rcvRule
  split
  · exact .ok (rcvStart_same src _ h)
  · split
    · exact rcvEnd_same src _ h
    · split
      · exact .ok (rcvData_same src _ _ h)
      · exact .ok h

theorem offerPacket_rcv_same (src : Addr) (b : Bytes) (p : Packet) {s s' : State} (h : SameReceiver s s') :
    AnswersRelated SameReceiver (offerPacket .rcv src b p (rcvRule src p) s)
      (offerPacket .rcv src b p (rcvRule src p) s') := by
  unfold offerPacket receptive
  dsimp only
  rw [h.rcv, h.cfg]
  split
  · split
    · exact (rcvRule_same src p h).answer
    · exact .next (rcvMismatch_same src h)
  · exact .next ⟨h.cfg, h.rcv⟩

theorem execRcvBind_same (a : Addr) {s s' : State} (h : SameReceiver s s') :
    AnswersRelated SameReceiver (execRcvBind a s) (execRcvBind a s') := by
  unfold execRcvBind
  rw [h.rcv]
  split
  · exact .next ⟨h.cfg, h.rcv⟩
  · exact .next ⟨h.cfg, by simp only [respond_rcv, h.rcv]⟩

theorem execRcvAccept_same (w : U32) {s s' : State} (h : SameReceiver s s') :
    AnswersRelated SameReceiver (execRcvAccept w s) (execRcvAccept w s') := by
  unfold execRcvAccept
  rw [h.rcv]
  split
  · exact .next ⟨h.cfg, h.rcv⟩
  · split
    · exact .next ⟨h.cfg, h.rcv⟩
    · exact .next ⟨h.cfg, by simp only [respond_rcv, h.rcv]⟩

/-- The instructions for the receiver: its two commands, and a packet that is offered to it. -/
theorem forReceiver_cases {i : Instr} (hi : forReceiver i = true) :
    (∃ a, i = .rcvBind a) ∨ (∃ w, i = .rcvAccept w) ∨ ∃ src, packetSource i = some (.rcv, src) := by
  have packet : ∀ {e : Engine} {src : Addr}, (e == .rcv) = true → ∃ a, some (e, src) = some (.rcv, a) :=
    fun {_ src} he => ⟨src, congrArg (fun x => some (x, src)) (eq_of_beq he)⟩
  cases i with
  | rcvBind a => exact .inl ⟨a, rfl⟩
  | rcvAccept w => exact .inr (.inl ⟨w, rfl⟩)
  | start e src p => exact .inr (.inr (packet hi))
  | endPkt e src p => exact .inr (.inr (packet hi))
  | data e src p => exact .inr (.inr (packet hi))
  | ack e src p => exact .inr (.inr (packet hi))
  | _ => cases hi

theorem exec_forReceiver_same {i : Instr} (hi : forReceiver i = true) {s s' : State} (h : SameReceiver s s') :
    AnswersRelated SameReceiver (exec i s) (exec i s') := by
  rcases forReceiver_cases hi with ⟨a, rfl⟩ | ⟨w, rfl⟩ | ⟨src, hp⟩
  · exact execRcvBind_same a h
  · exact execRcvAccept_same w h
  · obtain ⟨b, p, hx⟩ := exec_packet hp
    rw [hx, hx]
    exact offerPacket_rcv_same src b p h

theorem execRcvBind_snd {a : Addr} {s t : State} (h : execRcvBind a s = .next t) : t.snd = s.snd := by
  unfold execRcvBind at h
  split at h
  · cases h; rfl
  · cases h; rfl

theorem execRcvAccept_snd {w : U32} {s t : State} (h : execRcvAccept w s = .next t) : t.snd = s.snd := by
  unfold execRcvAccept at h
  split at h
  · cases h; rfl
  · split at h
    · cases h; rfl
    · cases h; rfl

theorem offerPacket_rcv_frame {src : Addr} {b : Bytes} {p : Packet} {s t : State}
    (h : offerPacket .rcv src b p (rcvRule src p) s = .next t) : t.snd = s.snd ∧ t.now = s.now := by
  unfold offerPacket at h
  split at h
  · have he := answer_next h
    split at he
    · have f := (rcvRule_effect he).1
      exact ⟨f.snd, f.now⟩
    · cases he
      have f := (rcvMismatch_effect src p s).1
      exact ⟨f.snd, f.now⟩
  · cases h
    exact ⟨rfl, rfl⟩

/-- An instruction for the receiver leaves the sender and the time alone. -/
theorem exec_forReceiver_frame {i : Instr} (hi : forReceiver i = true) {s t : State} (h : exec i s = .next t) :
    t.snd = s.snd ∧ t.now = s.now := by
  rcases forReceiver_cases hi with ⟨a, rfl⟩ | ⟨w, rfl⟩ | ⟨src, hp⟩
  · exact ⟨execRcvBind_snd h, (execRcvBind_way h).now⟩
  · exact ⟨execRcvAccept_snd h, (execRcvAccept_way h).now⟩
  · obtain ⟨b, p, hx⟩ := exec_packet hp
    rw [hx] at h
    exact offerPacket_rcv_frame h

/-- A TICK changes no receiver register (44 R257). -/
theorem step_tick_rcv {s s1 t : State} (hf : fetch s = some (.tick, s1)) (h : step s = .next t) : t.rcv = s.rcv := by
  rw [step_other hf rfl] at h
  exact (tick_frame (answer_next h)).rcv.trans (fetch_frame hf).rcv

/-- Settles O48: what each engine's instructions leave alone, two runs that the engine cannot tell apart, and TICK. -/
theorem enginesShareNoState : Obligations.EnginesShareNoState := by
  refine ⟨fun i s t hi h => exec_forSender_frame hi h, fun i s t hi h => exec_forReceiver_frame hi h, ?_, ?_,
    fun s s1 t hf h => step_tick_rcv hf h⟩
  · intro i s t s' t' hi hcfg hsnd hnow h h'
    exact (exec_forSender_same hi ⟨hcfg, hsnd, hnow⟩ t t' h h').snd
  · intro i s t s' t' hi hcfg hrcv h h'
    exact (exec_forReceiver_same hi ⟨hcfg, hrcv⟩ t t' h h').rcv

end Sys2Proof.Machine
end

section
/-! PROOFS. The statement of 20_memory.md about the datagram channel: what a loss, a copy and an alteration of a
datagram in transit do. -/

namespace Sys2Proof.Machine

/-! ### An act of the channel on one place in transit -/

section
variable {s : State} {before after : List Datagram} {d : Datagram}

theorem channelAct_drop_at (hc : s.channel = before ++ d :: after) :
    channelAct (.drop before.length) s = { s with channel := before ++ after } := by
  have erased : (before ++ d :: after).eraseIdx before.length = before ++ after := by
    rw [List.eraseIdx_append_of_length_le (Nat.le_refl _), Nat.sub_self, List.eraseIdx_cons_zero]
  simp only [channelAct, hc, erased]

theorem channelAct_duplicate_at (hc : s.channel = before ++ d :: after) :
    channelAct (.duplicate before.length) s = { s with channel := before ++ d :: after ++ [d] } := by
  have found : s.channel[before.length]? = some d := by
    rw [hc, List.getElem?_append_right (Nat.le_refl _), Nat.sub_self, List.getElem?_cons_zero]
  simp only [channelAct, found, putDatagram]
  rw [hc]

theorem channelAct_alter_at (b : Bytes) (hc : s.channel = before ++ d :: after) :
    channelAct (.alter before.length b) s = { s with channel := before ++ { d with bytes := b } :: after } := by
  have altered : ∀ f : Datagram → Datagram,
      (before ++ d :: after).modify before.length f = before ++ f d :: after := fun f => by
    rw [List.modify_eq_take_drop, List.take_left, List.drop_left, List.modifyHead_cons]
  simp only [channelAct, hc, altered]

end

/-! ### The step of a channel act -/

/-- An act of the channel that is no delivery, at the front of the inputs, is all that the step does. -/
theorem step_channelAct {s : State} {m : Nat} {a : ChannelAct} {rest : List Arrival}
    (h : s.inputs = ⟨m, .channel a⟩ :: rest) (hd : ∀ k e, a ≠ .deliver k e) :
    step s = .next (channelAct a { s with inputs := rest }) :=
  step_other (fetch_first h (by simp) fun k e he => hd k e (Input.channel.inj he)) rfl

/-- Settles O7: the step is the channel's act, and each act splits the list at its place. -/
theorem channelMayLoseCopyAlter : Obligations.ChannelMayLoseCopyAlter := by
  rintro s m k b rest before after d hc rfl
  refine ⟨fun h => ?_, fun h => ?_, fun h => ?_⟩
  · rw [step_channelAct h (by simp)]
    exact congrArg _ (channelAct_drop_at hc)
  · rw [step_channelAct h (by simp)]
    exact congrArg _ (channelAct_duplicate_at hc)
  · rw [step_channelAct h (by simp)]
    exact congrArg _ (channelAct_alter_at b hc)

end Sys2Proof.Machine
end

section
/-! PROOFS. The statements of 30_encoding.md: the decoder and the encoder undo each other, an encoding that stands for
no instruction, the checksum commands, packets of reserved types and packets that no engine takes. -/

namespace Sys2Proof.Machine

/-! ### Command words -/

/-- The opcodes of 30 R88, as numbers. -/
theorem Op.code_toNat_mem (o : Op) :
    o.code.toNat ∈ [0x01, 0x02, 0x03, 0x04, 0x10, 0x11, 0x20, 0x21, 0x22, 0x30, 0x31, 0x40] := by cases o <;> decide

@[simp] theorem Op.word_toNat (o : Op) : o.word.toNat = o.code.toNat := by cases o <;> rfl

@[simp] theorem Op.word_rsv (o : Op) : o.word.extractLsb' 8 24 = 0 := by cases o <;> rfl

@[simp] theorem Op.ofCode_word (o : Op) : Op.ofCode (o.word.extractLsb' 0 8) = some o := by cases o <;> rfl

theorem Op.code_of_ofCode {c : Byte} {o : Op} (h : Op.ofCode c = some o) : o.code = c := by
  simpa using List.find?_some h

/-- A word whose `rsv` is 0 and whose `op` is an opcode's is that opcode's word (30 R87). -/
theorem Op.word_of_fields {w : U32} {o : Op} (hr : w.extractLsb' 8 24 = 0)
    (ho : Op.ofCode (w.extractLsb' 0 8) = some o) : w = o.word := by
  have rsv := congrArg BitVec.toNat hr
  have op := congrArg BitVec.toNat (Op.code_of_ofCode ho)
  simp only [extractLsb'_toNat_eq, BitVec.ofNat_eq_ofNat, BitVec.toNat_ofNat] at rsv op
  refine BitVec.eq_of_toNat_eq ?_
  rw [Op.word_toNat]
  omega

/-- What an opcode makes of its operands is well formed and has them in its encoding. -/
theorem encode_of_withOperands {o : Op} {ops : List Value} {i : Instr} (h : withOperands o ops = some i) :
    encode i = .cmd o.word ops ∧ i.wf = true := by
  cases o with
  | swAdvance =>
    simp only [withOperands] at h
    split at h
    · unfold mapOperand at h
      split at h
      · rename_i hm
        cases h
        exact ⟨rfl, decide_eq_true hm⟩
      · cases h
    · cases h
  | _ =>
    simp only [withOperands] at h
    split at h
    · cases h
      exact ⟨rfl, rfl⟩
    · cases h

/-- The commands that decode: the word is an opcode's, and the operands are right for it. -/
theorem decode_cmd_iff {w : U32} {ops : List Value} {i : Instr} :
    decode (.cmd w ops) = .instr i ↔ ∃ o : Op, w = o.word ∧ withOperands o ops = some i := by
  constructor
  · intro h
    simp only [decode, decodeCommand] at h
    split at h
    · cases h
    · rename_i hr
      split at h
      · cases h
      · rename_i o ho
        split at h
        · cases h
        · rename_i j hj
          cases h
          exact ⟨o, Op.word_of_fields (not_not.mp hr) ho, hj⟩
  · rintro ⟨o, rfl, ho⟩
    simp only [decode, decodeCommand, Op.word_rsv, Op.ofCode_word, ho, ne_eq, not_true_eq_false, if_false]

/-! ### Datagrams -/

/-- What a type code makes of a packet's body is encoded as their bytes, and is well formed where the body is. -/
theorem encode_of_ofType {e : Engine} {src : Addr} {t : U32} {p : PacketBody} {i : Instr}
    (h : ofType e src t p = some i) : encode i = .rx e (packetBytes t p) src ∧ (i.wf = true ↔ p.Wf) := by
  unfold ofType at h
  split_ifs at h with h0 h1 h2 h3
  · cases h; exact ⟨by rw [h0]; rfl, decide_eq_true_iff⟩
  · cases h; exact ⟨by rw [h1]; rfl, decide_eq_true_iff⟩
  · cases h; exact ⟨by rw [h2]; rfl, decide_eq_true_iff⟩
  · cases h; exact ⟨by rw [h3]; rfl, decide_eq_true_iff⟩

/-- `decode` of the bytes of a well-formed body, and what follows the packet (40 R115, 30 R85). -/
theorem decodePacket_packetBytes (t : U32) {p : PacketBody} (hp : p.Wf) :
    decodePacket (packetBytes t p) = .packet (bodyPacket t p) :=
  decodePacket_append ⟨t, p.seq, p.length, p.checksum⟩ p.payload p.trailing hp

theorem packetBytes_drop (t : U32) {p : PacketBody} (hp : p.Wf) :
    (packetBytes t p).drop (16 + p.length.toNat) = p.trailing :=
  List.drop_left' (by rw [List.length_append, serializeHeader_length, hp])

/-- The datagrams that decode: the bytes of a well-formed body, of a type that is not reserved. -/
theorem decode_rx_iff {e : Engine} {b : Bytes} {src : Addr} {i : Instr} :
    decode (.rx e b src) = .instr i ↔
      ∃ (t : U32) (p : PacketBody), p.Wf ∧ b = packetBytes t p ∧ ofType e src t p = some i := by
  constructor
  · intro h
    simp only [decode, decodeDatagram] at h
    split at h
    · cases h
    · cases h
    · rename_i k hk
      split at h
      · cases h
      · rename_i j hj
        cases h
        obtain ⟨-, -, -, wf⟩ := decodePacket_packet hk
        exact ⟨k.h.type, _, wf, (packetBytes_of_decode hk).symm, hj⟩
  · rintro ⟨t, p, hp, rfl, ht⟩
    simp only [decode, decodeDatagram, decodePacket_packetBytes t hp, bodyPacket, packetBytes_drop t hp, ht]

/-! ### The decoder and the encoder -/

/-- Every instruction has the encoded form of its kind. -/
theorem encodedForm (i : Instr) : Laws.EncodedForm.Statement i := by
  cases i with
  | codecEncode t q l c p => exact Laws.EncodedForm.codecEncode t q l c p
  | codecChecksum t q l c p => exact Laws.EncodedForm.codecChecksum t q l c p
  | codecDecode b => exact Laws.EncodedForm.codecDecode b
  | codecVerify b => exact Laws.EncodedForm.codecVerify b
  | swInWindow q b n => exact Laws.EncodedForm.swInWindow q b n
  | swAdvance b m => exact Laws.EncodedForm.swAdvance b m
  | sndConnect a w => exact Laws.EncodedForm.sndConnect a w
  | sndSend b => exact Laws.EncodedForm.sndSend b
  | sndClose => exact Laws.EncodedForm.sndClose
  | rcvBind a => exact Laws.EncodedForm.rcvBind a
  | rcvAccept w => exact Laws.EncodedForm.rcvAccept w
  | regRead k => exact Laws.EncodedForm.regRead k
  | start e src p => exact Laws.EncodedForm.start e src p
  | endPkt e src p => exact Laws.EncodedForm.endPkt e src p
  | data e src p => exact Laws.EncodedForm.data e src p
  | ack e src p => exact Laws.EncodedForm.ack e src p

/-- Settles O1: an instruction is encoded as a command word with its operands or as a datagram (`encodedForm`), and
each of the two decodes to what it was made from. -/
theorem decodeOfEncode : Obligations.DecodeOfEncode := by
  intro i hi
  rcases encodedForm i with ⟨-, -, o, ops, -, henc, hops⟩ | ⟨-, e, src, t, p, -, henc, ht⟩
  · rw [henc]
    exact decode_cmd_iff.mpr ⟨o, rfl, hops.trans (if_pos hi)⟩
  · rw [henc]
    exact decode_rx_iff.mpr ⟨t, p, (encode_of_ofType ht).2.mp hi, rfl, ht⟩

/-- Settles O2: the events that decode are opcodes' words with their operands (`decode_cmd_iff`) and the bytes of
packets (`decode_rx_iff`), and the instruction's encoding is made of the same parts. -/
theorem encodeOfDecode : Obligations.EncodeOfDecode := by
  intro ev i h
  cases ev with
  | cmd w ops =>
    obtain ⟨o, rfl, ho⟩ := decode_cmd_iff.mp h
    exact encode_of_withOperands ho
  | rx e b src =>
    obtain ⟨t, p, hp, rfl, ht⟩ := decode_rx_iff.mp h
    obtain ⟨henc, hwf⟩ := encode_of_ofType ht
    exact ⟨henc, hwf.mpr hp⟩
  | tick => cases h
  | reset g => cases h
  | channel a => cases h

/-- Settles O3, by running the decoder on each word. -/
theorem wordsOfTheTables : Obligations.WordsOfTheTables :=
  ⟨by decide, by decide, by decide, by decide, by decide, by decide, by decide⟩

/-! ### Encodings that stand for no command -/

/-- A command that decodes to no instruction responds `E_ILLEGAL` (30 R87, R89). -/
theorem step_illegal {s : State} {m : Nat} {w : U32} {ops : List Value} {rest : List Arrival}
    (h : s.inputs = ⟨m, .cmd w ops⟩ :: rest) (hd : ∀ i, decode (.cmd w ops) ≠ .instr i) :
    step s = .next (respond .illegal [] { s with inputs := rest }) := by
  cases hr : decode (.cmd w ops) with
  | instr i => exact absurd hr (hd i)
  | rejected r => exact step_other (fetch_command h) hr

/-- Settles O4: a command that decodes has an opcode's word, which is below 256 and in the table, and is the encoding
of a well-formed instruction (`encodeOfDecode`); each of the three cases denies one of these. -/
theorem illegalCommandChangesNothing : Obligations.IllegalCommandChangesNothing := by
  intro s m w ops rest h bad
  refine step_illegal h fun i hd => ?_
  obtain ⟨o, hw, -⟩ := decode_cmd_iff.mp hd
  have code : w.toNat = o.code.toNat := by rw [hw, Op.word_toNat]
  rcases bad with rsv | reserved | operands
  · have := o.code.isLt
    omega
  · exact reserved (code ▸ Op.code_toNat_mem o)
  · obtain ⟨henc, wf⟩ := encodeOfDecode _ i hd
    exact operands i wf henc

/-! ### The checksum commands -/

/-- The results of a response, from the outputs after it. -/
theorem results_of_respond {c : Status} {r r' : List Value} {s : State}
    (h : (Host.Outcome.next (respond c r s) : Res) = .next { s with outputs := s.outputs ++ [.resp c r'] }) :
    r = r' := by
  have outputs := congrArg State.outputs (Host.Outcome.next.inj h)
  rw [respond_outputs] at outputs
  simpa using outputs

theorem execCodecVerify_packet {b : Bytes} {p : Packet} (h : decodePacket b = .packet p) (s : State) :
    exec (.codecVerify b) s = .next (respond .ok [.bool (verify s.cfg.crc p)] s) := by
  simp only [exec, execCodecVerify, h]

theorem execCodecDecode_packet {b : Bytes} {p : Packet} (h : decodePacket b = .packet p) (s : State) :
    exec (.codecDecode b) s = .next (respond .ok
      [.u32 p.h.type, .u32 p.h.seq, .u32 p.h.length, .u32 p.h.checksum, .bytes p.payload] s) := by
  simp only [exec, execCodecDecode, h]

/-- Settles O13: the two commands together compute `make_packet` (40 R117), whose bytes decode to the packet
(`decodePacket_makePacket`) that verifies (`verify_packetHeader`). -/
theorem checksumThenEncodeVerifies : Obligations.ChecksumThenEncodeVerifies := by
  intro s t q c p trailing b hp hc hb
  have checksum : (packetHeader s.cfg.crc t q p).checksum = c := by
    simpa [packetHeader] using results_of_respond hc
  have bytes : b = makePacket s.cfg.crc t q p := by
    subst checksum
    simpa [makePacket, packetHeader] using (results_of_respond hb).symm
  have hd := decodePacket_makePacket s.cfg.crc t q p trailing hp
  rw [bytes, execCodecVerify_packet hd, execCodecDecode_packet hd, verify_packetHeader, checksum]
  exact ⟨rfl, rfl⟩

/-! ### Packets that an engine does not take -/

theorem sndReceptive_iff {x : Sender} : sndReceptive x = true ↔
    x.state = .handshaking ∨ (x.state = .established ∧ x.active = true) ∨ x.state = .closing := by
  simp [sndReceptive, or_assoc]

theorem rcvReceptive_iff {x : Receiver} : rcvReceptive x = true ↔
    x.listening = true ∧ x.fault = none ∧ (x.state = .idle ∨ x.state = .established) := by
  simp [rcvReceptive, and_assoc]

/-- A packet of any type that its engine does not take is put back as the bytes it was read from. -/
theorem exec_packet_left {i : Instr} {e : Engine} {src : Addr} {s : State} (h : packetSource i = some (e, src))
    (hr : receptive e s = false) : exec i s = .next (leaveInChannel e src (packetImage i) s) := by
  have left : ∀ b p rule, offerPacket e src b p rule s = .next (leaveInChannel e src b s) := fun b p rule =>
    if_neg (Bool.eq_false_iff.mp hr)
  cases i with
  | start e' src' p => cases h; exact left _ _ fun t => .ok (rcvStart src p.seq t)
  | endPkt e' src' p => cases h; exact left _ _ _
  | data e' src' p => cases h; exact left _ _ fun t => .ok (rcvData src p.seq p.payload t)
  | ack e' src' p => cases h; exact left _ _ _
  | _ => cases h

/-- Settles O25: the two conditions say that the engine is not receptive. -/
theorem untakenPacketsStayInTheChannel : Obligations.UntakenPacketsStayInTheChannel := by
  intro s i e src h hsnd hrcv
  have unreceptive : receptive e s = false := by
    cases e with
    | snd => exact Bool.eq_false_iff.mpr fun r => hsnd rfl (sndReceptive_iff.mp r)
    | rcv => exact Bool.eq_false_iff.mpr fun r => hrcv rfl (rcvReceptive_iff.mp r)
  exact ⟨engineAddr e s, exec_packet_left h unreceptive⟩

/-! ### Packets of a reserved type -/

/-- A type code of 30 R82 is below 4. -/
theorem type_ne_of_reserved {t : U32} (h : 4 ≤ t.toNat) :
    t ≠ typeStart ∧ t ≠ typeEnd ∧ t ≠ typeData ∧ t ≠ typeAck := by
  refine ⟨?_, ?_, ?_, ?_⟩
  all_goals
    rintro rfl
    exact absurd h (by decide)

theorem validAck_none_of_type {p : Packet} (h : p.h.type ≠ typeAck) (cfg : Config) (x : Sender) (src : Addr) :
    validAck cfg x src p = none := by
  rw [validAck, if_pos h, ite_self, ite_self]

/-- A datagram that is no valid ACK only restarts the wait of a receptive sender (43 R184, R190, R196). -/
theorem sndTake_none {s : State} (h : SenderOk s.cfg.crc s.snd s.now) (hr : sndReceptive s.snd = true) :
    sndTake none s = .ok (beginWait s) := by
  rcases sndReceptive_iff.mp hr with hs | ⟨hs, ha⟩ | hs
  · simp [sndTake, hs]
  · simp only [sndTake, hs]
    exact loopHead_full h hs ha
  · simp [sndTake, hs]

theorem offerPacket_snd_none {s : State} {src : Addr} {p : Packet} (b : Bytes) (rule : State → Eff)
    (h : SenderOk s.cfg.crc s.snd s.now) (hr : sndReceptive s.snd = true) (ha : validAck s.cfg s.snd src p = none) :
    offerPacket .snd src b p rule s = .next (beginWait s) := by
  rw [offerPacket, if_pos (show receptive .snd s = true from hr), ha, sndTake_none h hr, answer_ok]

/-- A packet that a receptive receiver has no rule for only earns the hint ACK, where it fails `verify` (44 R244). -/
theorem offerPacket_rcv_none {s : State} {src : Addr} {p : Packet} {rule : State → Eff} (b : Bytes)
    (hr : rcvReceptive s.rcv = true) (hrule : rule s = .ok s) :
    offerPacket .rcv src b p rule s = .next (if verify s.cfg.crc p = true then s else rcvMismatch src s) := by
  rw [offerPacket, if_pos (show receptive .rcv s = true from hr), hrule]
  cases verify s.cfg.crc p <;> rfl

theorem rcvRule_reserved {p : Packet} (h : 4 ≤ p.h.type.toNat) (src : Addr) (s : State) :
    rcvRule src p s = .ok s := by
  obtain ⟨h0, h1, h2, -⟩ := type_ne_of_reserved h
  rw [rcvRule, if_neg h0, if_neg h1, if_neg h2]

/-- Settles O27: a reserved type is no ACK for the sender and has no rule at the receiver. -/
theorem reservedTypesAreIgnored : Obligations.ReservedTypesAreIgnored := by
  intro s s1 e b src p hi hf hr hd ht
  obtain ⟨-, hsnd, -⟩ := hi
  obtain ⟨-, -, -, noAck⟩ := type_ne_of_reserved ht
  refine ⟨engineAddr .rcv s1, ?_⟩
  rw [step_packet hf hd]
  cases e with
  | snd => exact offerPacket_snd_none b _ hsnd hr (validAck_none_of_type noAck ..)
  | rcv =>
    rw [offerPacket_rcv_none b hr (rcvRule_reserved ht src s1), rcvMismatch]
    cases verify s1.cfg.crc p with
    | true => simp
    | false => simp [rcvAck, transmit, putDatagram, emit]

end Sys2Proof.Machine
end

section
/-! PROOFS. The statements of 40_codec.md: what the codec's commands answer, that one flipped bit makes `verify` false,
and that the pure commands and REG_READ only respond. -/

namespace Sys2Proof.Machine

/-! ### Datagrams that decode, and those that do not -/

/-- `decode` of a datagram that holds the bytes its header states (40 R115). -/
theorem decodePacket_of_le {b : Bytes} (h : 16 + (rd32 b 8).toNat ≤ b.length) :
    decodePacket b = .packet ⟨readHeader b, slice b 16 (16 + (rd32 b 8).toNat)⟩ := by
  have enough : ¬ 16 + (readHeader b).length.toNat > b.length := Nat.not_lt.mpr h
  rw [decodePacket, if_neg (by omega), if_neg enough]
  rfl

theorem decodePacket_ne_of_short {b : Bytes} (h : b.length < 16 ∨ b.length < 16 + (rd32 b 8).toNat) (p : Packet) :
    decodePacket b ≠ .packet p := by
  intro hd
  obtain ⟨hle, hh, -, -⟩ := decodePacket_packet hd
  have field : p.h.length = rd32 b 8 := congrArg Header.length hh
  rw [field] at hle
  omega

theorem execCodecDecode_malformed {b : Bytes} (h : ∀ p, decodePacket b ≠ .packet p) (s : State) :
    exec (.codecDecode b) s = .next (respond .format [] s) := by
  cases hd : decodePacket b with
  | packet p => exact absurd hd (h p)
  | shortHeader => simp only [exec, execCodecDecode, hd]
  | shortPayload => simp only [exec, execCodecDecode, hd]

theorem execCodecVerify_malformed {b : Bytes} (h : ∀ p, decodePacket b ≠ .packet p) (s : State) :
    exec (.codecVerify b) s = .next (respond .format [] s) := by
  cases hd : decodePacket b with
  | packet p => exact absurd hd (h p)
  | shortHeader => simp only [exec, execCodecVerify, hd]
  | shortPayload => simp only [exec, execCodecVerify, hd]

/-! ### The codec's commands -/

/-- Settles O12: bytes that are too few do not decode (`decodePacket_ne_of_short`); the others do, and `verify` is said
in terms of the datagram's own bytes (`verify_bytes`). -/
theorem codecVerifyResponds : Obligations.CodecVerifyResponds := by
  refine fun s b => ⟨fun h => execCodecVerify_malformed (decodePacket_ne_of_short h) s, fun h => ?_⟩
  rw [execCodecVerify_packet (decodePacket_of_le h), verify_bytes _ h]
  rfl

/-- Settles O11, as O12: the fields of the answer are those of `readHeader`. -/
theorem codecDecodeResponds : Obligations.CodecDecodeResponds := by
  refine fun s b => ⟨fun h => execCodecDecode_malformed (decodePacket_ne_of_short h) s, fun h => ?_⟩
  rw [execCodecDecode_packet (decodePacket_of_le h), slice, Nat.add_sub_cancel_left]
  rfl

/-- Settles O9: the header that was written is the one that is read (`readHeader_serializeHeader`), field by field. -/
theorem codecEncodeResponds : Obligations.CodecEncodeResponds := by
  intro s t q l c p
  have read : readHeader (encodePacket ⟨t, q, l, c⟩ p) = ⟨t, q, l, c⟩ := readHeader_serializeHeader _ p
  refine ⟨encodePacket ⟨t, q, l, c⟩ p, rfl, ?_, congrArg Header.type read, congrArg Header.seq read,
    congrArg Header.length read, congrArg Header.checksum read, List.drop_left' (serializeHeader_length _)⟩
  rw [encodePacket, List.length_append, serializeHeader_length]

/-- `compute_checksum` in terms of the bytes that P_CRC is computed over; the stored checksum is not among them. -/
theorem computeChecksum_bytes (crc : Crc) (h : Header) (p : Bytes) : computeChecksum crc h p =
    pCrc crc (be32 h.type ++ be32 h.seq ++ be32 h.length ++ [0, 0, 0, 0] ++ p) := by
  have zero : be32 0 = [0, 0, 0, 0] := by decide
  rw [computeChecksum, serializeHeader, zero]

/-- Settles O10, from `computeChecksum_bytes`. -/
theorem codecChecksumResponds : Obligations.CodecChecksumResponds := fun s t q l c p =>
  congrArg (fun v => Host.Outcome.next (respond .ok [.u32 v] s)) (computeChecksum_bytes s.cfg.crc ⟨t, q, l, c⟩ p)

/-! ### One flipped bit -/

/-- A datagram with zeros in its checksum field: what `verify` computes P_CRC over where nothing follows the packet
(`decodePacket_exact`). -/
def zeroChecksum (b : Bytes) : Bytes := b.take 12 ++ [0, 0, 0, 0] ++ b.drop 16

/-- A datagram with exactly the bytes that its header states decodes, and `verify` compares P_CRC of it with its
checksum field. -/
theorem decodePacket_exact (crc : Crc) {b : Bytes} (h : b.length = 16 + (rd32 b 8).toNat) :
    ∃ p, decodePacket b = .packet p ∧ verify crc p = decide (pCrc crc (zeroChecksum b) = rd32 b 12) := by
  have payload : (b.drop 16).take (rd32 b 8).toNat = b.drop 16 :=
    List.take_of_length_le (by rw [List.length_drop]; omega)
  refine ⟨_, decodePacket_of_le h.ge, ?_⟩
  rw [verify_bytes crc h.ge, payload, zeroChecksum]

theorem makePacket_length (crc : Crc) (t q : U32) (p : Bytes) : (makePacket crc t q p).length = 16 + p.length := by
  rw [makePacket, encodePacket, List.length_append, serializeHeader_length]

theorem readHeader_makePacket (crc : Crc) (t q : U32) (p : Bytes) :
    readHeader (makePacket crc t q p) = packetHeader crc t q p := readHeader_serializeHeader _ p

/-- `make_packet` states the bytes it holds (40 R117). -/
theorem makePacket_exact (crc : Crc) (t q : U32) {p : Bytes} (hp : p.length < 2 ^ 32) :
    (makePacket crc t q p).length = 16 + (rd32 (makePacket crc t q p) 8).toNat := by
  have field : rd32 (makePacket crc t q p) 8 = BitVec.ofNat 32 p.length :=
    congrArg Header.length (readHeader_makePacket crc t q p)
  rw [makePacket_length, field, BitVec.toNat_ofNat, Nat.mod_eq_of_lt hp]

/-- `make_packet` makes a datagram that verifies (`verify_packetHeader`), said of its bytes. -/
theorem pCrc_zeroChecksum_makePacket (crc : Crc) (t q : U32) {p : Bytes} (hp : p.length < 2 ^ 32) :
    pCrc crc (zeroChecksum (makePacket crc t q p)) = rd32 (makePacket crc t q p) 12 := by
  obtain ⟨pkt, hd, hv⟩ := decodePacket_exact crc (makePacket_exact crc t q hp)
  have made := decodePacket_makePacket crc t q p [] hp
  rw [List.append_nil, hd] at made
  rw [Parsed.packet.inj made, verify_packetHeader] at hv
  exact of_decide_eq_true hv.symm

theorem modify_ne {l : Bytes} {i : Nat} {f : Byte → Byte} (hi : i < l.length) (hf : ∀ x, f x ≠ x) :
    l.modify i f ≠ l := by
  intro h
  have same : (l.modify i f)[i]? = l[i]? := congrArg (·[i]?) h
  rw [List.getElem?_modify_eq, List.getElem?_eq_getElem hi] at same
  exact hf _ (Option.some.inj same)

/-- A byte changed in the header changes the header that is read. -/
theorem readHeader_modify_ne {b : Bytes} {i : Nat} {f : Byte → Byte} (hb : 16 ≤ b.length) (hi : i < 16)
    (hf : ∀ x, f x ≠ x) : readHeader (b.modify i f) ≠ readHeader b := by
  intro h
  have front : (b.modify i f).take 16 = b.take 16 := by
    rw [← serializeHeader_readHeader hb, ← h, serializeHeader_readHeader (by rw [List.length_modify]; exact hb)]
  rw [List.take_modify] at front
  exact modify_ne (by rw [List.length_take]; omega) hf front

/-- A byte changed in the checksum field changes the field: the three other fields of the header stay. -/
theorem checksum_modify_ne {b : Bytes} {i : Nat} {f : Byte → Byte} (hb : 16 ≤ b.length) (hi : 12 ≤ i ∧ i < 16)
    (hf : ∀ x, f x ≠ x) : rd32 (b.modify i f) 12 ≠ rd32 b 12 := by
  intro h
  refine readHeader_modify_ne hb hi.2 hf ?_
  rw [readHeader, readHeader, h, rd32_modify f (by omega), rd32_modify f (by omega), rd32_modify f (by omega)]

theorem zeroChecksum_modify_checksum (b : Bytes) {i : Nat} (f : Byte → Byte) (hi : 12 ≤ i ∧ i < 16) :
    zeroChecksum (b.modify i f) = zeroChecksum b := by
  rw [zeroChecksum, zeroChecksum, List.take_modify, List.modify_eq_self (by rw [List.length_take]; omega),
    List.drop_modify_of_lt _ _ _ _ hi.2]

theorem zeroChecksum_length {b : Bytes} (hb : 16 ≤ b.length) : (zeroChecksum b).length = b.length := by
  simp only [zeroChecksum, List.length_append, List.length_take, List.length_drop, List.length_cons, List.length_nil]
  omega

/-- Flipping one bit of a datagram parts P_CRC from the checksum field: in the field itself only the field changes,
elsewhere only what P_CRC is computed over, and P_CRC detects that. -/
theorem pCrc_zeroChecksum_flipBit_ne {c : Config} (hc : c.Ok) {b : Bytes} {k : Nat} (hb : 16 ≤ b.length)
    (hk : k < 8 * b.length) (valid : pCrc c.crc (zeroChecksum b) = rd32 b 12) :
    pCrc c.crc (zeroChecksum (flipBit b k)) ≠ rd32 (flipBit b k) 12 := by
  by_cases hi : 12 ≤ k / 8 ∧ k / 8 < 16
  · rw [flipBit, zeroChecksum_modify_checksum b _ hi, valid]
    exact (checksum_modify_ne hb hi fun x => flip_ne x k).symm
  · have data : zeroChecksum (flipBit b k) = flipBit (zeroChecksum b) k := zeroChecksum_modify _ hb hi
    have field : rd32 (flipBit b k) 12 = rd32 b 12 := rd32_modify _ (by omega)
    rw [data, field, ← valid]
    exact Config.Ok.detectsFlips hc _ k (by rwa [zeroChecksum_length hb])

/-- Settles O14: outside the length field a flipped bit leaves the datagram with the bytes its header states, so it
decodes (`decodePacket_exact`), and its checksum is no longer P_CRC of it (`pCrc_zeroChecksum_flipBit_ne`). -/
theorem singleBitFlipFailsVerify : Obligations.SingleBitFlipFailsVerify := by
  intro c t q p k hc hp hk outside
  have length := makePacket_length c.crc t q p
  have flipped : (flipBit (makePacket c.crc t q p) k).length =
      16 + (rd32 (flipBit (makePacket c.crc t q p) k) 8).toNat := by
    rw [flipBit, List.length_modify, rd32_modify _ (by omega)]
    exact makePacket_exact c.crc t q hp
  obtain ⟨pkt, hd, hv⟩ := decodePacket_exact c.crc flipped
  refine ⟨pkt, hd, hv.trans (decide_eq_false ?_)⟩
  exact pCrc_zeroChecksum_flipBit_ne hc (by omega) (by omega) (pCrc_zeroChecksum_makePacket c.crc t q hp)

/-! ### The commands for neither engine -/

/-- A command for neither engine only responds, from any state; `freeCount` is the model's own field. -/
theorem exec_pure {i : Instr} (hc : isCommand i = true) (hs : forSender i = false) (hr : forReceiver i = false)
    (s : State) : ∃ c r n, exec i s = .next (respond c r { s with freeCount := n }) := by
  cases i with
  | codecEncode t q l c p => exact ⟨_, _, s.freeCount, rfl⟩
  | codecChecksum t q l c p => exact ⟨_, _, s.freeCount, rfl⟩
  | codecDecode b =>
    by_cases hd : ∃ p, decodePacket b = .packet p
    · obtain ⟨p, hp⟩ := hd
      exact ⟨_, _, s.freeCount, execCodecDecode_packet hp s⟩
    · exact ⟨_, _, s.freeCount, execCodecDecode_malformed (not_exists.mp hd) s⟩
  | codecVerify b =>
    by_cases hd : ∃ p, decodePacket b = .packet p
    · obtain ⟨p, hp⟩ := hd
      exact ⟨_, _, s.freeCount, execCodecVerify_packet hp s⟩
    · exact ⟨_, _, s.freeCount, execCodecVerify_malformed (not_exists.mp hd) s⟩
  | swInWindow q b n => exact ⟨_, _, s.freeCount, rfl⟩
  | swAdvance b m =>
    simp only [exec, execSwAdvance]
    split
    · exact ⟨_, _, s.freeCount, rfl⟩
    · exact ⟨_, _, s.freeCount, rfl⟩
  | regRead k =>
    simp only [exec, execRegRead]
    split
    · exact ⟨_, _, s.freeCount, rfl⟩
    · exact ⟨_, _, s.freeCount + 1, rfl⟩
  | sndConnect a w => cases hs
  | sndSend b => cases hs
  | sndClose => cases hs
  | rcvBind a => cases hr
  | rcvAccept w => cases hr
  | start e a p => cases hc
  | endPkt e a p => cases hc
  | data e a p => cases hc
  | ack e a p => cases hc

/-- Settles O50: such a command only responds (`exec_pure`). -/
theorem pureCommandsFrame : Obligations.PureCommandsFrame := by
  intro i s t hc hs hr h
  obtain ⟨c, r, n, hexec⟩ := exec_pure hc hs hr s
  cases hexec.symm.trans h
  exact ⟨rfl, rfl, rfl, rfl, rfl, rfl, c, r, rfl⟩

end Sys2Proof.Machine
end

section
/-! PROOFS. The statements of 41_seqwindow.md: the window predicate, and the run that SW_ADVANCE drains. -/

namespace Sys2Proof.Machine

/-! ### The window predicate -/

/-- Settles O15: the answer is `inWindow`, and `inWindow_iff` says when it is true. -/
theorem inWindowResponds : Obligations.InWindowResponds :=
  fun _ q b n => ⟨inWindow q b n, rfl, inWindow_iff⟩

/-! ### SeqOverflow, and the end of the run -/

/-- SeqOverflow exactly where `b`, and every number from it up to 2^32 - 2, is a key (41 R141). -/
theorem advance_eq_none_iff {b : U32} {m : UMap Bytes} {out : Bytes} :
    advance b m out = none ↔
      mapHas m b = true ∧ ∀ q : U32, b.toNat ≤ q.toNat → q.toNat ≤ 2 ^ 32 - 2 → mapHas m q = true := by
  constructor
  · intro h
    obtain ⟨base, upper⟩ := advance_none h
    exact ⟨Option.isSome_iff_exists.mpr base, fun q h1 h2 => Option.isSome_iff_exists.mpr (upper q h1 h2)⟩
  · rintro ⟨base, upper⟩
    cases h : advance b m out with
    | none => rfl
    | some r =>
      obtain ⟨b', m', out'⟩ := r
      have d := advance_some h
      have present : mapHas m b' = true := by
        rcases d.bound with same | le
        · exact same ▸ base
        · exact upper b' d.le le
      rw [mapHas, d.stops] at present
      cases present

/-- The drained run ends at the first number from `b` on that is no key. -/
theorem Drained.end_eq {b : U32} {m : UMap Bytes} {out : Bytes} {b' : U32} {m' : UMap Bytes} {out' : Bytes} {n : Nat}
    (d : Drained b m out b' m' out') (bound : b.toNat + n < 2 ^ 32)
    (run : ∀ k, k < n → mapHas m (BitVec.ofNat 32 (b.toNat + k)) = true)
    (stop : mapHas m (BitVec.ofNat 32 (b.toNat + n)) = false) : b' = BitVec.ofNat 32 (b.toNat + n) := by
  have value := ofNat_toNat_u32 bound
  have le := d.le
  refine u32_eq_of_toNat (Nat.le_antisymm ?notAfter ?notBefore)
  case notAfter =>
    refine Nat.not_lt.mp fun after => ?_
    obtain ⟨p, hp⟩ := d.present (BitVec.ofNat 32 (b.toNat + n)) (by omega) after
    rw [mapHas, hp] at stop
    cases stop
  case notBefore =>
    refine Nat.not_lt.mp fun before => ?_
    have present := run (b'.toNat - b.toNat) (by omega)
    rw [Nat.add_sub_cancel' le, BitVec.ofNat_toNat, BitVec.setWidth_eq, mapHas, d.stops] at present
    cases present

/-! ### SW_ADVANCE -/

theorem execSwAdvance_some {b : U32} {m : UMap Bytes} {b' : U32} {m' : UMap Bytes} {out : Bytes}
    (h : advance b m [] = some (b', m', out)) (s : State) :
    exec (.swAdvance b m) s = .next (respond .ok [.u32 b', .bytes out, .map m'] s) := by
  simp only [exec, execSwAdvance, h]

theorem execSwAdvance_none {b : U32} {m : UMap Bytes} (h : advance b m [] = none) (s : State) :
    exec (.swAdvance b m) s = .next (respond .arg [] s) := by
  simp only [exec, execSwAdvance, h]

/-- Where the number after the run is no key, `advance` answers at that number, with the run's payloads. -/
theorem advance_run {b : U32} {m : UMap Bytes} {n : Nat} (bound : b.toNat + n < 2 ^ 32)
    (edge : n = 0 ∨ b.toNat + n ≤ 2 ^ 32 - 2)
    (run : ∀ k, k < n → mapHas m (BitVec.ofNat 32 (b.toNat + k)) = true)
    (stop : mapHas m (BitVec.ofNat 32 (b.toNat + n)) = false) :
    ∃ m', advance b m [] = some (BitVec.ofNat 32 (b.toNat + n), m', runPayload m b.toNat n) ∧
      Drained b m [] (BitVec.ofNat 32 (b.toNat + n)) m' (runPayload m b.toNat n) := by
  have value := ofNat_toNat_u32 bound
  have answers : advance b m [] ≠ none := by
    intro overflow
    obtain ⟨base, upper⟩ := advance_eq_none_iff.mp overflow
    have present : mapHas m (BitVec.ofNat 32 (b.toNat + n)) = true := by
      rcases edge with rfl | le
      · simpa using base
      · exact upper _ (by omega) (by omega)
    rw [stop] at present
    cases present
  obtain ⟨⟨b', m', out'⟩, h⟩ := Option.ne_none_iff_exists'.mp answers
  have d := advance_some h
  obtain rfl := d.end_eq bound run stop
  obtain rfl : out' = runPayload m b.toNat n := by
    rw [d.payloads, value, Nat.add_sub_cancel_left, List.nil_append]
  exact ⟨m', h, d⟩

/-- Settles O16: the answer of `advance` at the end of the run (`advance_run`), and its overflow
(`advance_eq_none_iff`). -/
theorem advanceDrainsTheRun : Obligations.AdvanceDrainsTheRun := by
  constructor
  · intro s b m n hw bound edge run stop
    obtain ⟨m', h, d⟩ := advance_run bound edge run stop
    refine ⟨m', execSwAdvance_some h s, d.wf hw, fun q => ?_⟩
    rw [d.restGet, ofNat_toNat_u32 bound]
  · intro s b m _ base upper
    exact execSwAdvance_none (advance_eq_none_iff.mpr ⟨base, upper⟩) s

end Sys2Proof.Machine
end

section
/-! PROOFS. The statements of 42_connection_fsm.md: what a step does to the sender's registers, the edges of the two
state graphs, and that Closed is terminal. -/

namespace Sys2Proof.Machine

/-! ### What a step does to the sender -/

/-- What a step does to the sender: nothing; a reset; a command that runs in Idle or Established; or, at a receptive
sender, a datagram that it takes or a TICK. -/
inductive SndStep (s t : State) : Prop where
  | kept (x : t.snd = s.snd)
  | reset (h : takesSndReset s = true) (x : t.snd = Sender.reset)
  | command (s1 : State) (i : Instr) (f : Fetched s s1) (st : s.snd.state = .idle ∨ s.snd.state = .established)
      (h : exec i s1 = .next t)
  | took (s1 : State) (a : Option U32) (f : Fetched s s1) (r : sndReceptive s.snd = true) (h : sndTake a s1 = .ok t)
  | ticked (s1 : State) (f : Fetched s s1) (r : sndReceptive s.snd = true) (h : tick s1 = .ok t)

/-- TICK does nothing to a sender that is not receptive: no timer of it runs (60 R310). -/
theorem tick_of_not_receptive {s : State} (r : sndReceptive s.snd = false) :
    tick s = .ok { s with now := s.now + 1 } := by simp [tick, r]

theorem command_sndStep {s s1 t : State} {w : U32} {ops : List Value} (hf : fetch s = some (.cmd w ops, s1))
    (k : CommandWay s1 t) (h : step s = .next t) : SndStep s t := by
  have f := fetch_frame hf
  cases hd : decode (.cmd w ops) with
  | instr i =>
    rw [step_instr hf hd] at h
    rcases k.snd with same | idle | ⟨established, -⟩
    · exact .kept (same.trans f.snd)
    · exact .command s1 i f (.inl (f.snd ▸ idle)) h
    · exact .command s1 i f (.inr (f.snd ▸ established)) h
  | rejected r =>
    rw [step_other hf hd] at h
    cases h
    exact .kept f.snd

theorem tick_sndStep {s s1 t : State} (f : Fetched s s1) (h : tick s1 = .ok t) : SndStep s t := by
  cases r : sndReceptive s1.snd with
  | false =>
    rw [tick_of_not_receptive r] at h
    cases h
    exact .kept f.snd
  | true => exact .ticked s1 f (f.snd ▸ r) h

theorem resetTarget_sndStep {s s1 : State} {g : Target} (hf : fetch s = some (.reset g, s1)) :
    SndStep s (resetTarget g s1) := by
  cases g with
  | snd => exact .reset (by simp [takesSndReset, hf]) rfl
  | rcv => exact .kept (fetch_frame hf).snd
  | all => exact .reset (by simp [takesSndReset, hf]) rfl

/-- Every step that completes does one of these to the sender. -/
theorem step_snd {s t : State} (h : step s = .next t) : SndStep s t := by
  cases step_way h with
  | none e => exact .kept (by rw [e])
  | cmd s1 w ops hf k => exact command_sndStep hf k h
  | left s1 e b src hf r e => exact .kept (by rw [e, leaveInChannel_snd, (fetch_frame hf).snd])
  | snd s1 b src a hf r e => exact .took s1 a (fetch_frame hf) ((fetch_frame hf).snd ▸ r) e
  | rcv s1 b src p hf hd r v f k => exact .kept (f.snd.trans (fetch_frame hf).snd)
  | malformed s1 b src hf hd r e => exact .kept (by rw [e, (fetch_frame hf).snd])
  | tick s1 hf e => exact tick_sndStep (fetch_frame hf) e
  | reset s1 g hf e => rw [e]; exact resetTarget_sndStep hf
  | channel s1 a hf e =>
    obtain ⟨l, hl⟩ := channelAct_frame a s1
    exact .kept (by rw [e, hl, ← (fetch_frame hf).snd])

/-! ### The edges of the state graphs -/

/-- Every instruction keeps to the sender's edges: one that is not for the sender keeps its registers. -/
theorem ExecKeeps.snd_edge {s t : State} (k : ExecKeeps s t) : sndEdge s.snd.state t.snd.state = true := by
  cases k with
  | snd k => exact k.edge
  | sndCmd k => exact k.edge
  | rcv src p r v f k => rw [f.snd]; exact sndEdge_refl _
  | rcvCmd k => rw [k.snd]; exact sndEdge_refl _
  | none k o =>
    obtain ⟨-, hsnd, -, -⟩ := k
    rw [hsnd]
    exact sndEdge_refl _

theorem exec_snd_edge {i : Instr} {s t : State} (hi : CoreInv s) (h : exec i s = .next t) :
    sndEdge s.snd.state t.snd.state = true := by
  obtain ⟨u, hu, k⟩ := exec_keeps i hi
  cases hu.symm.trans h
  exact k.snd_edge

theorem sndTake_edge {a : Option U32} {s t : State} (hi : CoreInv s) (r : sndReceptive s.snd = true)
    (h : sndTake a s = .ok t) : sndEdge s.snd.state t.snd.state = true := by
  obtain ⟨⟨-, -, timeout, -⟩, hs, -⟩ := hi
  obtain ⟨u, hu, k⟩ := sndTake_keeps a timeout hs r
  cases hu.symm.trans h
  exact k.edge

theorem tick_edge {s t : State} (hi : CoreInv s) (h : tick s = .ok t) : sndEdge s.snd.state t.snd.state = true := by
  obtain ⟨⟨-, -, timeout, -⟩, hs, -⟩ := hi
  obtain ⟨u, hu, k⟩ := tick_keeps timeout hs
  cases hu.symm.trans h
  exact k.edge

/-- Settles O46: of what a step can do to the sender (`step_snd`), a command, a datagram and a TICK keep to the edges,
each by the law of its operation. -/
theorem senderTransitionGraph : Obligations.SenderTransitionGraph := by
  intro s t hi h
  cases step_snd h with
  | kept x => rw [x]; exact .inl (sndEdge_refl _)
  | reset h x => exact .inr ⟨h, by rw [x]; rfl⟩
  | command s1 i f st h => rw [← f.snd]; exact .inl (exec_snd_edge (f.inv hi) h)
  | took s1 a f r h =>
    rw [← f.snd] at r ⊢
    exact .inl (sndTake_edge (f.inv hi) r h)
  | ticked s1 f r h => rw [← f.snd]; exact .inl (tick_edge (f.inv hi) h)

/-- Settles O47: of what a step can do to the receiver (`step_rcv`), only a reset and a taken datagram write its
state, and the datagram keeps to the edges (`RcvEffect.edge`). -/
theorem receiverTransitionGraph : Obligations.ReceiverTransitionGraph := by
  intro s t hi h
  obtain ⟨-, -, hr⟩ := hi
  have ⟨states, _⟩ := hr
  cases step_rcv h with
  | kept r q => rw [r]; exact .inl (rcvEdge_refl _ states)
  | setUp _ _ _ state _ _ _ => rw [state]; exact .inl (rcvEdge_refl _ states)
  | reset h r q => exact .inr ⟨h, by rw [r]; rfl⟩
  | took s1 b src p hf hd r v k => exact .inl (k.edge hr)

/-! ### Closed is terminal -/

theorem not_sndReceptive_of_closed {x : Sender} (h : x.state = .closed) : ¬ sndReceptive x = true := by
  simp [sndReceptive_iff, h]

theorem not_rcvReceptive_of_closed {x : Receiver} (h : x.state = .closed) : ¬ rcvReceptive x = true := by
  simp [rcvReceptive_iff, h]

theorem step_snd_closed {s t : State} (h : step s = .next t) (hc : s.snd.state = .closed)
    (hreset : takesSndReset s = false) : t.snd = s.snd := by
  cases step_snd h with
  | kept x => exact x
  | reset h x => rw [h] at hreset; cases hreset
  | command s1 i f st h => simp [hc] at st
  | took s1 a f r h => exact absurd r (not_sndReceptive_of_closed hc)
  | ticked s1 f r h => exact absurd r (not_sndReceptive_of_closed hc)

theorem step_rcv_closed {s t : State} (h : step s = .next t) (hc : s.rcv.state = .closed)
    (hreset : takesRcvReset s = false) : t.rcv = s.rcv := by
  cases step_rcv h with
  | kept r q => exact r
  | setUp idle _ _ _ _ _ _ => rw [hc] at idle; cases idle
  | reset h r q => rw [h] at hreset; cases hreset
  | took s1 b src p hf hd r v k => exact absurd r (not_rcvReceptive_of_closed hc)

/-- Settles O53: a Closed engine takes no datagram and no TICK, and no command that writes its registers runs in
Closed. -/
theorem closedIsTerminal : Obligations.ClosedIsTerminal :=
  fun _ _ h => ⟨step_snd_closed h, step_rcv_closed h⟩

end Sys2Proof.Machine
end

section
/-! PROOFS. The statements of 43_sender.md: its commands, the datagrams it takes, its timers, and what it transmits. -/

namespace Sys2Proof.Machine

/-! ### SND_CONNECT -/

/-- Settles O18: the three branches of the command. -/
theorem sndConnectOpens : Obligations.SndConnectOpens := by
  refine fun s a w => ⟨fun idle hw => ⟨s.cfg.sndAddr, ?_⟩, fun idle hw => ?_, fun notIdle => ?_⟩
  · simp only [exec, execSndConnect, idle, hw, ne_eq, not_true, if_false]
    simp [beginWait, transmit, putDatagram, respond, emit]
  · simp only [exec, execSndConnect, idle, hw, ne_eq, not_true, if_false, if_true]
    rfl
  · exact if_pos notIdle

/-! ### SND_SEND -/

/-- `ceil(L / M)` is the number of chunks of `M` bytes that hold `L` bytes, the last of them not empty (43 R186). -/
theorem chunkCount_eq {len m n : Nat} (enough : len ≤ n * m) (tight : n * m < len + m) : chunkCount len m = n := by
  refine Nat.div_eq_of_lt_le (by omega) ?_
  rw [Nat.succ_mul]
  omega

theorem lt_chunkCount {len m n : Nat} (hm : 1 ≤ m) (h : n * m < len) : n < chunkCount len m := by
  refine (Nat.le_div_iff_mul_le hm).mpr ?_
  rw [Nat.succ_mul]
  omega

/-- `chunk(stream, s)` is the part of at most `M` bytes after the `s - 1` chunks before it (43 R187). -/
theorem chunk_eq (m : Nat) (stream : Bytes) {q : Nat} (hq : 1 ≤ q) :
    chunk m stream q = (stream.drop ((q - 1) * m)).take m := by
  obtain ⟨i, rfl⟩ := Nat.exists_eq_add_of_le' hq
  rw [chunk, slice, Nat.add_sub_cancel, Nat.succ_mul]
  rcases Nat.le_total (i * m + m) stream.length with h | h
  · rw [Nat.min_eq_left h, Nat.add_sub_cancel_left]
  · rw [Nat.min_eq_right h, ← List.length_drop, List.take_length,
      List.take_of_length_le (by rw [List.length_drop]; omega)]

/-- DATA(s, chunk s), the image of the number `s` (43 R187). -/
def chunkImage (cfg : Config) (stream : Bytes) (q : Nat) : Bytes :=
  dataPacket cfg.crc (BitVec.ofNat 32 q) ((stream.drop ((q - 1) * cfg.maxPayload)).take cfg.maxPayload)

theorem dataImages_eq (cfg : Config) (stream : Bytes) (n : Nat) :
    dataImages cfg stream n = (List.range' 1 n).map (fun q => (BitVec.ofNat 32 q, chunkImage cfg stream q)) := by
  rw [List.range'_eq_map_range, List.map_map]
  refine List.map_congr_left fun i _ => ?_
  simp only [chunk_eq _ _ (Nat.le_add_left 1 i), Function.comp, chunkImage, Nat.add_comm 1 i]

theorem execSndSend_refused {s : State} (h : s.snd.state ≠ .established ∨ s.snd.loaded = true) (stream : Bytes) :
    execSndSend stream s = .next (respond .state [] s) := if_pos h

theorem execSndSend_tooLong {s : State} {stream : Bytes} (he : s.snd.state = .established) (hl : s.snd.loaded = false)
    (h : 2 ^ 32 - 3 < chunkCount stream.length s.cfg.maxPayload) :
    execSndSend stream s = .next (respond .arg [] s) := by
  simp only [execSndSend, he, hl, ne_eq, not_true, Bool.false_eq_true, or_self, if_false]
  exact if_pos h

/-- The state in which SND_SEND begins the send loop, for a stream of `n` chunks. -/
def sendingState (stream : Bytes) (n : Nat) (s : State) : State :=
  { respond .ok [] s with snd := loadedSender s.cfg s.snd stream n }

theorem execSndSend_loads {s : State} {stream : Bytes} {n : Nat} (he : s.snd.state = .established)
    (hl : s.snd.loaded = false) (hc : chunkCount stream.length s.cfg.maxPayload = n) (hn : n ≤ 2 ^ 32 - 3) :
    execSndSend stream s = answer (loopHead (sendingState stream n s)) := by
  subst hc
  simp only [execSndSend, he, hl, ne_eq, not_true, Bool.false_eq_true, or_self, if_false]
  exact if_neg (Nat.not_lt.mpr hn)

/-- Established with no stream loaded, the sender holds nothing of a stream (10 R25 to R31). -/
theorem SenderOk.unloaded {crc : Crc} {x : Sender} {now : Nat} (h : SenderOk crc x now) (he : x.state = .established)
    (hl : x.loaded = false) : Connected x ∧ x.closeAcked = false ∧ NoStream x ∧ x.base = 1 ∧ x.next = 1 := by
  obtain ⟨-, -, established, -⟩ := h
  obtain ⟨connected, unacked, fresh | ⟨⟨loaded, -⟩, -⟩⟩ := established he
  · exact ⟨connected, unacked, fresh⟩
  · rw [hl] at loaded
    cases loaded

theorem sendingState_ready {s : State} {n : Nat} (stream : Bytes) (hi : CoreInv s) (he : s.snd.state = .established)
    (hl : s.snd.loaded = false) (hn : n ≤ 2 ^ 32 - 3) : LoopReady (sendingState stream n s) := by
  obtain ⟨⟨-, -, timeout, -⟩, hs, -⟩ := hi
  obtain ⟨connected, unacked, noStream, base, next⟩ := hs.unloaded he hl
  exact ⟨timeout, he, connected, unacked, rfl, loadedSender_loaded s.now stream noStream hn base next⟩

/-- The sender in the send loop after the first `sent` of `n` chunks went out, but for the wait (43 R186 to R188). -/
def sentSender (cfg : Config) (x : Sender) (now : Nat) (stream : Bytes) (n sent : Nat) : Sender :=
  { x with
    n := BitVec.ofNat 32 n
    loaded := true
    active := true
    pkt := (List.range' 1 n).map (fun q => (BitVec.ofNat 32 q, chunkImage cfg stream q))
    next := BitVec.ofNat 32 (1 + sent)
    outstanding := (List.range' 1 sent).map (fun q =>
      (BitVec.ofNat 32 q, ⟨BitVec.ofNat 32 q, chunkImage cfg stream q, now, false⟩)) }

/-- Before FillWindow nothing has gone out. -/
theorem loadedSender_eq (cfg : Config) {x : Sender} (now : Nat) (stream : Bytes) {n : Nat} (hx : NoStream x)
    (next : x.next = 1) (hn : n ≤ 2 ^ 32 - 3) : loadedSender cfg x stream n = sentSender cfg x now stream n 0 := by
  obtain ⟨-, -, -, pkt, outstanding⟩ := hx
  rw [loadedSender, pkt, mapInsertAll_dataImages cfg stream (by omega), dataImages_eq]
  simp [sentSender, outstanding, next]

section

variable (cfg : Config) {x : Sender} (now : Nat) (stream : Bytes) {n sent : Nat}

theorem mapGet_sentSender (hn : n ≤ 2 ^ 32 - 3) {q : Nat} (hq : 1 ≤ q) (hqn : q ≤ n) :
    mapGet (sentSender cfg x now stream n 0).pkt (BitVec.ofNat 32 q) = some (chunkImage cfg stream q) := by
  have keys := keyNats_dataImages cfg stream (n := n) (by omega)
  rw [dataImages_eq] at keys
  exact mapGet_of_mem (mapWf_of_keyNats_range' keys) (List.mem_map.mpr ⟨q, List.mem_range'_1.mpr (by omega), rfl⟩)

theorem fillEdge_sentSender (base : x.base = 1) (hn : n ≤ 2 ^ 32 - 3) (hsent : sent = min x.win.toNat n) :
    fillEdge (sentSender cfg x now stream n 0) = 1 + sent := by
  have edge : fillEdge (sentSender cfg x now stream n 0) =
      min (x.base.toNat + x.win.toNat) ((BitVec.ofNat 32 n).toNat + 1) := rfl
  have one : x.base.toNat = 1 := congrArg BitVec.toNat base
  rw [edge, one, ofNat_toNat_u32 (by omega)]
  omega

theorem imagesFrom_sentSender (hn : n ≤ 2 ^ 32 - 3) (hsent : sent ≤ n) :
    imagesFrom (sentSender cfg x now stream n 0) 1 sent = (List.range' 1 sent).map (chunkImage cfg stream) := by
  refine List.map_congr_left fun q hq => ?_
  have := List.mem_range'_1.mp hq
  rw [mapGet_sentSender cfg now stream hn (by omega) (by omega), Option.getD_some]

/-- FillWindow sends the first chunks, as many as the window admits. -/
theorem filledSender_sentSender (base : x.base = 1) (hn : n ≤ 2 ^ 32 - 3) (hsent : sent = min x.win.toNat n) :
    filledSender (sentSender cfg x now stream n 0) now = sentSender cfg x now stream n sent := by
  have next : (sentSender cfg x now stream n 0).next.toNat = 1 := rfl
  have records : freshRecords (sentSender cfg x now stream n 0) now 1 sent =
      (sentSender cfg x now stream n sent).outstanding := by
    refine List.map_congr_left fun q hq => ?_
    have := List.mem_range'_1.mp hq
    rw [mapGet_sentSender cfg now stream hn (by omega) (by omega), Option.getD_some]
  rw [filledSender, next, fillEdge_sentSender cfg now stream base hn hsent, Nat.add_sub_cancel_left, records,
    Nat.max_eq_right (Nat.le_add_right 1 sent)]
  rfl

end

/-- Settles O19: the command's refusals; then LoopHead on the loaded stream, which for N = 0 ends at once
(`loopHead_done`) and otherwise fills the window (`loopHead_fill`). -/
theorem sndSendLoadsAndSends : Obligations.SndSendLoadsAndSends := by
  refine ⟨fun s stream => ⟨fun h => execSndSend_refused h stream, fun he hl hm long =>
    execSndSend_tooLong he hl (lt_chunkCount hm long)⟩, ?_⟩
  intro s a stream n sent hi he hl hp enough tight hn hsent image
  have himage : image = chunkImage s.cfg stream := rfl
  clear_value image
  subst himage
  have loads := execSndSend_loads he hl (chunkCount_eq enough tight) hn
  have ready := sendingState_ready stream hi he hl hn
  obtain ⟨-, hs, -⟩ := hi
  obtain ⟨-, -, noStream, base, next⟩ := hs.unloaded he hl
  have start : (sendingState stream n s).snd = sentSender s.cfg s.snd s.now stream n 0 :=
    loadedSender_eq s.cfg s.now stream noStream next hn
  have nNat : (sendingState stream n s).snd.n.toNat = n := ofNat_toNat_u32 (by omega)
  have baseNat : (sendingState stream n s).snd.base.toNat = 1 := congrArg BitVec.toNat base
  refine ⟨s.cfg.sndAddr, loads.trans ?_⟩
  rcases Nat.eq_zero_or_pos n with rfl | pos
  · obtain rfl : sent = 0 := by omega
    rw [loopHead_done (by omega), start]
    simp [sendingState, sentSender, respond, emit]
  · have nextNat : (sentSender s.cfg s.snd s.now stream n 0).next.toNat = 1 := rfl
    have now : (sendingState stream n s).now = s.now := rfl
    rw [loopHead_fill (s := sendingState stream n s) (by omega) hp ready.loaded, start, now, nextNat,
      fillEdge_sentSender s.cfg s.now stream base hn hsent, Nat.add_sub_cancel_left,
      imagesFrom_sentSender s.cfg s.now stream hn (by omega),
      filledSender_sentSender s.cfg s.now stream base hn hsent]
    have hn0 : n ≠ 0 := by omega
    simp [beginWait, sendAll, sendingState, sentSender, respond, emit, hn0]

/-! ### SND_CLOSE -/

/-- The state in which SND_CLOSE sends END: the stream it ends, `n` chunks, is loaded (43 R194). -/
def closingState (n : U32) (s : State) : State :=
  { respond .ok [] s with snd := { s.snd with loaded := true, n := n } }

theorem execSndClose_ok {s : State} {a : Addr} {n : U32} (he : s.snd.state = .established) (ha : s.snd.active = false)
    (hp : s.snd.peer = some a) (hn : n = if s.snd.loaded then s.snd.n else 0) (range : n.toNat + 1 < 2 ^ 32) :
    execSndClose s = .next (beginWait { transmit .snd a (endPacket s.cfg.crc (BitVec.ofNat 32 (n.toNat + 1)))
      (closingState n s) with
        snd := { s.snd with state := .closing, loaded := true, n := n, dlLeft := s.cfg.closeDeadline } }) := by
  have accepted : ¬ (s.snd.state ≠ .established ∨ s.snd.active = true) := by simp [he, ha]
  have send := sendEnd_ok (s := closingState n s) hp range
  cases hl : s.snd.loaded with
  | false =>
    obtain rfl : n = 0 := by simpa [hl] using hn
    simp only [closingState] at send
    simp only [execSndClose, if_neg accepted, respond_snd, hl, Bool.false_eq_true, if_false, send]
    rfl
  | true =>
    obtain rfl : n = s.snd.n := by simpa [hl] using hn
    have same : closingState s.snd.n s = respond .ok [] s := by rw [closingState, ← hl]; rfl
    rw [same] at send ⊢
    simp only [execSndClose, if_neg accepted, respond_snd, hl, if_true, send]
    rw [← hl]
    rfl

theorem execSndClose_refused {s : State} (h : s.snd.state ≠ .established ∨ s.snd.active = true) :
    execSndClose s = .next (respond .state [] s) := if_pos h

/-- Settles O20, from the two answers of the command. -/
theorem sndCloseSendsEnd : Obligations.SndCloseSendsEnd := by
  refine fun s a n => ⟨fun he ha hp hn range => ⟨s.cfg.sndAddr, ?_⟩, fun h => execSndClose_refused h⟩
  refine (execSndClose_ok he ha hp hn range).trans ?_
  simp [beginWait, transmit, putDatagram, closingState, respond, emit]

/-! ### The datagrams that a receptive sender takes -/

/-- `valid_ack` of an ACK packet (43 R201). -/
theorem validAck_ack (s : State) (src : Addr) (p : PacketBody) :
    validAck s.cfg s.snd src (bodyPacket typeAck p) = if AckCounts s src p then some p.seq else none := by
  have ack : (bodyPacket typeAck p).h.type = typeAck := rfl
  by_cases hv : verify s.cfg.crc (bodyPacket typeAck p) = true
  · by_cases hf : s.cfg.addrFilter = true → s.snd.peer = some src
    · have passes : ¬ (s.cfg.addrFilter = true ∧ some src ≠ s.snd.peer) := fun ⟨on, ne⟩ => ne (hf on).symm
      rw [if_pos ⟨hv, hf⟩, validAck, if_neg (by simp [hv]), if_neg passes, if_neg (not_not_intro ack)]
      rfl
    · have stopped : s.cfg.addrFilter = true ∧ some src ≠ s.snd.peer := (Classical.not_imp.mp hf).imp id Ne.symm
      rw [if_neg fun h => hf h.2, validAck, if_pos stopped, ite_self]
  · rw [if_neg fun h => hv h.1, validAck, if_pos (Bool.not_eq_true _ ▸ hv)]

theorem exec_ack_counts {s : State} {src : Addr} {p : PacketBody} (hr : sndReceptive s.snd = true)
    (hc : AckCounts s src p) : exec (.ack .snd src p) s = answer (sndTake (some p.seq) s) := by
  have taken := validAck_ack s src p
  rw [if_pos hc] at taken
  simp only [exec, execAck, offerPacket, receptive, hr, if_true, taken]

/-- Settles O21: the ACK counts, and in Handshaking its number is the one looked for. -/
theorem ackOneEstablishes : Obligations.AckOneEstablishes := by
  intro s src p hs hc hseq
  rw [exec_ack_counts (sndReceptive_iff.mpr (.inl hs)) hc]
  simp only [sndTake, hs, hseq, if_true, answer_ok]
  rfl

/-- Settles O23, as O21, in Closing. -/
theorem ackOfEndCloses : Obligations.AckOfEndCloses := by
  intro s src p hs hc hseq
  rw [exec_ack_counts (sndReceptive_iff.mpr (.inr (.inr hs))) hc]
  simp only [sndTake, hs, Option.map_some, hseq, if_true, answer_ok]
  rfl

theorem sndTake_advances {s : State} {q : U32} (hs : s.snd.state = .established) (hq : s.snd.base.toNat < q.toNat) :
    sndTake (some q) s = loopHead { s with snd := advancedSender s.snd q } := by
  simp only [sndTake, hs]
  exact if_pos hq

/-- Settles O22: the ACK moves the window (`advancedSender`), and LoopHead ends the loop or fills the window. -/
theorem cumulativeAckAdvancesWindow : Obligations.CumulativeAckAdvancesWindow := by
  intro s a src p next hi hinv hs ha hp hc hq hnext hhi kept
  obtain ⟨-, hsnd, -⟩ := hinv
  obtain ⟨-, -, loaded, -⟩ := hsnd.sending hs ha
  have loaded' := advancedSender_loaded loaded hq
  have nextNat : (advancedSender s.snd p.seq).next.toNat = next := (umax_toNat _ _).trans hnext.symm
  have edge : fillEdge (advancedSender s.snd p.seq) = hi := hhi.symm
  rw [exec_ack_counts (sndReceptive_iff.mpr (.inr (.inl ⟨hs, ha⟩))) hc, sndTake_advances hs hq]
  refine ⟨fun hn => ?_, fun hn => ⟨s.cfg.sndAddr, ?_⟩⟩
  · have nextEq : (advancedSender s.snd p.seq).next = BitVec.ofNat 32 next := by
      rw [← nextNat, BitVec.ofNat_toNat, BitVec.setWidth_eq]
    rw [loopHead_done hn, ← nextEq]
    rfl
  · rw [loopHead_fill (s := { s with snd := advancedSender s.snd p.seq }) hn hp loaded',
      filledSender, nextNat, edge]
    rfl

/-- An Established sender is receptive in the send loop only (43 R180). -/
theorem active_of_receptive {x : Sender} (hs : x.state = .established) (hr : sndReceptive x = true) :
    x.active = true := by simpa [sndReceptive, hs] using hr

/-- The numbers that the sender's state does not look for (43 R184, R190, R196). -/
def AckIgnored (x : Sender) (q : U32) : Prop :=
  (x.state = .handshaking ∧ q ≠ 1) ∨ (x.state = .established ∧ q.toNat ≤ x.base.toNat) ∨
    (x.state = .closing ∧ q.toNat ≠ x.n.toNat + 2)

theorem sndTake_ignored {s : State} {q : U32} (h : SenderOk s.cfg.crc s.snd s.now) (hr : sndReceptive s.snd = true)
    (hq : AckIgnored s.snd q) : sndTake (some q) s = .ok (beginWait s) := by
  rcases hq with ⟨hs, hne⟩ | ⟨hs, hle⟩ | ⟨hs, hne⟩
  · simp only [sndTake, hs, Option.some.injEq, hne, if_false]
  · have active := active_of_receptive hs hr
    simp only [sndTake, hs]
    rw [if_neg (Nat.not_lt.mpr hle), loopHead_full h hs active]
  · simp [sndTake, hs, hne]

/-- Settles O24: three of the packet types are no ACK, and so is one that does not count (`sndTake_none`); of those
that count, the ones that the state does not look for are ignored too. -/
theorem otherDatagramsRestartTheWait : Obligations.OtherDatagramsRestartTheWait := by
  intro s src p i hi hr hcases
  obtain ⟨-, hs, -⟩ := hi
  have noAck : ∀ t b rule, t ≠ typeAck → offerPacket .snd src b (bodyPacket t p) rule s = .next (beginWait s) :=
    fun t b rule ht => offerPacket_snd_none b rule hs hr (validAck_none_of_type ht s.cfg s.snd src)
  rcases hcases with rfl | rfl | rfl | ⟨rfl, hack⟩
  · exact noAck typeStart _ (fun t => .ok (rcvStart src p.seq t)) (by decide)
  · exact noAck typeEnd _ (fun t => rcvEnd src p.seq t) (by decide)
  · exact noAck typeData _ (fun t => .ok (rcvData src p.seq p.payload t)) (by decide)
  · by_cases hc : AckCounts s src p
    · rw [exec_ack_counts hr hc, sndTake_ignored hs hr (hack.resolve_left (not_not_intro hc))]
      rfl
    · exact offerPacket_snd_none _ (fun t => .ok t) hs hr ((validAck_ack s src p).trans (if_neg hc))

/-! ### TICK -/

theorem step_tick {s s1 : State} (h : fetch s = some (.tick, s1)) : step s = answer (tick s1) := step_other h rfl

/-- The timers of a receptive sender after a TICK, before an expiry (60 R310, R311). -/
def countedTick (s : State) : State :=
  { s with
    now := s.now + 1
    snd := { s.snd with
      waitLeft := s.snd.waitLeft - 1
      dlLeft := if s.snd.state = .closing then s.snd.dlLeft - 1 else s.snd.dlLeft } }

/-- A TICK at a receptive sender whose deadline does not expire. -/
theorem tick_receptive {s : State} (hr : sndReceptive s.snd = true) (hw : 1 ≤ s.snd.waitLeft)
    (hd : s.snd.state = .closing → 2 ≤ s.snd.dlLeft) :
    tick s = if s.snd.waitLeft = 1 then waitExpiry (countedTick s) else .ok (countedTick s) := by
  have wait : s.snd.waitLeft ≠ 0 := by omega
  have last : s.snd.waitLeft - 1 = 0 ↔ s.snd.waitLeft = 1 := by omega
  by_cases hs : s.snd.state = .closing
  · have deadline := hd hs
    simp only [tick, hr, if_true, if_pos hs, countedTick]
    rw [if_neg (by omega), if_neg (by omega), tickWait, if_neg wait]
    simp only [last]
  · simp only [tick, hr, if_true, if_neg hs, tickWait, if_neg wait, last, countedTick]

/-- A TICK on which the deadline expires: the wait, whatever it stands at, is not looked at (60 R312). -/
theorem tick_deadline {s : State} (hs : s.snd.state = .closing) (hd : s.snd.dlLeft = 1) :
    tick s = .ok (deadlineExpiry { s with now := s.now + 1, snd := { s.snd with dlLeft := 0 } }) := by
  simp [tick, sndReceptive_iff.mpr (.inr (.inr hs)), hs, hd]

theorem tick_expires {s : State} (hr : sndReceptive s.snd = true) (hw : s.snd.waitLeft = 1)
    (hd : s.snd.state = .closing → 2 ≤ s.snd.dlLeft) : tick s = waitExpiry (countedTick s) := by
  rw [tick_receptive hr hw.ge hd, if_pos hw]

/-! ### The expiries -/

theorem waitExpiry_handshaking {s : State} {a : Addr} (hs : s.snd.state = .handshaking) (hp : s.snd.peer = some a) :
    waitExpiry s = .ok (beginWait (transmit .snd a (startPacket s.cfg.crc 0) s)) := by
  simp only [waitExpiry, hs, sndTx_some hp]

/-- Settles O29: the wait expires (`tick_expires`), and START is sent again. -/
theorem handshakeRetriesStart : Obligations.HandshakeRetriesStart := by
  intro s s1 a hf hs hw hp
  have notClosing : s1.snd.state ≠ .closing := by rw [hs]; decide
  refine ⟨s1.cfg.sndAddr, ?_⟩
  rw [step_tick hf, tick_expires (sndReceptive_iff.mpr (.inl hs)) hw fun hc => absurd hc notClosing,
    waitExpiry_handshaking (s := countedTick s1) hs hp, countedTick, if_neg notClosing]
  rfl

/-- The images of the outstanding numbers, in the order of the outstanding set. -/
theorem imagesFrom_outstanding {x : Sender} {q c : Nat} (h : keyNats x.outstanding = List.range' q c) :
    imagesFrom x q c = x.outstanding.map (fun e => (mapGet x.pkt e.1).getD []) := by
  rw [imagesFrom, ← h, keyNats, List.map_map]
  refine List.map_congr_left fun e _ => ?_
  rw [Function.comp, BitVec.ofNat_toNat, BitVec.setWidth_eq]

/-- Settles O30: the wait expires, and go-back-N sends the window (`waitExpiry_sending`), whose numbers are the keys
of the outstanding set. -/
theorem goBackNResendsTheWindow : Obligations.GoBackNResendsTheWindow := by
  intro s s1 a hi hf hs ha hw hp resent
  obtain ⟨-, hsnd, -⟩ := hi
  obtain ⟨-, -, loaded, hb, full, -⟩ := (hsnd.mono (Nat.le_succ s1.now)).sending hs ha
  have ⟨_, _, _, _, _, ⟨keys, _⟩, _⟩ := loaded
  have notClosing : s1.snd.state ≠ .closing := by rw [hs]; decide
  have images : imagesFrom (countedTick s1).snd (countedTick s1).snd.base.toNat
      ((countedTick s1).snd.next.toNat - (countedTick s1).snd.base.toNat) = resent := imagesFrom_outstanding keys
  refine ⟨s1.cfg.sndAddr, ?_⟩
  rw [step_tick hf, tick_expires (sndReceptive_iff.mpr (.inr (.inl ⟨hs, ha⟩))) hw fun hc => absurd hc notClosing,
    waitExpiry_sending (s := countedTick s1) hs hp loaded hb full, images, countedTick, if_neg notClosing]
  rfl

/-- Settles O31: the TICK on which only the wait expires, and the one on which the deadline does. -/
theorem closingTimers : Obligations.ClosingTimers := by
  intro s s1 a hf hs hp hn
  refine ⟨fun hw hd => ⟨s1.cfg.sndAddr, ?_⟩, fun hd => ?_⟩
  · rw [step_tick hf, tick_expires (sndReceptive_iff.mpr (.inr (.inr hs))) hw fun _ => hd,
      waitExpiry_closing (s := countedTick s1) hs hp hn, countedTick, if_pos hs]
    rfl
  · rw [step_tick hf, tick_deadline hs hd]
    rfl

/-! ### A short close deadline -/

/-- Taking a TICK leaves the channel as it is: only a delivery takes a datagram out of it. -/
theorem fetch_tick_channel {s s1 : State} (h : fetch s = some (.tick, s1)) : s1.channel = s.channel := by
  unfold fetch at h
  split at h
  · cases h
  · rename_i ev rest _
    have resolved := Option.some.inj h
    unfold resolveDelivery at resolved
    split at resolved
    · split at resolved
      · cases resolved
      · cases resolved
    · cases resolved
      rfl

/-- The close deadline lies neither beyond the receive wait nor beyond its parameter. -/
def DeadlineFirst (s : State) : Prop :=
  s.snd.state = .closing → s.snd.dlLeft ≤ s.snd.waitLeft ∧ s.snd.dlLeft ≤ s.cfg.closeDeadline

/-- The send loop stays in Established. -/
theorem loopHead_state {s t : State} (ready : LoopReady s) (h : loopHead s = .ok t) :
    t.snd.state = .established := by
  by_cases hb : s.snd.base.toNat ≤ s.snd.n.toNat
  · obtain ⟨a, hp⟩ := Option.isSome_iff_exists.mp ready.connected.1
    rw [loopHead_fill hb hp ready.loaded] at h
    cases h
    exact ready.state
  · rw [loopHead_done (Nat.not_le.mp hb)] at h
    cases h
    exact ready.state

theorem advancedSender_ready {s : State} {q : U32} (hi : CoreInv s) (hs : s.snd.state = .established)
    (ha : s.snd.active = true) (hq : s.snd.base.toNat < q.toNat) :
    LoopReady { s with snd := advancedSender s.snd q } := by
  obtain ⟨⟨-, -, timeout, -⟩, hsnd, -⟩ := hi
  obtain ⟨connected, unacked, loaded, -⟩ := hsnd.sending hs ha
  exact ⟨timeout, hs, connected, unacked, ha, advancedSender_loaded loaded hq⟩

/-- No datagram takes the sender out of Established. -/
theorem sndTake_established {a : Option U32} {s t : State} (hi : CoreInv s) (hr : sndReceptive s.snd = true)
    (hs : s.snd.state = .established) (h : sndTake a s = .ok t) : t.snd.state = .established := by
  have ⟨_, hsnd, _⟩ := hi
  have active := active_of_receptive hs hr
  have waits : sndTake a s = .ok (beginWait s) → t.snd.state = .established := fun e => by
    cases e.symm.trans h
    exact hs
  cases a with
  | none => exact waits (sndTake_none hsnd hr)
  | some q =>
    by_cases hq : s.snd.base.toNat < q.toNat
    · rw [sndTake_advances hs hq] at h
      exact loopHead_state (advancedSender_ready hi hs active hq) h
    · exact waits (sndTake_ignored hsnd hr (.inr (.inl ⟨hs, Nat.not_lt.mp hq⟩)))

/-- No TICK takes the sender out of Established while it sends. -/
theorem tick_established {s t : State} (hi : CoreInv s) (hr : sndReceptive s.snd = true)
    (hs : s.snd.state = .established) (h : tick s = .ok t) : t.snd.state = .established := by
  obtain ⟨-, hsnd, -⟩ := hi
  have active := active_of_receptive hs hr
  obtain ⟨⟨hp, -⟩, -, loaded, hb, full, wait⟩ := (hsnd.mono (Nat.le_succ s.now)).sending hs active
  obtain ⟨a, hp⟩ := Option.isSome_iff_exists.mp hp
  have notClosing : s.snd.state ≠ .closing := by rw [hs]; decide
  rw [tick_receptive hr wait fun hc => absurd hc notClosing] at h
  split at h
  · rw [waitExpiry_sending (s := countedTick s) hs hp loaded hb full] at h
    cases h
    exact hs
  · cases h
    exact hs

theorem SenderOk.deadline_running {crc : Crc} {x : Sender} {now : Nat} (h : SenderOk crc x now)
    (hs : x.state = .closing) : 1 ≤ x.dlLeft := by
  obtain ⟨-, -, -, closing, -⟩ := h
  obtain ⟨-, -, -, -, -, -, running⟩ := closing hs
  exact running

/-- In Closing, with the deadline not beyond the wait, a TICK counts both down until the deadline expires. -/
theorem tick_closing {s : State} (hs : s.snd.state = .closing) (hd : 1 ≤ s.snd.dlLeft)
    (hw : s.snd.dlLeft ≤ s.snd.waitLeft) :
    tick s = .ok (if s.snd.dlLeft = 1 then
      deadlineExpiry { s with now := s.now + 1, snd := { s.snd with dlLeft := 0 } } else countedTick s) := by
  by_cases last : s.snd.dlLeft = 1
  · rw [tick_deadline hs last, if_pos last]
  · rw [tick_receptive (sndReceptive_iff.mpr (.inr (.inr hs))) (by omega) (by omega), if_neg (by omega), if_neg last]

theorem DeadlineFirst.of_ne {t : State} (h : t.snd.state ≠ .closing) : DeadlineFirst t := fun hc => absurd hc h

theorem DeadlineFirst.of_established {t : State} (h : t.snd.state = .established) : DeadlineFirst t :=
  .of_ne (by rw [h]; decide)

theorem DeadlineFirst.of_closed {t : State} (h : t.snd.state = .closed) : DeadlineFirst t :=
  .of_ne (by rw [h]; decide)

/-- The one edge into Closing comes from Established (42 R161). -/
theorem ne_closing_of_edge {c d : ConnState} (h : sndEdge c d = true) (idle : c = .idle ∨ c = .handshaking) :
    d ≠ .closing := by
  rintro rfl
  rcases idle with rfl | rfl
  · cases h
  · cases h

/-- An instruction that is not for the sender leaves it alone. -/
theorem exec_snd_of_not_forSender {i : Instr} {s t : State} (hi : forSender i = false) (h : exec i s = .next t) :
    t.snd = s.snd := by
  cases hr : forReceiver i with
  | true => exact (exec_forReceiver_frame hr h).1
  | false =>
    have oneOfTwo : ∀ e : Engine, (e == .snd) = false → (e == .rcv) ≠ false := fun e => by cases e <;> decide
    have command : isCommand i = true := by
      cases i with
      | start e a p => exact absurd hr (oneOfTwo e hi)
      | endPkt e a p => exact absurd hr (oneOfTwo e hi)
      | data e a p => exact absurd hr (oneOfTwo e hi)
      | ack e a p => exact absurd hr (oneOfTwo e hi)
      | _ => rfl
    obtain ⟨c, r, n, he⟩ := exec_pure command hi hr s
    cases he.symm.trans h
    rfl

/-- SND_SEND stays in Established. -/
theorem execSndSend_established {stream : Bytes} {s t : State} (hi : CoreInv s) (hs : s.snd.state = .established)
    (h : execSndSend stream s = .next t) : t.snd.state = .established := by
  cases hl : s.snd.loaded with
  | true =>
    rw [execSndSend_refused (.inr hl)] at h
    cases h
    exact hs
  | false =>
    by_cases hn : chunkCount stream.length s.cfg.maxPayload ≤ 2 ^ 32 - 3
    · rw [execSndSend_loads hs hl rfl hn] at h
      exact loopHead_state (sendingState_ready stream hi hs hl hn) (answer_next h)
    · rw [execSndSend_tooLong hs hl (Nat.not_le.mp hn)] at h
      cases h
      exact hs

/-- SND_CLOSE loads both timers at their parameters. -/
theorem execSndClose_deadlineFirst {s t : State} (hi : CoreInv s) (hle : s.cfg.closeDeadline ≤ s.cfg.rxTimeout)
    (hs : s.snd.state = .established) (h : execSndClose s = .next t) : DeadlineFirst t := by
  cases ha : s.snd.active with
  | true =>
    rw [execSndClose_refused (.inr ha)] at h
    cases h
    exact .of_established hs
  | false =>
    have ⟨_, ⟨_, _, established, _⟩, _⟩ := hi
    obtain ⟨⟨hp, -⟩, -, stream⟩ := established hs
    obtain ⟨a, hp⟩ := Option.isSome_iff_exists.mp hp
    have range : (if s.snd.loaded then s.snd.n else 0).toNat + 1 < 2 ^ 32 := by
      rcases stream with ⟨⟨unloaded, -⟩, -⟩ | ⟨⟨loaded, hn, -⟩, -⟩
      · rw [unloaded, if_neg Bool.false_ne_true]
        decide
      · rw [if_pos loaded]
        omega
    rw [execSndClose_ok hs ha hp rfl range] at h
    cases h
    exact fun _ => ⟨hle, Nat.le_refl _⟩

/-- From Established, only SND_CLOSE goes to Closing. -/
theorem exec_deadlineFirst {i : Instr} {s t : State} (hi : CoreInv s) (hle : s.cfg.closeDeadline ≤ s.cfg.rxTimeout)
    (hs : s.snd.state = .established) (h : exec i s = .next t) : DeadlineFirst t := by
  cases hf : forSender i with
  | false => exact .of_established (by rw [exec_snd_of_not_forSender hf h, hs])
  | true =>
    rcases forSender_cases hf with ⟨a, w, rfl⟩ | ⟨b, rfl⟩ | rfl | ⟨src, hp⟩
    · have refused : exec (.sndConnect a w) s = .next (respond .state [] s) := if_pos (by rw [hs]; decide)
      cases refused.symm.trans h
      exact .of_established hs
    · exact .of_established (execSndSend_established hi hs h)
    · exact execSndClose_deadlineFirst hi hle hs h
    · obtain ⟨b, p, he⟩ := exec_packet hp
      rw [he, offerPacket] at h
      split at h
      · rename_i hr
        exact .of_established (sndTake_established hi hr hs (answer_next h))
      · cases h
        exact .of_established hs

theorem sndTake_deadlineFirst {a : Option U32} {s t : State} (hi : CoreInv s) (hr : sndReceptive s.snd = true)
    (hle : s.cfg.closeDeadline ≤ s.cfg.rxTimeout) (d : DeadlineFirst s) (h : sndTake a s = .ok t) :
    DeadlineFirst t := by
  rcases sndReceptive_iff.mp hr with hs | ⟨hs, -⟩ | hs
  · exact .of_ne (ne_closing_of_edge (sndTake_edge hi hr h) (.inr hs))
  · exact .of_established (sndTake_established hi hr hs h)
  · obtain ⟨-, bound⟩ := d hs
    simp only [sndTake, hs, Except.ok.injEq] at h
    split at h
    · subst h
      exact .of_closed rfl
    · subst h
      exact fun _ => ⟨bound.trans hle, bound⟩

theorem tick_deadlineFirst {s t : State} (hi : CoreInv s) (hr : sndReceptive s.snd = true) (d : DeadlineFirst s)
    (h : tick s = .ok t) : DeadlineFirst t := by
  rcases sndReceptive_iff.mp hr with hs | ⟨hs, -⟩ | hs
  · exact .of_ne (ne_closing_of_edge (tick_edge hi h) (.inr hs))
  · exact .of_established (tick_established hi hr hs h)
  · obtain ⟨-, hsnd, -⟩ := hi
    obtain ⟨first, bound⟩ := d hs
    rw [tick_closing hs (hsnd.deadline_running hs) first] at h
    split at h
    · cases h
      exact .of_closed rfl
    · cases h
      refine fun _ => ?_
      simp only [countedTick, if_pos hs]
      omega

/-- In Closing, with the deadline first, no TICK sends. -/
theorem tick_closing_channel {s t : State} (hi : CoreInv s) (hs : s.snd.state = .closing) (d : DeadlineFirst s)
    (h : tick s = .ok t) : t.channel = s.channel := by
  obtain ⟨-, hsnd, -⟩ := hi
  rw [tick_closing hs (hsnd.deadline_running hs) (d hs).1] at h
  cases h
  split <;> rfl

theorem Fetched.deadlineFirst {s s1 : State} (f : Fetched s s1) (d : DeadlineFirst s) : DeadlineFirst s1 := by
  simpa only [DeadlineFirst, f.snd, f.cfg] using d

/-- Settles O32: of what a step can do to the sender (`step_snd`), each keeps the deadline first, and so a TICK in
Closing finds it first. -/
theorem endSentOnceWhenDeadlineIsShort : Obligations.EndSentOnceWhenDeadlineIsShort := by
  intro s t hi hle d h
  refine ⟨?_, fun s1 hf hs => ?_⟩
  · cases step_snd h with
    | kept x =>
      rw [x, step_cfg h]
      exact d
    | reset _ x => exact DeadlineFirst.of_ne (by rw [x]; decide)
    | command s1 i f st h =>
      rw [← f.snd] at st
      rcases st with idle | established
      · exact DeadlineFirst.of_ne (ne_closing_of_edge (exec_snd_edge (f.inv hi) h) (.inl idle))
      · exact exec_deadlineFirst (f.inv hi) (f.cfg ▸ hle) established h
    | took s1 a f r h =>
      exact sndTake_deadlineFirst (f.inv hi) (f.snd ▸ r) (f.cfg ▸ hle) (f.deadlineFirst d) h
    | ticked s1 f r h => exact tick_deadlineFirst (f.inv hi) (f.snd ▸ r) (f.deadlineFirst d) h
  · have f := fetch_frame hf
    rw [step_tick hf] at h
    exact (tick_closing_channel (f.inv hi) (f.snd ▸ hs) (f.deadlineFirst d) (answer_next h)).trans
      (fetch_tick_channel hf)

/-! ### What the sender transmits -/

@[simp] theorem rd32_makePacket_type (crc : Crc) (t q : U32) (p : Bytes) : rd32 (makePacket crc t q p) 0 = t :=
  congrArg Header.type (readHeader_makePacket crc t q p)

/-- Every image is a DATA packet (10 R28). -/
theorem SenderOk.images {crc : Crc} {x : Sender} {now : Nat} (h : SenderOk crc x now) :
    ∀ e ∈ x.pkt, e.2 = dataPacket crc e.1 (e.2.drop 16) := by
  obtain ⟨idle, handshaking, established, closing, closed⟩ := h
  have none_of : x.pkt = [] → ∀ e ∈ x.pkt, e.2 = dataPacket crc e.1 (e.2.drop 16) := fun hx => by simp [hx]
  cases hs : x.state with
  | idle => exact none_of (by rw [idle hs]; rfl)
  | handshaking =>
    obtain ⟨-, ⟨-, -, -, noPkt, -⟩, -⟩ := handshaking hs
    exact none_of noPkt
  | established =>
    obtain ⟨-, -, ⟨⟨-, -, -, noPkt, -⟩, -⟩ | ⟨⟨-, -, -, images, -⟩, -⟩⟩ := established hs
    · exact none_of noPkt
    · exact images
  | closing =>
    obtain ⟨-, -, ⟨-, -, -, images, -⟩, -⟩ := closing hs
    exact images
  | closed =>
    obtain ⟨-, ⟨-, -, -, images, -⟩, -⟩ := closed hs
    exact images

/-- START, END and DATA are no ACK (30 R82). -/
theorem SenderPacket.type_ne_ack {crc : Crc} {x : Sender} {now : Nat} {b : Bytes} (hx : SenderOk crc x now)
    (h : SenderPacket crc x b) : rd32 b 0 ≠ typeAck := by
  rcases h with rfl | ⟨q, -, -, hq⟩ | rfl
  · rw [startPacket, rd32_makePacket_type]
    decide
  · have data : b = dataPacket crc q (b.drop 16) := hx.images _ (mem_of_mapGet hq)
    rw [data, dataPacket, rd32_makePacket_type]
    decide
  · rw [endPacket, rd32_makePacket_type]
    decide

/-- What the sender transmits between `s` and `t` is what it may transmit, to its peer (43 R182). -/
def SenderTransmits (s t : State) : Prop :=
  ∃ l, t.outputs = s.outputs ++ l ∧
    ∀ b a, .txSnd b a ∈ l → t.snd.peer = some a ∧ SenderPacket t.cfg.crc t.snd b

theorem SenderTransmits.silent {s t : State} (h : t.outputs = s.outputs) : SenderTransmits s t :=
  ⟨[], by simp [h], by simp⟩

theorem SndKeeps.transmits {s t : State} (k : SndKeeps s t) : SenderTransmits s t := by
  obtain ⟨l, hl, allowed⟩ := k.outs
  exact ⟨l, hl, fun b a ho => allowed _ ho⟩

theorem SndCmdKeeps.transmits {s t : State} (k : SndCmdKeeps s t) : SenderTransmits s t := by
  obtain ⟨c, r, l, hl, allowed⟩ := k.outs
  refine ⟨.resp c r :: l, hl, fun b a ho => ?_⟩
  rcases List.mem_cons.mp ho with e | ho
  · cases e
  · exact allowed _ ho

theorem RcvEffect.transmits {src : Addr} {p : Packet} {s t : State} (k : RcvEffect src p s t) :
    SenderTransmits s t := by
  cases k with
  | same _ o =>
    rcases o with o | ⟨b, o⟩
    · exact .silent o
    · exact ⟨_, o, by simp⟩
  | bound _ _ o =>
    obtain ⟨b, o⟩ := o
    exact ⟨_, o, by simp⟩
  | raised _ _ _ _ _ o => exact ⟨_, o, by simp⟩
  | admitted _ _ _ _ _ _ _ _ _ _ o => exact ⟨_, o, by simp⟩
  | finished _ _ _ o => exact ⟨_, o, by simp⟩

theorem ExecKeeps.transmits {s t : State} (k : ExecKeeps s t) : SenderTransmits s t := by
  cases k with
  | snd k => exact k.transmits
  | sndCmd k => exact k.transmits
  | rcv src p r v f k => exact k.transmits
  | rcvCmd k =>
    obtain ⟨c, r, o⟩ := k.outs
    exact ⟨_, o, by simp⟩
  | none k o =>
    rcases o with o | ⟨c, r, o⟩
    · exact .silent o
    · exact ⟨_, o, by simp⟩

theorem Fetched.transmits {s s1 t : State} (f : Fetched s s1) (h : SenderTransmits s1 t) : SenderTransmits s t := by
  simpa only [SenderTransmits, f.outputs] using h

theorem exec_transmits {i : Instr} {s t : State} (hi : CoreInv s) (h : exec i s = .next t) : SenderTransmits s t := by
  obtain ⟨u, hu, k⟩ := exec_keeps i hi
  cases hu.symm.trans h
  exact k.transmits

theorem command_transmits {s s1 t : State} {w : U32} {ops : List Value} (hi : CoreInv s1)
    (hf : fetch s = some (.cmd w ops, s1)) (h : step s = .next t) : SenderTransmits s1 t := by
  cases hd : decode (.cmd w ops) with
  | instr i => exact exec_transmits hi (step_instr hf hd ▸ h)
  | rejected r =>
    rw [step_other hf hd] at h
    cases h
    exact ⟨[.resp .illegal []], rfl, by simp⟩

@[simp] theorem resetTarget_outputs (g : Target) (s : State) : (resetTarget g s).outputs = s.outputs := by
  cases g <;> rfl

theorem step_transmits {s t : State} (hi : CoreInv s) (h : step s = .next t) : SenderTransmits s t := by
  have inv : ∀ {ev s1}, fetch s = some (ev, s1) → CoreInv s1 := fun hf => (fetch_frame hf).inv hi
  cases step_way h with
  | none e => exact .silent (by rw [e])
  | cmd s1 w ops hf k => exact (fetch_frame hf).transmits (command_transmits (inv hf) hf h)
  | left s1 e b src hf r e' => exact (fetch_frame hf).transmits (.silent (by rw [e', leaveInChannel_outputs]))
  | snd s1 b src a hf r e =>
    obtain ⟨⟨-, -, timeout, -⟩, hs, -⟩ := inv hf
    obtain ⟨u, hu, k⟩ := sndTake_keeps a timeout hs r
    cases hu.symm.trans e
    exact (fetch_frame hf).transmits k.transmits
  | rcv s1 b src p hf hd r v f k => exact (fetch_frame hf).transmits k.transmits
  | malformed s1 b src hf hd r e => exact (fetch_frame hf).transmits (.silent (by rw [e]))
  | tick s1 hf e =>
    obtain ⟨⟨-, -, timeout, -⟩, hs, -⟩ := inv hf
    obtain ⟨u, hu, k⟩ := tick_keeps timeout hs
    cases hu.symm.trans e
    exact (fetch_frame hf).transmits k.transmits
  | reset s1 g hf e => exact (fetch_frame hf).transmits (.silent (by rw [e, resetTarget_outputs]))
  | channel s1 a hf e =>
    obtain ⟨l, hl⟩ := channelAct_frame a s1
    exact (fetch_frame hf).transmits (.silent (by rw [e, hl]))

/-- Settles O58: what a step lets the sender transmit (`step_transmits`), and its packets are no ACKs. -/
theorem senderTransmitsOnlyItsPackets : Obligations.SenderTransmitsOnlyItsPackets := by
  intro s t b a hi h ho
  obtain ⟨l, hl, allowed⟩ := step_transmits hi h
  rw [hl, List.drop_left] at ho
  obtain ⟨peer, packet⟩ := allowed b a ho
  obtain ⟨-, hs, -⟩ := stepKeepsInvariant s t hi h
  exact ⟨peer, packet.type_ne_ack hs, packet⟩

end Sys2Proof.Machine
end

section
/-! PROOFS. The statements of 44_receiver.md: the receiver's two commands, the packets that a receptive receiver takes,
and that no other address reaches a bound one. -/

namespace Sys2Proof.Machine

/-! ### Commands -/

/-- Settles O33: the command's one condition, and its complement. -/
theorem rcvBindRecordsTheAddress : Obligations.RcvBindRecordsTheAddress := by
  refine fun s a => ⟨fun idle notListening noFault => ?_, fun refused => if_pos refused⟩
  exact if_neg (by simp [idle, notListening, noFault])

/-- Settles O34: the condition of `E_STATE`, its complement, and there the window. -/
theorem rcvAcceptListens : Obligations.RcvAcceptListens := by
  refine fun s w => ⟨fun idle notListening named noFault => ?_, fun refused => if_pos refused⟩
  have accepted : ¬ (s.rcv.state ≠ .idle ∨ s.rcv.listening = true ∨ s.rcv.localAddr = none ∨ s.rcv.fault ≠ none) := by
    simp [idle, notListening, noFault, Option.isSome_iff_ne_none.mp named]
  exact ⟨fun hw => (if_neg accepted).trans (if_neg hw), fun hw => (if_neg accepted).trans (if_pos hw)⟩

/-! ### A packet that a receptive receiver takes -/

section

variable {s : State} {src : Addr}

/-- A checksum-valid packet is given to the rule of its type (44 R243). -/
theorem offerPacket_rcv_valid {b : Bytes} {p : Packet} {rule : State → Eff} (hr : rcvReceptive s.rcv = true)
    (hv : verify s.cfg.crc p = true) : offerPacket .rcv src b p rule s = answer (rule s) := by
  rw [offerPacket, if_pos (show receptive .rcv s = true from hr)]
  simp only [hv, if_true]

/-- One that fails `verify` reaches no rule (44 R244). -/
theorem offerPacket_rcv_mismatch {b : Bytes} {p : Packet} {rule : State → Eff} (hr : rcvReceptive s.rcv = true)
    (hv : verify s.cfg.crc p = false) : offerPacket .rcv src b p rule s = .next (rcvMismatch src s) := by
  rw [offerPacket, if_pos (show receptive .rcv s = true from hr)]
  simp only [hv, Bool.false_eq_true, if_false, answer_ok]

theorem exec_start_valid {p : PacketBody} (hr : rcvReceptive s.rcv = true)
    (hv : verify s.cfg.crc (bodyPacket typeStart p) = true) :
    exec (.start .rcv src p) s = .next (rcvStart src p.seq s) :=
  offerPacket_rcv_valid (rule := fun t => .ok (rcvStart src p.seq t)) hr hv

theorem exec_end_valid {p : PacketBody} (hr : rcvReceptive s.rcv = true)
    (hv : verify s.cfg.crc (bodyPacket typeEnd p) = true) :
    exec (.endPkt .rcv src p) s = answer (rcvEnd src p.seq s) :=
  offerPacket_rcv_valid hr hv

theorem exec_data_valid {p : PacketBody} (hr : rcvReceptive s.rcv = true)
    (hv : verify s.cfg.crc (bodyPacket typeData p) = true) :
    exec (.data .rcv src p) s = .next (rcvData src p.seq p.payload s) :=
  offerPacket_rcv_valid (rule := fun t => .ok (rcvData src p.seq p.payload t)) hr hv

/-- `tx(src, ACK(q))` as the one event and the one datagram that it is, from the receiver's address. -/
theorem next_rcvAck {x : Res} {q : U32} (h : x = .next (rcvAck src q s)) :
    ∃ own : Addr, x = .next { s with
      outputs := s.outputs ++ [.txRcv (ackPacket s.cfg.crc q) src]
      channel := s.channel ++ [⟨src, own, ackPacket s.cfg.crc q⟩] } := ⟨engineAddr .rcv s, h⟩

end

/-- Settles O39: an ACK has no rule at the receiver. -/
theorem ackAtTheReceiverIsDropped : Obligations.AckAtTheReceiverIsDropped :=
  fun _ _ _ hr hv => offerPacket_rcv_valid hr hv

/-! ### START -/

/-- Settles O35: the rule for START in the two receptive states. -/
theorem startAtTheReceiver : Obligations.StartAtTheReceiver := by
  intro s src p hr hv
  rw [exec_start_valid hr hv]
  refine ⟨fun idle zero => ?_, fun idle other => ?_, fun est peer => next_rcvAck ?_, fun est stranger => ?_⟩
  · refine ⟨engineAddr .rcv s, ?_⟩
    simp only [rcvStart, idle, zero, if_true]
    rfl
  · simp only [rcvStart, idle, other, if_false]
  · simp only [rcvStart, est, peer, if_true]
  · simp only [rcvStart, est, stranger, if_false]

/-! ### END -/

theorem ofNat_toNat_succ (v : U32) : BitVec.ofNat 32 (v.toNat + 1) = v + 1 := by
  rw [BitVec.ofNat_add, BitVec.ofNat_toNat, BitVec.setWidth_eq]
  rfl

theorem rcvEnd_finishes {s : State} {src : Addr} {q : U32} (est : s.rcv.state = .established)
    (peer : s.rcv.peer = some src) (expected : q = s.rcv.nes) (range : s.rcv.nes.toNat + 1 < 2 ^ 32) :
    rcvEnd src q s = .ok { emit (.deliver s.rcv.out src) (rcvAck src (s.rcv.nes + 1) s) with
      rcv := { s.rcv with delivered := true, state := .closed, listening := false, buf := [] } } := by
  rw [rcvEnd, if_pos ⟨est, peer, expected⟩, rcvFinish, narrow_ok range, ofNat_toNat_succ]
  rfl

theorem rcvEnd_ignored {s : State} {src : Addr} {q : U32}
    (h : s.rcv.state = .idle ∨ s.rcv.peer ≠ some src ∨ q ≠ s.rcv.nes) : rcvEnd src q s = .ok s := by
  refine if_neg fun ⟨est, peer, expected⟩ => ?_
  rcases h with idle | stranger | other
  · cases idle.symm.trans est
  · exact stranger peer
  · exact other expected

/-- Settles O38: the two answers of the rule for END. -/
theorem endAtTheReceiver : Obligations.EndAtTheReceiver := by
  intro s src p hr hv
  rw [exec_end_valid hr hv]
  refine ⟨fun est peer expected range => ⟨engineAddr .rcv s, ?_⟩, fun h => by rw [rcvEnd_ignored h, answer_ok]⟩
  rw [rcvEnd_finishes est peer expected range, answer_ok]
  simp [emit, rcvAck, transmit, putDatagram]

/-! ### DATA -/

theorem overCapacity_iff {cfg : Config} {n : Nat} :
    overCapacity cfg n = true ↔ ∃ c, cfg.outCapacity = some c ∧ c < n := by
  unfold overCapacity
  split
  · next unbounded => simp [unbounded]
  · next c bounded => simp [bounded]

theorem overCapacity_eq_false_iff {cfg : Config} {n : Nat} :
    overCapacity cfg n = false ↔ ∀ c, cfg.outCapacity = some c → n ≤ c := by
  rw [← Bool.not_eq_true, overCapacity_iff]
  simp

section

variable {s : State} {src : Addr} {q : U32} {payload : Bytes}

/-! The answers of the rule for DATA inside the window (44 R251). -/

theorem rcvAdmit_seqOverflow (h : advance s.rcv.nes (buffered s.rcv.buf q payload) s.rcv.out = none) :
    rcvAdmit src q payload s = rcvRaise .seqOverflow s.rcv s := by
  simp only [rcvAdmit, h]
  rfl

variable {nes' : U32} {buf' : UMap Bytes} {out' : Bytes}

theorem rcvAdmit_outOverflow
    (h : advance s.rcv.nes (buffered s.rcv.buf q payload) s.rcv.out = some (nes', buf', out'))
    (exceeds : overCapacity s.cfg out'.length = true) :
    rcvAdmit src q payload s = rcvRaise .outOverflow s.rcv s := by
  simp only [rcvAdmit, h, exceeds, if_true]
  rfl

theorem rcvAdmit_drains
    (h : advance s.rcv.nes (buffered s.rcv.buf q payload) s.rcv.out = some (nes', buf', out'))
    (fits : overCapacity s.cfg out'.length = false) :
    rcvAdmit src q payload s =
      rcvAck src nes' { s with rcv := { s.rcv with nes := nes', buf := buf', out := out' } } := by
  simp only [rcvAdmit, h, fits, Bool.false_eq_true, if_false]

/-! DATA by its number (44 R249 to R252). -/

theorem rcvData_dropped (h : s.rcv.state = .idle ∨ s.rcv.peer ≠ some src) : rcvData src q payload s = s := by
  refine if_neg fun ⟨est, peer⟩ => ?_
  rcases h with idle | stranger
  · cases idle.symm.trans est
  · exact stranger peer

variable (est : s.rcv.state = .established) (peer : s.rcv.peer = some src)
include est peer

theorem rcvData_below (h : q.toNat < s.rcv.nes.toNat) : rcvData src q payload s = rcvAck src s.rcv.nes s := by
  rw [rcvData, if_pos ⟨est, peer⟩, if_pos h]

theorem rcvData_inside (lower : s.rcv.nes.toNat ≤ q.toNat) (upper : q.toNat < s.rcv.nes.toNat + s.rcv.win.toNat) :
    rcvData src q payload s = rcvAdmit src q payload s := by
  rw [rcvData, if_pos ⟨est, peer⟩, if_neg (Nat.not_lt.mpr lower), if_pos (inWindow_iff.mpr ⟨lower, upper⟩)]

theorem rcvData_beyond (h : s.rcv.nes.toNat + s.rcv.win.toNat ≤ q.toNat) (lower : s.rcv.nes.toNat ≤ q.toNat) :
    rcvData src q payload s = s := by
  rw [rcvData, if_pos ⟨est, peer⟩, if_neg (Nat.not_lt.mpr lower),
    if_neg fun inside => Nat.not_lt.mpr h (inWindow_iff.mp inside).2]

end

/-- Settles O36: DATA by its number, and inside the window by what the drain answers. -/
theorem dataAtTheReceiver : Obligations.DataAtTheReceiver := by
  intro s src p m hr hv hm
  obtain rfl : m = buffered s.rcv.buf p.seq p.payload := hm
  rw [exec_data_valid hr hv]
  refine ⟨fun h => by rw [rcvData_dropped h], fun est peer => ⟨fun below => ?_, fun upper lower => ?_,
    fun lower upper => ?_⟩⟩
  · exact next_rcvAck (by rw [rcvData_below est peer below])
  · rw [rcvData_beyond est peer upper lower]
  · rw [rcvData_inside est peer lower upper]
    refine ⟨fun overflow => by rw [rcvAdmit_seqOverflow overflow]; rfl, fun nes' buf' out' drained => ⟨?_, ?_⟩⟩
    · intro exceeds
      rw [rcvAdmit_outOverflow drained (overCapacity_iff.mpr exceeds)]
      rfl
    · intro fits
      exact next_rcvAck
        (s := { s with rcv := { s.rcv with nes := nes', buf := buf', out := out' } })
        (by rw [rcvAdmit_drains drained (overCapacity_eq_false_iff.mpr fits)])

/-! ### The next number, and numbers that were there before -/

/-- A buffer that holds only the next number is drained whole. -/
theorem advance_singleton {b : U32} (payload out : Bytes) (hb : b.toNat + 1 ≤ 2 ^ 32 - 2) :
    advance b [(b, payload)] out = some (b + 1, [], out ++ payload) := by
  have erased : mapErase [(b, payload)] b = [] := by simp [mapErase]
  rw [advance, List.length_singleton, advanceLoop, mapGet_cons_self]
  simp only [if_neg (Nat.not_lt.mpr hb), erased, advanceLoop]

/-- Where the next number is not in the buffer, nothing is drained. -/
theorem advance_absent {b : U32} {m : UMap Bytes} (out : Bytes) (h : mapGet m b = none) :
    advance b m out = some (b, m, out) := by
  rw [advance]
  cases m.length with
  | zero => rfl
  | succ n => simp only [advanceLoop, h]

theorem buffered_present {m : UMap Bytes} {q : U32} (h : mapHas m q = true) (payload : Bytes) :
    buffered m q payload = m := if_pos h

/-- An Established receiver without a fault is receptive (44 R240). -/
theorem ReceiverOk.receptive {cfg : Config} {x : Receiver} (h : ReceiverOk cfg x) (est : x.state = .established)
    (noFault : x.fault = none) : rcvReceptive x = true := by
  obtain ⟨-, -, hest, -⟩ := h
  obtain ⟨listening, -⟩ := hest est
  exact rcvReceptive_iff.mpr ⟨listening, noFault, .inr est⟩

/-- Settles O37: DATA inside the window, alone in the buffer (`advance_singleton`). -/
theorem nextDataGoesStraightToTheOutput : Obligations.NextDataGoesStraightToTheOutput := by
  intro s src p hi est noFault peer hv empty next range unbounded
  obtain ⟨-, -, hrcv⟩ := hi
  have hr := ReceiverOk.receptive hrcv est noFault
  obtain ⟨-, -, hest, -⟩ := hrcv
  obtain ⟨-, -, -, -, window, -⟩ := hest est
  have drained : advance s.rcv.nes (buffered s.rcv.buf p.seq p.payload) s.rcv.out =
      some (s.rcv.nes + 1, [], s.rcv.out ++ p.payload) := by
    rw [empty, next]
    exact advance_singleton _ _ (by omega)
  have fits : overCapacity s.cfg (s.rcv.out ++ p.payload).length = false :=
    overCapacity_eq_false_iff.mpr fun c bounded => by cases unbounded.symm.trans bounded
  refine next_rcvAck (s := { s with rcv := { s.rcv with nes := s.rcv.nes + 1, out := s.rcv.out ++ p.payload } }) ?_
  rw [exec_data_valid hr hv, rcvData_inside est peer (by rw [next]) (by rw [next]; omega), rcvAdmit_drains drained fits,
    ← empty]

/-- Settles O55: DATA below the window, or inside it with a number in the buffer, which is not the next one (10 R47), so
that nothing is buffered and nothing drained. -/
theorem duplicateDataIsIdempotent : Obligations.DuplicateDataIsIdempotent := by
  intro s src p hi est noFault peer hv before
  obtain ⟨-, -, hrcv⟩ := hi
  rw [exec_data_valid (ReceiverOk.receptive hrcv est noFault) hv]
  refine next_rcvAck (congrArg Host.Outcome.next ?_)
  rcases before with below | there
  · exact rcvData_below est peer below
  · obtain ⟨-, -, hest, -⟩ := hrcv
    obtain ⟨-, -, -, -, -, -, -, ⟨-, inside⟩, fits, -⟩ := hest est
    obtain ⟨v, found⟩ := Option.isSome_iff_exists.mp there
    obtain ⟨lower, upper⟩ := inside _ (mem_of_mapGet found)
    have nextAbsent : mapGet s.rcv.buf s.rcv.nes = none := mapGet_none_iff.mpr fun e he same => by
      have := (inside e he).1
      rw [same] at this
      exact Nat.lt_irrefl _ this
    have drained : advance s.rcv.nes (buffered s.rcv.buf p.seq p.payload) s.rcv.out =
        some (s.rcv.nes, s.rcv.buf, s.rcv.out) := by
      rw [buffered_present there]
      exact advance_absent _ nextAbsent
    rw [rcvData_inside est peer lower.le upper, rcvAdmit_drains drained fits]

/-! ### A packet that fails `verify` -/

theorem rcvMismatch_hints {s : State} {src : Addr} (est : s.rcv.state = .established) (peer : s.rcv.peer = some src) :
    rcvMismatch src s = rcvAck src s.rcv.nes s := if_pos ⟨est, peer⟩

theorem rcvMismatch_dropped {s : State} {src : Addr} (h : s.rcv.state ≠ .established ∨ s.rcv.peer ≠ some src) :
    rcvMismatch src s = s := if_neg (not_and_or.mpr h)

/-- Settles O40: the packet reaches no rule (`offerPacket_rcv_mismatch`), whatever its type. -/
theorem checksumMismatchAtTheReceiver : Obligations.ChecksumMismatchAtTheReceiver := by
  intro s s1 b src pkt hf hr hd hv
  rw [step_packet hf hd, offerPacket_rcv_mismatch hr hv]
  exact ⟨fun est peer => next_rcvAck (by rw [rcvMismatch_hints est peer]), fun h => by rw [rcvMismatch_dropped h]⟩

/-! ### Other addresses -/

/-- Settles O54: a packet has no rule there (`rcvRule_stranger`) and earns no hint, a malformed datagram is dropped, and
a faulted receiver takes neither. -/
theorem singlePeerAdmission : Obligations.SinglePeerAdmission := by
  intro s s1 b a src hf est peer other
  have stranger : s1.rcv.peer ≠ some src := fun same => other (Option.some.inj (same.symm.trans peer))
  refine ⟨fun hr => ?_, fun left => ⟨engineAddr .rcv s1, step_left hf left⟩⟩
  by_cases hd : ∃ p, decodePacket b = .packet p
  · obtain ⟨p, hd⟩ := hd
    rw [step_packet hf hd, offerPacket_rcv_none b hr (rcvRule_stranger est stranger),
      rcvMismatch_dropped (.inr stranger), ite_self]
  · rw [step_malformed hf (not_exists.mp hd)]
    exact if_pos hr

end Sys2Proof.Machine
end

section
/-! PROOFS. The statements of 60_exceptions.md: malformed datagrams, TICK and what is taken before it, that every step
completes, and the one response of a command. -/

namespace Sys2Proof.Machine

/-! ### Malformed datagrams -/

theorem offerMalformed_snd {s : State} {src : Addr} {b : Bytes} (hs : SenderOk s.cfg.crc s.snd s.now)
    (hr : sndReceptive s.snd = true) : offerMalformed .snd src b s = .next (beginWait s) := by
  rw [offerMalformed, if_pos (show receptive .snd s = true from hr), sndTake_none hs hr, answer_ok]

theorem offerMalformed_rcv {s : State} {src : Addr} {b : Bytes} (hr : rcvReceptive s.rcv = true) :
    offerMalformed .rcv src b s = .next s := if_pos hr

/-- Settles O26: an engine that is not receptive leaves every datagram in the channel (`step_left`); a receptive one is
offered bytes that do not decode (`step_malformed`). -/
theorem formatErrorIsSilent : Obligations.FormatErrorIsSilent := by
  intro s s1 e b src hi hf short
  obtain ⟨-, hsnd, -⟩ := hi
  refine ⟨engineAddr e s1, ?_⟩
  cases hr : receptive e s1 with
  | false => exact step_left hf hr
  | true =>
    rw [step_malformed hf (decodePacket_ne_of_short short), if_pos rfl]
    cases e with
    | snd => exact offerMalformed_snd hsnd hr
    | rcv => exact offerMalformed_rcv hr

/-! ### Every step completes -/

/-- Settles O45, from `step_inv`: taking an event keeps the invariant, and from there every instruction (`exec_keeps`)
and every other event (`otherEvent_inv`) has a next state. -/
theorem stepNeverStops : Obligations.StepNeverStops := fun _ hi =>
  let ⟨t, ht, _⟩ := step_inv hi
  ⟨t, ht⟩

/-! ### One response to a command -/

/-- A step that takes a command does what a command can do, whether or not its word decodes. -/
theorem step_command_way {s s1 t : State} {w : U32} {ops : List Value} (hf : fetch s = some (.cmd w ops, s1))
    (h : step s = .next t) : CommandWay s1 t := by
  cases hd : decode (.cmd w ops) with
  | instr i =>
    rw [step_instr hf hd] at h
    rcases exec_way h with ⟨-, k⟩ | ⟨packet, -⟩
    · exact k
    · rw [isCommand_of_decode hd] at packet
      cases packet
  | rejected r =>
    rw [step_other hf hd] at h
    cases h
    exact respond_way .illegal [] s1.freeCount s1

theorem ne_resp_of_senderEvent {o : Output} (h : senderEvent o = true) (c : Status) (r : List Value) :
    o ≠ .resp c r := by
  rintro rfl
  cases h

/-- Settles O49: a command answers once and then puts out events of the sender only, which are no responses
(`CommandWay`); no command writes `now`. -/
theorem oneResponsePerCommand : Obligations.OneResponsePerCommand := by
  intro s t m w ops rest hin h
  have way := step_command_way (fetch_command hin) h
  obtain ⟨c, r, l, outputs, events, refused⟩ := way.resp
  refine ⟨c, r, l, outputs, fun o ho c' r' => ne_resp_of_senderEvent (events o ho) c' r', fun notOk => ?_⟩
  obtain ⟨alone, snd, rcv, channel⟩ := refused notOk
  exact ⟨alone, snd, rcv, way.now, channel⟩

/-! ### Datagrams before the TICK of their moment -/

/-- Behind a TICK, and behind events of its moment that bring no datagram, the first event that brings one is taken, and
the TICK stays (60 R313). -/
theorem fetch_before_tick {s : State} {m : Nat} {ev : Input} {before rest : List Arrival} (hd : isDatagram ev = true)
    (h : s.inputs = ⟨m, .tick⟩ :: before ++ ⟨m, ev⟩ :: rest)
    (hb : ∀ a ∈ before, a.moment = m ∧ isDatagram a.ev = false) :
    fetch s = some (resolveDelivery ev { s with inputs := ⟨m, .tick⟩ :: before ++ rest }) := by
  have picked : pickInput s.inputs = some (ev, ⟨m, .tick⟩ :: before ++ rest) := by
    rw [h, List.cons_append, pickInput, if_pos rfl, firstDatagram_found before rest ev hb hd]
    rfl
  simp only [fetch, picked]

/-- A TICK with no datagram of its moment behind it is taken. -/
theorem fetch_tick_first {s : State} {m : Nat} {now rest : List Arrival} (h : s.inputs = ⟨m, .tick⟩ :: now ++ rest)
    (hb : ∀ a ∈ now, a.moment = m ∧ isDatagram a.ev = false) (hr : ∀ a ∈ rest.head?, a.moment ≠ m) :
    fetch s = some (.tick, { s with inputs := now ++ rest }) := by
  have picked : pickInput s.inputs = some (.tick, now ++ rest) := by
    rw [h, List.cons_append, pickInput, if_pos rfl, firstDatagram_none now rest hb hr]
  simp only [fetch, picked, resolveDelivery]

theorem resolveDelivery_present {s : State} {k : Nat} {d : Datagram} (e : Engine) (h : s.channel[k]? = some d) :
    resolveDelivery (.channel (.deliver k e)) s =
      (.rx e d.bytes d.src, { s with channel := s.channel.eraseIdx k }) := by
  simp only [resolveDelivery, h]

theorem resolveDelivery_absent {s : State} {k : Nat} (e : Engine) (h : s.channel[k]? = none) :
    resolveDelivery (.channel (.deliver k e)) s = (.channel (.deliver k e), s) := by
  simp only [resolveDelivery, h]

/-- Settles O6: a datagram and a delivery are both taken before the TICK (`fetch_before_tick`), and a delivery brings
what stands at its place; with neither, the TICK is taken. -/
theorem datagramBeforeTickOfItsMoment : Obligations.DatagramBeforeTickOfItsMoment := by
  refine ⟨fun s m e b src before rest h hb => fetch_before_tick rfl h hb, fun s m k e before rest h hb => ?_,
    fun s m now rest h hb hr => fetch_tick_first h hb hr⟩
  rw [fetch_before_tick rfl h hb]
  exact ⟨fun d hd => congrArg some (resolveDelivery_present e hd), fun hn => congrArg some (resolveDelivery_absent e hn)⟩

/-! ### TICK without an expiry -/

/-- Settles O28: a sender that is not receptive has no running timer (`tick_of_not_receptive`); the timers of a
receptive one count (`tick_receptive`), and a wait of 2 or more does not expire. -/
theorem tickCounts : Obligations.TickCounts := by
  intro s s1 hf
  rw [step_tick hf]
  refine ⟨fun idle => ?_, fun hr hw hd => ?_⟩
  · rw [tick_of_not_receptive idle, answer_ok]
  · rw [tick_receptive hr (by omega) hd, if_neg (by omega)]
    rfl

end Sys2Proof.Machine
end

section
/-! PROOFS. The statements of 70_reset_and_hazards.md: what RESET does to every register, and that the invariants hold at
reset. -/

namespace Sys2Proof.Machine

/-! ### RESET -/

/-- A RESET at the front of the events is what the step runs. -/
theorem step_reset {s : State} {m : Nat} {g : Target} {rest : List Arrival} (h : s.inputs = ⟨m, .reset g⟩ :: rest) :
    step s = .next (resetTarget g { s with inputs := rest }) :=
  step_other (fetch_first h (by simp) (by simp)) rfl

@[simp] theorem resetTarget_channel (g : Target) (s : State) : (resetTarget g s).channel = s.channel := by
  cases g <;> rfl

@[simp] theorem resetTarget_inputs (g : Target) (s : State) : (resetTarget g s).inputs = s.inputs := by
  cases g <;> rfl

@[simp] theorem resetTarget_freeCount (g : Target) (s : State) : (resetTarget g s).freeCount = s.freeCount := by
  cases g <;> rfl

/-- Only RESET(RCV) spares the sender. -/
theorem resetTarget_snd (g : Target) (s : State) :
    (resetTarget g s).snd = if g = .rcv then s.snd else Sender.reset := by
  cases g <;> rfl

/-- Only RESET(SND) spares the receiver. -/
theorem resetTarget_rcv (g : Target) (s : State) :
    (resetTarget g s).rcv = if g = .snd then s.rcv else Receiver.reset := by
  cases g <;> rfl

/-- Only RESET(ALL) clears the time. -/
theorem resetTarget_now (g : Target) (s : State) : (resetTarget g s).now = if g = .all then 0 else s.now := by
  cases g <;> rfl

/-- Settles O8: the step runs `resetTarget`, which puts `Sender.reset` and `Receiver.reset` in the place of the engines
its target names and keeps the rest. -/
theorem resetEvent : Obligations.ResetEvent := by
  intro s m t rest h
  refine ⟨_, step_reset h, resetTarget_cfg .., resetTarget_channel .., resetTarget_inputs .., resetTarget_outputs ..,
    resetTarget_freeCount .., fun spared => ?_, fun named => ?_, fun spared => ?_, fun named => ?_, resetTarget_now ..⟩
  · rw [resetTarget_snd, if_pos spared]
  · rw [resetTarget_snd, if_neg named]
    simp [Sender.reset]
  · rw [resetTarget_rcv, if_pos spared]
  · rw [resetTarget_rcv, if_neg named]
    simp [Receiver.reset]

/-! ### The invariants at reset -/

/-- The reference parameters keep the default checksum, so what is asked of a replaced one asks nothing of them. -/
theorem Config.reference_ok : Config.reference.Ok :=
  ⟨by decide, by decide, by decide, by decide, fun _ replaced => nomatch replaced⟩

/-- Settles O42: the parameters are in their ranges, both engines hold their reset values, and every map is empty. -/
theorem invariantsHoldAtReset : Obligations.InvariantsHoldAtReset :=
  ⟨⟨Config.reference_ok, senderOk_reset _ _, receiverOk_reset _⟩, mapWf_nil, mapWf_nil, mapWf_nil⟩

end Sys2Proof.Machine
end
